-- ==== Sys2Proof/Word.lean ====
section
/-! DEFINITION. The words, numbers and small enumerations of STEPGEN (00_scope R11, 10_state R20 to R37): 32-bit
registers, time stamps, axis numbers, pin levels and the named values the spec lists. Types only; every function over them
stands in Decode.lean or under Machine/. -/

namespace Sys2Proof

/-- A register or command word: 32 bits (00_scope R11). -/
abbrev Word := BitVec 32

/-- One byte of a byte-addressed binding (20_memory R65). -/
abbrev Byte := BitVec 8

/-- A time stamp. TW bits are significant (00_scope R7): with TW = 32 the upper 32 bits are 0. -/
abbrev Time := BitVec 64

/-- A logical pin level or one-bit flag: `true` is 1 (10_state R37). -/
abbrev Level := Bool

/-- An axis number `0 <= a < NAXES`, with NAXES = 4 (00_scope R7, R13). -/
abbrev Axis := Fin 4

/-- `direction` (10_state R29). -/
inductive Direction where
  | cw
  | ccw
  deriving DecidableEq, Repr

/-- `state` of an axis (10_state R33). -/
inductive Lifecycle where
  | idle
  | running
  | accelerating
  | decelerating
  deriving DecidableEq, Repr

/-- The role of a pin of an axis (00_scope R10). -/
inductive PinRole where
  | pwm
  | dir
  | en
  deriving DecidableEq, Repr

/-- TW, the width of the time base: 32 by default, or 64 (00_scope R7). -/
inductive TimeWidth where
  | w32
  | w64
  deriving DecidableEq, Repr

end Sys2Proof
end

