-- ==== Sys2Proof/Syntax.lean ====
section
/-! DEFINITION. The commands of STEPGEN as terms: one constructor per row of the opcode map (30_encoding R85). A command
word carries the axis and the one-bit flags; the 32-bit operands are taken from the argument registers when the command
runs (30_encoding R84), so they are no part of the term. -/

namespace Sys2Proof

inductive Instr where
  /-- 0x01, 43_config R171. -/
  | init (a : Axis)
  /-- 0x02, 44_registry R180. -/
  | add (a : Axis)
  /-- 0x03, 44_registry R181. -/
  | remove (a : Axis)
  /-- 0x04, operands ARG0, ARG1, ARG2, 43_config R160. -/
  | setspeed (a : Axis)
  /-- 0x05, `f` is the direction, 43_config R166. -/
  | setdir (a : Axis) (dir : Direction)
  /-- 0x06, `f` is on, 43_config R167. -/
  | enable (a : Axis) (on : Bool)
  /-- 0x07, `f` is on, 43_config R170. -/
  | limen (a : Axis) (on : Bool)
  /-- 0x08, `f` is the CW level and `g` the CCW level, 43_config R169. -/
  | setlim (a : Axis) (cw : Bool) (ccw : Bool)
  /-- 0x09, `f` is the direction, operand ARG0, 41_motion R115. -/
  | move (a : Axis) (dir : Direction)
  /-- 0x0A, operand ARG0, 41_motion R117. -/
  | moveto (a : Axis)
  /-- 0x0B, operand ARG0, 41_motion R120. -/
  | runspeed (a : Axis)
  /-- 0x0C, `f` is immediate, 41_motion R122. -/
  | stop (a : Axis) (immediate : Bool)
  /-- 0x0D, 42_poll R130. -/
  | poll (a : Axis)
  /-- 0x0E, no axis, 44_registry R183. -/
  | pollall
  deriving DecidableEq, Repr

end Sys2Proof
end

