-- ==== Sys2Proof/Decode.lean ====
section
/-! DEFINITION. The command encoding (30_encoding R81 to R88): the fields of a word, the opcode map, the decoder (total on
all words; it rejects by name and reads nothing but the word) and the encoder. -/

namespace Sys2Proof

/-- Why a word spells no command (30_encoding R83, R86). Both reasons end in the result code ILLEGAL. -/
inductive DecodeError where
  /-- R83 (1): no row of the opcode map has this `op`. -/
  | noSuchOpcode (op : BitVec 8)
  /-- R83 (2): a reserved bit, or a field the row's format does not use, is not 0. -/
  | maskMismatch (op : BitVec 8)
  deriving DecidableEq, Repr

/-- The code of a direction (10_state R29): CW = 0, CCW = 1. -/
def Direction.code : Direction → Bool
  | .cw => false
  | .ccw => true

/-- The direction a flag bit spells (30_encoding R84). -/
def Direction.ofCode : Bool → Direction
  | false => .cw
  | true => .ccw

/-- `op`, bits 7:0 (30_encoding R81). -/
def opField (w : Word) : BitVec 8 := w.extractLsb' 0 8

/-- `axis`, bits 9:8 (30_encoding R81). -/
def axisField (w : Word) : Axis := (w.extractLsb' 8 2).toFin

/-- `f`, bit 12 (30_encoding R81). -/
def fField (w : Word) : Bool := w.getLsbD 12

/-- `g`, bit 13 (30_encoding R81). -/
def gField (w : Word) : Bool := w.getLsbD 13

/-- One row of the opcode map (30_encoding R85). -/
structure OpcodeRow where
  mnemonic : String
  pattern : Word
  mask : Word
  build : Word → Instr

/-- The opcode map, row by row as 30_encoding R85 lists it. -/
def opcodeMap : List OpcodeRow :=
  [ ⟨"INIT",     0x00000001, 0xFFFFFCFF, fun w => .init (axisField w)⟩,
    ⟨"ADD",      0x00000002, 0xFFFFFCFF, fun w => .add (axisField w)⟩,
    ⟨"REMOVE",   0x00000003, 0xFFFFFCFF, fun w => .remove (axisField w)⟩,
    ⟨"SETSPEED", 0x00000004, 0xFFFFFCFF, fun w => .setspeed (axisField w)⟩,
    ⟨"SETDIR",   0x00000005, 0xFFFFECFF, fun w => .setdir (axisField w) (Direction.ofCode (fField w))⟩,
    ⟨"ENABLE",   0x00000006, 0xFFFFECFF, fun w => .enable (axisField w) (fField w)⟩,
    ⟨"LIMEN",    0x00000007, 0xFFFFECFF, fun w => .limen (axisField w) (fField w)⟩,
    ⟨"SETLIM",   0x00000008, 0xFFFFCCFF, fun w => .setlim (axisField w) (fField w) (gField w)⟩,
    ⟨"MOVE",     0x00000009, 0xFFFFECFF, fun w => .move (axisField w) (Direction.ofCode (fField w))⟩,
    ⟨"MOVETO",   0x0000000A, 0xFFFFFCFF, fun w => .moveto (axisField w)⟩,
    ⟨"RUNSPEED", 0x0000000B, 0xFFFFFCFF, fun w => .runspeed (axisField w)⟩,
    ⟨"STOP",     0x0000000C, 0xFFFFECFF, fun w => .stop (axisField w) (fField w)⟩,
    ⟨"POLL",     0x0000000D, 0xFFFFFCFF, fun w => .poll (axisField w)⟩,
    ⟨"POLLALL",  0x0000000E, 0xFFFFFFFF, fun _ => .pollall⟩ ]

/-- R83 (1): the row whose `op` is the word's. -/
def findRow (w : Word) : Option OpcodeRow :=
  opcodeMap.find? (fun r => opField r.pattern == opField w)

/-- The decoder (30_encoding R83): find the row, check the mask, build the command. -/
def decode (w : Word) : Except DecodeError Instr :=
  match findRow w with
  | none => .error (.noSuchOpcode (opField w))
  | some r => if w &&& r.mask = r.pattern then .ok (r.build w) else .error (.maskMismatch (opField w))

/-- A command word from its fields, reserved bits 0: `z2 ++ g ++ f ++ z1 ++ axis ++ op` (30_encoding R81). -/
def fieldWord (op : BitVec 8) (a : Axis) (f g : Bool) : Word :=
  0#18 ++ BitVec.ofBool g ++ BitVec.ofBool f ++ 0#2 ++ BitVec.ofFin (w := 2) a ++ op

/-- The encoder (30_encoding R81, R85, R89). -/
def encode : Instr → Word
  | .init a => fieldWord 0x01 a false false
  | .add a => fieldWord 0x02 a false false
  | .remove a => fieldWord 0x03 a false false
  | .setspeed a => fieldWord 0x04 a false false
  | .setdir a dir => fieldWord 0x05 a dir.code false
  | .enable a on => fieldWord 0x06 a on false
  | .limen a on => fieldWord 0x07 a on false
  | .setlim a cw ccw => fieldWord 0x08 a cw ccw
  | .move a dir => fieldWord 0x09 a dir.code false
  | .moveto a => fieldWord 0x0A a false false
  | .runspeed a => fieldWord 0x0B a false false
  | .stop a immediate => fieldWord 0x0C a immediate false
  | .poll a => fieldWord 0x0D a false false
  | .pollall => fieldWord 0x0E 0 false false

/-- The command word of a row of the opcode table given as a number of `nbits` bits: bit 0 is the word's bit 0, and the
bits from `nbits` up are 0. -/
def tableWord (nbits w : Nat) : Word := BitVec.ofNat 32 (w % 2 ^ nbits)

/-- What the decoder reads from a word numbered as the opcode table numbers it. -/
def decodeTableWord (nbits w : Nat) : Option Instr :=
  match decode (tableWord nbits w) with
  | .ok i => some i
  | .error _ => none

end Sys2Proof
end

