-- ==== Sys2Proof/Config.lean ====
section
/-! DEFINITION. What an implementation of STEPGEN fixes (00_scope R7) and the free values, which the spec leaves open. The
parameters are plain data so that every statement can quantify over them; the free values are opaque, so nothing can see
what they are. -/

namespace Sys2Proof

/-- The parameters of 00_scope R7 that the spec leaves to the model. They are no state of STEPGEN (10_state R20): a State
carries them and no step writes them (log entries 3, 4, 5). -/
structure Params where
  /-- TICK_US, OPEN, an integer at least 1 (00_scope R7, 93 U10). -/
  tickUs : Nat
  /-- TW, default 32 (00_scope R7, 93 U12). -/
  timeWidth : TimeWidth
  /-- RUNSPEED_HOLD, default false (41_motion R121, 93 U11). -/
  runspeedHold : Bool
  deriving DecidableEq, Repr

/-- POS_INF, the sentinel target of a clockwise continuous run (00_scope R7, 41_motion R120). -/
def Config.posInf : Int := 2 ^ 31 - 1

/-- NEG_INF, the sentinel target of a counter-clockwise continuous run (00_scope R7, 41_motion R120). -/
def Config.negInf : Int := -2 ^ 31

/-- FREE VALUE (20_memory R62, 93 U4; log entry 9): what draw number `draw` returns when a speed-parameter register is
read while `speed_valid = 0`. -/
opaque Config.unsetRead (draw : Nat) : Word

/-- FREE VALUE (44_registry R184, 93 U7; log entry 10): the place, among the axes not yet placed, that axis number `axis`
takes in the order of service of the POLLALL with draw number `draw`. -/
opaque Config.pollSlot (draw axis : Nat) : Nat

end Sys2Proof
end

