-- ==== Sys2Proof/Port.lean ====
section
/-! DEFINITION. What crosses the boundary of STEPGEN, as data: the events that act on it (00_scope R8, R9), the pin events
and read results it gives back (R10), and the lines of the assembler text (30_encoding R89, R90). -/

namespace Sys2Proof

/-- One invocation of the pin-control capability (00_scope R10). -/
structure PinEvent where
  axis : Axis
  role : PinRole
  level : Level
  deriving DecidableEq, Repr

/-- The outcome of one read, as the host sees it (00_scope R10 (c), 20_memory R62, R65). -/
inductive ReadEvent where
  /-- A word read of a register. -/
  | register (addr : Nat) (value : Word)
  /-- The same read through a byte-addressed binding: the bytes, lowest address first. -/
  | bytes (byteAddr : Nat) (value : List Byte)
  deriving DecidableEq, Repr

/-- One step of an agent (00_scope R9; 20_memory R62 to R66). -/
inductive Event where
  /-- TICK, from the tick source (40_timebase R100). -/
  | tick
  /-- `Cmd(word, arg0, arg1, arg2)`, from the host (20_memory R64). -/
  | cmd (word a0 a1 a2 : Word)
  /-- `RegWrite(addr, v)`, from the host (20_memory R63). -/
  | regWrite (addr : Nat) (v : Word)
  /-- `RegRead(addr)`, from the host (20_memory R62). -/
  | regRead (addr : Nat)
  /-- A write on a byte-addressed binding, bytes lowest address first (20_memory R65, R66). -/
  | busWrite (byteAddr : Nat) (bytes : List Byte)
  /-- A read of `count` bytes on a byte-addressed binding (20_memory R65, R66). -/
  | busRead (byteAddr count : Nat)
  deriving DecidableEq, Repr

/-- One line of assembler text (30_encoding R89), the pseudo-commands of R90 and the two script lines TICK and READ. -/
inductive Line where
  | init (a : Nat)
  | add (a : Nat)
  | remove (a : Nat)
  | setspeed (a maxSpeed startSpeed accel : Nat)
  | setdir (a : Nat) (dir : Direction)
  | enable (a : Nat) (on : Bool)
  | limen (a : Nat) (on : Bool)
  | setlim (a : Nat) (cw ccw : Bool)
  | move (a steps : Nat) (dir : Direction)
  | moveto (a : Nat) (pos : Int)
  | runspeed (a : Nat) (v : Int)
  | stop (a : Nat) (immediate : Bool)
  | poll (a : Nat)
  | pollall
  /-- Pseudo-command HALT (R90). -/
  | halt (a : Nat)
  /-- Pseudo-command SOFTSTOP (R90). -/
  | softstop (a : Nat)
  /-- Pseudo-command DISABLE (R90). -/
  | disable (a : Nat)
  /-- Pseudo-command PROCESSALL (R90). -/
  | processall
  /-- Pseudo-command MOVEREL (R90). -/
  | moverel (a : Nat) (d : Int)
  /-- Script line `TICK n` (R89). -/
  | tick (n : Nat)
  /-- Script line `READ name`, the name given as its register address (R89). -/
  | read (addr : Nat)
  deriving DecidableEq, Repr

end Sys2Proof
end

