-- ==== Sys2Proof/Machine/State.lean ====
section
/-! DEFINITION. The state of STEPGEN (10_state R20 to R37, 20_memory R76), its reset value (10_state R51, 70_reset R215),
and the reasons a step can stop. -/

namespace Sys2Proof.Machine

/-- The Motor record of one axis (10_state R27 to R37). -/
structure Motor where
  /-- R27, two's complement. -/
  position : Word
  /-- `target_position`, R28, two's complement. -/
  target : Word
  /-- R29. -/
  direction : Direction
  /-- R30. -/
  accelCount : Word
  /-- The current step period in microseconds, R31. -/
  stepDelay : Word
  /-- R32, meaningful while `speedValid`. -/
  minStepDelay : Word
  /-- R32, meaningful while `speedValid`. -/
  maxStepDelay : Word
  /-- R32, meaningful while `speedValid`; 0 means no ramp. -/
  accelSteps : Word
  /-- R32. -/
  speedValid : Bool
  /-- R33. -/
  state : Lifecycle
  /-- R34: `true` is high. -/
  pulseState : Bool
  /-- R35. -/
  lastStepTime : Time
  /-- R36. -/
  limitEnabled : Bool
  /-- R36. -/
  cwLimit : Bool
  /-- R36. -/
  ccwLimit : Bool
  /-- R37. -/
  pinPwm : Level
  /-- R37. -/
  pinDir : Level
  /-- R37. -/
  pinEn : Level
  deriving DecidableEq, Repr

/-- The four Motor records, which always exist (10_state R20). -/
structure Axes where
  m0 : Motor
  m1 : Motor
  m2 : Motor
  m3 : Motor
  deriving DecidableEq, Repr

/-- The result record of the last command (10_state R26). -/
structure Result where
  code : BitVec 8
  cmd : BitVec 14
  deriving DecidableEq, Repr

/-- The state. The first group of fields is the spec's; the second is the model's own (INVENTORY.md). -/
structure State where
  /-- `G.time_us`, R21. -/
  timeUs : Time
  /-- The latch of 20_memory R76, which TIME_US_HI returns when TW = 64. -/
  timeHiLatch : Word
  /-- `G.ms_tick`, R22. -/
  msTick : Word
  /-- `G.us_frac`, R23. -/
  usFrac : Nat
  /-- `G.registered`, R24: bit `a` is axis `a`. -/
  registered : BitVec 4
  /-- `G.arg0`, R25. -/
  arg0 : Word
  /-- `G.arg1`, R25. -/
  arg1 : Word
  /-- `G.arg2`, R25. -/
  arg2 : Word
  /-- `G.result`, R26. -/
  result : Result
  /-- `ax[0..3]`. -/
  axes : Axes
  /-- MODEL: the parameters of 00_scope R7, which no step writes. -/
  params : Params
  /-- MODEL: the output trace of pin events, oldest first (00_scope R10 (b), R14). -/
  trace : List PinEvent
  /-- MODEL: the values returned by reads, oldest first (00_scope R10 (c)). -/
  reads : List ReadEvent
  /-- MODEL: the ticks and host accesses still to come, the next one first (00_scope R9; log entry 1). -/
  input : List Event
  /-- MODEL: how many TICKs fall in each coming gap between two handlers of a POLLALL (44_registry R183; log entry 11). -/
  gapTicks : List Nat
  /-- MODEL: the number of the next free value to be drawn (log entries 9, 10). -/
  draws : Nat
  deriving DecidableEq, Repr

/-- The named points where the spec stops the model (00_scope R14, 60_exceptions R193). The hardware raises nothing there
and goes on with values the spec leaves unspecified; stopping is SAFE: no claim can rest on such a value. -/
inductive Fault where
  /-- A speed parameter is read by MOVE, MOVETO, STOP, POLL or POLLALL while `speed_valid = 0` (41_motion R111). Safe. -/
  | unsetParameter
  /-- MOVE or STOP would set a target outside the signed 32-bit range (41_motion R112). Safe. -/
  | targetOverflow
  /-- A falling edge in POLL or POLLALL would leave the signed 32-bit range (42_poll R153). Safe. -/
  | positionOverflow
  /-- SETSPEED computes an `accel_steps` that does not fit 32 bits (43_config R165), or a step that POLL or POLLALL completes
  calls a ramp function while `(dmax - dmin) * N` or the product it forms does not fit 32 bits (42_poll R149, 93 U5). Safe. -/
  | arithmeticDomain
  deriving DecidableEq, Repr

/-- Steps the model does not accept. -/
inductive Refusal where
  /-- An instruction without a meaning: raised by no arm of this model. Safe. -/
  | notModelled (mnemonic : String)
  /-- A byte-bus access that is not an aligned 32-bit word (20_memory R66), raised by the host port. Safe. -/
  | unalignedBusAccess
  deriving DecidableEq, Repr

/-- What one step or meaning answers. -/
abbrev Out := Host.Outcome State Fault Refusal

/-- An axis after reset (10_state R51). The three speed parameters are unspecified there: the 0 is the model's own (log
entry 6) and no rule can read it while `speedValid` is false. -/
def Motor.reset : Motor where
  position := 0
  target := 0
  direction := .cw
  accelCount := 0
  stepDelay := 0
  minStepDelay := 0
  maxStepDelay := 0
  accelSteps := 0
  speedValid := false
  state := .idle
  pulseState := false
  lastStepTime := 0
  limitEnabled := false
  cwLimit := false
  ccwLimit := false
  pinPwm := false
  pinDir := false
  pinEn := false

/-- The machine right after reset (10_state R51, 70_reset R215). TW = 32 and RUNSPEED_HOLD = false are the spec's defaults
(00_scope R7); TICK_US = 1 is the model's own choice for an open parameter (log entry 3). -/
def State.reset : State where
  timeUs := 0
  timeHiLatch := 0
  msTick := 0
  usFrac := 0
  registered := 0
  arg0 := 0
  arg1 := 0
  arg2 := 0
  result := ⟨0, 0⟩
  axes := ⟨Motor.reset, Motor.reset, Motor.reset, Motor.reset⟩
  params := ⟨1, .w32, false⟩
  trace := []
  reads := []
  input := []
  gapTicks := []
  draws := 0

end Sys2Proof.Machine
end

