-- ==== Sys2Proof/Machine/Ops.lean ====
section
/-! DEFINITION. The named operations every meaning is written with: access to axes, driving a pin, the time base, the stop
primitive, and how a command ends. STEPGEN takes no exceptions (60_exceptions R198): a command ends by writing its result. -/

namespace Sys2Proof

/-- Keep the TW significant bits of a time (40_timebase R100, R103: `mod 2^TW`). -/
def TimeWidth.wrap : TimeWidth → Time → Time
  | .w32, t => (t.setWidth 32).setWidth 64
  | .w64, t => t

/-- TW as a number. -/
def TimeWidth.bits : TimeWidth → Nat
  | .w32 => 32
  | .w64 => 64

end Sys2Proof

namespace Sys2Proof.Machine

/-! ### Axes -/

/-- `ax[a]` (00_scope R13). -/
def Axes.get (x : Axes) (a : Axis) : Motor :=
  match a with
  | 0 => x.m0
  | 1 => x.m1
  | 2 => x.m2
  | 3 => x.m3

/-- `ax[a] <- m` (00_scope R13). -/
def Axes.set (x : Axes) (a : Axis) (m : Motor) : Axes :=
  match a with
  | 0 => { x with m0 := m }
  | 1 => { x with m1 := m }
  | 2 => { x with m2 := m }
  | 3 => { x with m3 := m }

/-- `ax[a]` of a state. -/
def State.ax (s : State) (a : Axis) : Motor := s.axes.get a

/-- `ax[a] <- m` in a state. -/
def State.setAx (s : State) (a : Axis) (m : Motor) : State := { s with axes := s.axes.set a m }

/-! ### Work on one axis

A command or handler acts on one Motor record and emits pin events of that axis alone (00_scope R6). `Work` is the record
under change together with the events emitted so far. -/

/-- A Motor record under change and the pin events it has emitted, oldest first. -/
structure Work where
  motor : Motor
  events : List (PinRole × Level)
  deriving DecidableEq, Repr

/-- The latch of a role takes a level (10_state R37). -/
def Motor.latch (m : Motor) : PinRole → Level → Motor
  | .pwm, l => { m with pinPwm := l }
  | .dir, l => { m with pinDir := l }
  | .en, l => { m with pinEn := l }

/-- The level a role's latch holds (10_state R37). -/
def Motor.pin (m : Motor) : PinRole → Level
  | .pwm => m.pinPwm
  | .dir => m.pinDir
  | .en => m.pinEn

/-- `setPin(a, role, level)` (00_scope R14): the latch takes the level and one event is emitted, also when the latch
already holds that level (R10). -/
def Work.setPin (r : PinRole) (l : Level) (w : Work) : Work :=
  ⟨w.motor.latch r l, w.events ++ [(r, l)]⟩

/-- Change the record without driving a pin. -/
def Work.modify (f : Motor → Motor) (w : Work) : Work := ⟨f w.motor, w.events⟩

/-- The stop primitive `halt(a)` (41_motion R110). -/
def Work.halt (w : Work) : Work :=
  (w.modify fun m => { m with state := .idle, target := m.position, pulseState := false }).setPin .pwm false

/-- Put a finished piece of work back into the state: the record, and its events at the end of the trace. -/
def State.commit (a : Axis) (w : Work) (s : State) : State :=
  { s.setAx a w.motor with trace := s.trace ++ w.events.map fun e => ⟨a, e.1, e.2⟩ }

/-- Run one axis's work; a fault stops the model (00_scope R14). -/
def onAxis (a : Axis) (f : Work → Except Fault Work) (s : State) : Out :=
  match f ⟨s.ax a, []⟩ with
  | .ok w => .next (s.commit a w)
  | .error e => .fault e

/-- Run `g` on the state `o` answers, if it answers one. -/
def andThen (o : Out) (g : State → Out) : Out :=
  match o with
  | .next s => g s
  | .fault e => .fault e
  | .refused r => .refused r

/-! ### How a command ends (60_exceptions R190) -/

/-- Result code 0. -/
def codeOk : BitVec 8 := 0
/-- Result code 1. -/
def codeInvalidArg : BitVec 8 := 1
/-- Result code 2. -/
def codeIllegal : BitVec 8 := 2

/-- The low 14 bits of a command word, which the result records (60_exceptions R190). -/
def resultCmd (w : Word) : BitVec 14 := w.setWidth 14

/-- `result <- code` for the command word `w` (00_scope R14, 60_exceptions R190). -/
def finishWord (w : Word) (code : BitVec 8) (s : State) : State := { s with result := ⟨code, resultCmd w⟩ }

/-- `result <- code` for the command `i`, whose word is `encode i`. -/
def finish (i : Instr) (code : BitVec 8) (s : State) : State := finishWord (encode i) code s

/-- Run one axis's work and end the command `i` with OK. -/
def commandOnAxis (i : Instr) (a : Axis) (f : Work → Except Fault Work) (s : State) : Out :=
  andThen (onAxis a f s) fun t => .next (finish i codeOk t)

/-- What an illegal word does (30_encoding R86): nothing but the result. -/
def illegalWord (w : Word) (s : State) : State := finishWord w codeIllegal s

/-! ### The time base (40_timebase) -/

/-- `now()` (40_timebase R102). -/
def State.now (s : State) : Time := s.timeUs

/-- `elapsed(t0)` at the time `now` (40_timebase R103): unsigned subtraction modulo 2^TW. -/
def elapsed (tw : TimeWidth) (now t0 : Time) : Nat := (tw.wrap (now - t0)).toNat

/-- TICK with the increment `inc` (40_timebase R100, R101). The loop of R101, which takes 1000 from `us_frac` and adds 1 to
`ms_tick` while it can, is one division with remainder (log entry 16). -/
def tickBy (inc : Nat) (s : State) : State :=
  { s with
    timeUs := s.params.timeWidth.wrap (s.timeUs + BitVec.ofNat 64 inc)
    usFrac := (s.usFrac + inc) % 1000
    msTick := s.msTick + BitVec.ofNat 32 ((s.usFrac + inc) / 1000) }

/-- TICK (40_timebase R100). -/
def tick (s : State) : State := tickBy s.params.tickUs s

/-- `n` TICKs, one after the other. -/
def ticks : Nat → State → State
  | 0, s => s
  | n + 1, s => ticks n (tick s)

end Sys2Proof.Machine
end

