-- ==== Sys2Proof/Machine/Operands.lean ====
section
/-! DEFINITION. How operands are read (30_encoding R84), the integers they stand for (00_scope R12), and the ranges results
must stay in (41_motion R112, 42_poll R153). -/

namespace Sys2Proof

/-- `sgn(CW) = +1`, `sgn(CCW) = -1` (10_state R29). -/
def Direction.sgn : Direction → Int
  | .cw => 1
  | .ccw => -1

/-- The DIR level of a direction is its code (10_state R37). -/
def Direction.level (d : Direction) : Level := d.code

/-- The sentinel a continuous run in direction `d` aims at (41_motion R120). -/
def Direction.sentinel : Direction → Int
  | .cw => Config.posInf
  | .ccw => Config.negInf

end Sys2Proof

namespace Sys2Proof.Machine

/-- MOVE's `steps`: `zext_32(ARG0)` (30_encoding R84). -/
def operandSteps (s : State) : Nat := s.arg0.toNat

/-- MOVETO's `pos`: `sext_32(ARG0)` (30_encoding R84). -/
def operandPos (s : State) : Int := s.arg0.toInt

/-- RUNSPEED's `v`: `sext_32(ARG0)` (30_encoding R84). -/
def operandSpeed (s : State) : Int := s.arg0.toInt

/-- SETSPEED's `max_speed`: `zext_32(ARG0)` (30_encoding R84). -/
def operandMaxSpeed (s : State) : Nat := s.arg0.toNat

/-- SETSPEED's `start_speed`: `zext_32(ARG1)` (30_encoding R84). -/
def operandStartSpeed (s : State) : Nat := s.arg1.toNat

/-- SETSPEED's `accel`: `zext_32(ARG2)` (30_encoding R84). -/
def operandAccel (s : State) : Nat := s.arg2.toNat

/-- `-2^31 .. 2^31 - 1` (41_motion R112, 42_poll R153). -/
def inPositionRange (p : Int) : Bool := decide (-2 ^ 31 ≤ p) && decide (p ≤ 2 ^ 31 - 1)

/-- Store an in-range position as two's complement (10_state R27). -/
def positionWord (p : Int) : Word := BitVec.ofInt 32 p

/-- Store an unsigned 32-bit number (10_state R31, R32). -/
def countWord (n : Nat) : Word := BitVec.ofNat 32 n

end Sys2Proof.Machine
end

