-- ==== Sys2Proof/Machine/Flags.lean ====
section
/-! DEFINITION. The one-bit fields (10_state R41): the codes of the enumerations, the limit test, and the status word that
packs them (20_memory R61). STEPGEN has no condition codes. -/

namespace Sys2Proof

/-- The code of a lifecycle state (10_state R33). -/
def Lifecycle.code : Lifecycle → BitVec 2
  | .idle => 0
  | .running => 1
  | .accelerating => 2
  | .decelerating => 3

end Sys2Proof

namespace Sys2Proof.Machine

/-- The limit flag that matches the current direction (42_poll R133). -/
def Motor.limitFlag (m : Motor) : Bool :=
  match m.direction with
  | .cw => m.cwLimit
  | .ccw => m.ccwLimit

/-- Step 2 of POLL: the detector is enabled and the flag of the current direction is set (42_poll R133). -/
def Motor.limitHit (m : Motor) : Bool := m.limitEnabled && m.limitFlag

/-- `target_position` is POS_INF or NEG_INF (42_poll R146). -/
def Motor.targetIsSentinel (m : Motor) : Bool :=
  decide (m.target.toInt = Config.posInf) || decide (m.target.toInt = Config.negInf)

/-- The register AXSTAT of an axis whose registry bit is `registered` (20_memory R61): bits 11 down to 0 are speed_valid,
pin_en, pin_dir, pin_pwm, registered, ccw_limit, cw_limit, limit_enabled, pulse_state, direction, state. -/
def Motor.status (m : Motor) (registered : Bool) : Word :=
  0#20 ++ BitVec.ofBool m.speedValid ++ BitVec.ofBool m.pinEn ++ BitVec.ofBool m.pinDir ++ BitVec.ofBool m.pinPwm ++
    BitVec.ofBool registered ++ BitVec.ofBool m.ccwLimit ++ BitVec.ofBool m.cwLimit ++ BitVec.ofBool m.limitEnabled ++
    BitVec.ofBool m.pulseState ++ BitVec.ofBool m.direction.code ++ m.state.code

/-- The register RESULT (20_memory R61): bits 29:16 the command, bits 7:0 the code. -/
def Result.word (r : Result) : Word := 0#2 ++ r.cmd ++ 0#8 ++ r.code

end Sys2Proof.Machine
end

