-- ==== Sys2Proof/Machine/Ramp.lean ====
section
/-! DEFINITION. The step-delay modulator (42_poll R144, R147): the speed profile of an axis and the two ramp formulas, in
exact integers with floor division (00_scope R12), and the arithmetic domain of a ramp step (R149, log entry 8). -/

namespace Sys2Proof.Machine

/-- The speed parameters of an axis as numbers: `dmin`, `dmax`, `N` (42_poll, head of the file). -/
structure Profile where
  dmin : Nat
  dmax : Nat
  n : Nat
  deriving DecidableEq, Repr

/-- A read of speed parameters, marked `(P)` in the rules: a fault while `speed_valid = 0` (41_motion R111). -/
def Motor.profile (m : Motor) : Except Fault Profile :=
  if m.speedValid then .ok ⟨m.minStepDelay.toNat, m.maxStepDelay.toNat, m.accelSteps.toNat⟩ else .error .unsetParameter

/-- `accel_delay(m, k)` (42_poll R144). All quantities are non-negative once `dmin <= dmax`, and a difference below `dmin`
is clamped to it, so subtraction of naturals gives the rule's value. -/
def accelDelay (p : Profile) (k : Nat) : Nat :=
  if p.n = 0 then p.dmin else max p.dmin (p.dmax - (p.dmax - p.dmin) * k / p.n)

/-- `decel_delay(m, rem)` (42_poll R147), `factor = max(0, N - rem)`. -/
def decelDelay (p : Profile) (rem : Nat) : Nat :=
  if p.n = 0 then p.dmin else min p.dmax (p.dmin + (p.dmax - p.dmin) * (p.n - rem) / p.n)

/-- The arithmetic domain of a ramp function that multiplies by `k`: the premise `(dmax - dmin) * N < 2^32` (42_poll R149),
and its own product `(dmax - dmin) * k` fits 32 bits (93 U5). With `N = 0` no product is formed (R155 (d)). -/
def Profile.inDomain (p : Profile) (k : Nat) : Bool :=
  decide (p.n = 0) || decide ((p.dmax - p.dmin) * max p.n k < 2 ^ 32)

/-- What a completed step computes with a ramp function that multiplies by `k`: outside the arithmetic domain it is the fault
ArithmeticDomain (42_poll R149, 93 U5, V20; log entry 8). -/
def Profile.guardRamp (p : Profile) (k : Nat) (m : Motor) : Except Fault Motor :=
  if p.inDomain k then .ok m else .error .arithmeticDomain

/-- The remaining distance `|target_position - position|`, exact (42_poll R143). -/
def Motor.remaining (m : Motor) : Nat := (m.target.toInt - m.position.toInt).natAbs

end Sys2Proof.Machine
end

