-- ==== Sys2Proof/Machine/Motion.lean ====
section
/-! DEFINITION. The motion commands MOVE, MOVETO, RUNSPEED and STOP (41_motion). -/

namespace Sys2Proof.Machine

/-! ### MOVE and MOVETO -/

/-- The writes of a MOVE that is accepted, in the order of 41_motion R115: target and direction pin, pulse phase, time
stamp and ramp counter, enable, then the lifecycle state with its first delay. `2 * accel_steps` is exact.
The first delay of the ramp is `accel_delay(m, 0)`, whose product is 0 and whose value R115 gives as `max_step_delay`, so no
arithmetic domain is left here (log entry 8). -/
def startMove (now : Time) (steps : Nat) (dir : Direction) (target : Int) (p : Profile) (w : Work) : Work :=
  let w := (w.modify fun m => { m with target := positionWord target, direction := dir }).setPin .dir dir.level
  let w := (w.modify fun m => { m with pulseState := false }).setPin .pwm false
  let w := (w.modify fun m => { m with lastStepTime := now, accelCount := 0 }).setPin .en true
  w.modify fun m =>
    if 2 * p.n < steps then { m with state := .accelerating, stepDelay := countWord (accelDelay p 0) }
    else { m with state := .running, stepDelay := countWord p.dmin }

/-- `MOVE a, steps, dir` (41_motion R115; zero distance R116; range R112). -/
def moveWork (now : Time) (steps : Nat) (dir : Direction) (w : Work) : Except Fault Work :=
  let target := w.motor.position.toInt + dir.sgn * steps
  if steps = 0 then .ok w.halt
  else if inPositionRange target then
    match w.motor.profile with
    | .ok p => .ok (startMove now steps dir target p w)
    | .error e => .error e
  else .error .targetOverflow

/-- `MOVETO a, pos` (41_motion R117): the distance and direction of the equivalent MOVE. -/
def movetoWork (now : Time) (pos : Int) (w : Work) : Except Fault Work :=
  let d := pos - w.motor.position.toInt
  if d = 0 then .ok w.halt
  else if 0 < d then moveWork now d.natAbs .cw w
  else moveWork now d.natAbs .ccw w

/-- MOVE (41_motion R115). -/
def execMove (a : Axis) (dir : Direction) (s : State) : Out :=
  commandOnAxis (.move a dir) a (moveWork s.now (operandSteps s) dir) s

/-- MOVETO (41_motion R117). -/
def execMoveto (a : Axis) (s : State) : Out :=
  commandOnAxis (.moveto a) a (movetoWork s.now (operandPos s)) s

/-! ### RUNSPEED -/

/-- The direction of a signed speed (41_motion R120). -/
def speedDirection (v : Int) : Direction := if 0 < v then .cw else .ccw

/-- `RUNSPEED a, v` (41_motion R120). -/
def runspeedWork (v : Int) (w : Work) : Except Fault Work :=
  let d := speedDirection v
  if v = 0 then .ok w.halt
  else
    let w := (w.modify fun m => { m with direction := d }).setPin .dir d.level
    if w.motor.position.toInt = d.sentinel then .ok w.halt
    else .ok <| w.modify fun m =>
      { m with stepDelay := countWord (1000000 / v.natAbs), target := positionWord d.sentinel, state := .running }

/-- RUNSPEED (41_motion R120). -/
def execRunspeed (a : Axis) (s : State) : Out :=
  commandOnAxis (.runspeed a) a (runspeedWork (operandSpeed s)) s

/-! ### STOP -/

/-- `STOP a, DECEL` (41_motion R124). -/
def softStopWork (w : Work) : Except Fault Work :=
  if w.motor.state = .idle then .ok w
  else
    match w.motor.profile with
    | .error e => .error e
    | .ok p =>
      let target := w.motor.position.toInt + w.motor.direction.sgn * p.n
      if p.n = 0 then .ok w.halt
      else if inPositionRange target then
        .ok <| w.modify fun m => { m with target := positionWord target, state := .decelerating }
      else .error .targetOverflow

/-- `STOP a` with its `immediate` flag (41_motion R122; R123 is `halt`). -/
def stopWork (immediate : Bool) (w : Work) : Except Fault Work :=
  if immediate then .ok w.halt else softStopWork w

/-- STOP (41_motion R122). -/
def execStop (a : Axis) (immediate : Bool) (s : State) : Out :=
  commandOnAxis (.stop a immediate) a (stopWork immediate) s

end Sys2Proof.Machine
end

