-- ==== Sys2Proof/Machine/Poll.lean ====
section
/-! DEFINITION. POLL, the per-motor handler (42_poll R130): Idle test, limit test, time test, phase edge, in that order. -/

namespace Sys2Proof.Machine

/-- The per-step rule while Accelerating (42_poll R145): Decelerating wins over Running. -/
def accelStep (p : Profile) (m : Motor) : Motor :=
  let rem := m.remaining
  let m := { m with accelCount := m.accelCount + 1 }
  let m := { m with stepDelay := countWord (accelDelay p m.accelCount.toNat) }
  if rem ≤ p.n then { m with state := .decelerating }
  else if p.n ≤ m.accelCount.toNat then { m with state := .running }
  else m

/-- The per-step rule while Running (42_poll R146), for either value of RUNSPEED_HOLD. -/
def runStep (hold : Bool) (p : Profile) (m : Motor) : Motor :=
  let m := if m.targetIsSentinel && hold then m else { m with stepDelay := countWord p.dmin }
  if m.remaining ≤ p.n then { m with state := .decelerating } else m

/-- The per-step rule while Decelerating (42_poll R147). -/
def decelStep (p : Profile) (m : Motor) : Motor :=
  { m with stepDelay := countWord (decelDelay p m.remaining) }

/-- The step-delay modulator at a completed step that did not reach the target (42_poll R139): every per-state rule reads a
speed parameter, and the two that call a ramp function check its arithmetic domain (R149). An Idle axis never comes here
(R131). -/
def stepRule (hold : Bool) (m : Motor) : Except Fault Motor :=
  match m.profile with
  | .error e => .error e
  | .ok p =>
    match m.state with
    | .accelerating => p.guardRamp (m.accelCount + 1).toNat (accelStep p m)
    | .running => .ok (runStep hold p m)
    | .decelerating => p.guardRamp (p.n - m.remaining) (decelStep p m)
    | .idle => .ok m

/-- The position after the step now completing (42_poll R141). -/
def Motor.nextPosition (m : Motor) : Int := m.position.toInt + m.direction.sgn

/-- A completed step on the Motor record (42_poll R141 to R147, R153): count the position, test for the target, else apply
the per-state rule. -/
def completeStep (hold : Bool) (m : Motor) : Except Fault Motor :=
  if inPositionRange m.nextPosition then
    let m := { m with position := positionWord m.nextPosition }
    if m.position = m.target then .ok { m with state := .idle } else stepRule hold m
  else .error .positionOverflow

/-- The phase edge at time `t` (42_poll R136 to R139): the snapshot and the toggle, then PWM; a falling edge completes the
step. -/
def phaseEdge (hold : Bool) (t : Time) (w : Work) : Except Fault Work :=
  let w := w.modify fun m => { m with lastStepTime := t, pulseState := !m.pulseState }
  if w.motor.pulseState then .ok (w.setPin .pwm true)
  else
    let w := w.setPin .pwm false
    match completeStep hold w.motor with
    | .ok m => .ok ⟨m, w.events⟩
    | .error e => .error e

/-- The limit stop (42_poll R133): `halt`, and the home limit also zeroes both positions. -/
def limitStop (w : Work) : Work :=
  let stopped := w.halt
  match w.motor.direction with
  | .cw => stopped
  | .ccw => stopped.modify fun m => { m with position := 0, target := 0 }

/-- Step 3 of POLL (42_poll R135): the edge is due when half the step period has elapsed. -/
def Motor.edgeDue (tw : TimeWidth) (t : Time) (m : Motor) : Bool :=
  decide (m.stepDelay.toNat / 2 ≤ elapsed tw t m.lastStepTime)

/-- The whole handler at the time `t`, the one reading of the time base (42_poll R130). -/
def pollWork (p : Params) (t : Time) (w : Work) : Except Fault Work :=
  if w.motor.state = .idle then .ok w
  else if w.motor.limitHit then .ok (limitStop w)
  else if w.motor.edgeDue p.timeWidth t then phaseEdge p.runspeedHold t w
  else .ok w

/-- The handler of axis `a` on a state; it writes no result (44_registry R183). -/
def pollAxis (a : Axis) (s : State) : Out := onAxis a (pollWork s.params s.now) s

/-- POLL (42_poll R130). -/
def execPoll (a : Axis) (s : State) : Out :=
  commandOnAxis (.poll a) a (pollWork s.params s.now) s

end Sys2Proof.Machine
end

