-- ==== Sys2Proof/Machine/Registry.lean ====
section
/-! DEFINITION. The motor registry ADD, REMOVE and POLLALL (44_registry). -/

namespace Sys2Proof.Machine

/-- The bit of an axis in `G.registered` (10_state R24). -/
def axisBit (a : Axis) : BitVec 4 := 1#4 <<< a.val

/-- Axis `a` is in the poll list (10_state R24). -/
def State.isRegistered (s : State) (a : Axis) : Bool := s.registered.getLsbD a.val

/-- ADD (44_registry R180). -/
def execAdd (a : Axis) (s : State) : Out :=
  .next (finish (.add a) codeOk { s with registered := s.registered ||| axisBit a })

/-- REMOVE (44_registry R181). -/
def execRemove (a : Axis) (s : State) : Out :=
  .next (finish (.remove a) codeOk { s with registered := s.registered &&& ~~~(axisBit a) })

/-! ### POLLALL -/

/-- All axis numbers. -/
def allAxes : List Axis := [0, 1, 2, 3]

/-- The registered axes, as a list without order significance. -/
def State.registeredAxes (s : State) : List Axis := allAxes.filter s.isRegistered

/-- Put `a` at place `k` of `l`, counting from 0 and at the end at the latest. -/
def insertAt (a : Axis) : Nat → List Axis → List Axis
  | _, [] => [a]
  | 0, l => a :: l
  | k + 1, b :: l => b :: insertAt a k l

/-- The order of service of a POLLALL (44_registry R184): a permutation the spec leaves open, chosen by the free value
`Config.pollSlot` (log entry 10). One axis alone leaves nothing open. -/
def serviceOrder (draw : Nat) : List Axis → List Axis
  | [] => []
  | [a] => [a]
  | a :: b :: l => insertAt a (Config.pollSlot draw a.val % (l.length + 2)) (serviceOrder draw (b :: l))

/-- The TICKs that fall between two handlers (00_scope R9): as many as the next number of `gapTicks` says, none when it is
empty (log entry 11). -/
def gap (s : State) : State :=
  match s.gapTicks with
  | [] => s
  | n :: rest => ticks n { s with gapTicks := rest }

/-- Service the axes of a list, each once, with a gap between two handlers (44_registry R183). -/
def serviceAll : List Axis → State → Out
  | [], s => .next s
  | [a], s => pollAxis a s
  | a :: b :: l, s => andThen (pollAxis a s) fun t => serviceAll (b :: l) (gap t)

/-- POLLALL (44_registry R183): the set and the order are fixed at the start. -/
def execPollall (s : State) : Out :=
  andThen (serviceAll (serviceOrder s.draws s.registeredAxes) { s with draws := s.draws + 1 })
    fun t => .next (finish .pollall codeOk t)

end Sys2Proof.Machine
end

