-- ==== Sys2Proof/Machine/Setup.lean ====
section
/-! DEFINITION. The configuration commands SETSPEED, SETDIR, ENABLE, SETLIM, LIMEN and INIT (43_config). -/

namespace Sys2Proof.Machine

/-! ### SETSPEED -/

/-- The three rejection conditions, one test (43_config R161). -/
def speedsRejected (maxSpeed startSpeed : Nat) : Bool :=
  decide (maxSpeed = 0) || decide (startSpeed = 0) || decide (maxSpeed < startSpeed)

/-- The profile length, exact, floor 1 step unless `accel = 0` (43_config R162). -/
def profileLength (maxSpeed startSpeed accel : Nat) : Nat :=
  if accel = 0 then 0 else max 1 ((maxSpeed - startSpeed) ^ 2 / (2 * accel))

/-- The writes of an accepted SETSPEED (43_config R160). -/
def setSpeedWork (maxSpeed startSpeed accel : Nat) (w : Work) : Except Fault Work :=
  if profileLength maxSpeed startSpeed accel ≤ 2 ^ 32 - 1 then
    .ok <| w.modify fun m =>
      { m with
        minStepDelay := countWord (1000000 / maxSpeed)
        maxStepDelay := countWord (1000000 / startSpeed)
        accelSteps := countWord (profileLength maxSpeed startSpeed accel)
        speedValid := true }
  else .error .arithmeticDomain

/-- SETSPEED (43_config R160 to R165): reject, or check the domain, or write (60_exceptions R197 (2)). -/
def execSetspeed (a : Axis) (s : State) : Out :=
  if speedsRejected (operandMaxSpeed s) (operandStartSpeed s) then .next (finish (.setspeed a) codeInvalidArg s)
  else commandOnAxis (.setspeed a) a (setSpeedWork (operandMaxSpeed s) (operandStartSpeed s) (operandAccel s)) s

/-! ### Pins -/

/-- SETDIR (43_config R166). -/
def execSetdir (a : Axis) (dir : Direction) (s : State) : Out :=
  commandOnAxis (.setdir a dir) a
    (fun w => .ok ((w.modify fun m => { m with direction := dir }).setPin .dir dir.level)) s

/-- ENABLE (43_config R167). -/
def execEnable (a : Axis) (on : Bool) (s : State) : Out :=
  commandOnAxis (.enable a on) a (fun w => .ok (w.setPin .en on)) s

/-! ### Limit inputs -/

/-- SETLIM (43_config R169). -/
def execSetlim (a : Axis) (cw ccw : Bool) (s : State) : Out :=
  commandOnAxis (.setlim a cw ccw) a (fun w => .ok (w.modify fun m => { m with cwLimit := cw, ccwLimit := ccw })) s

/-- LIMEN (43_config R170). -/
def execLimen (a : Axis) (on : Bool) (s : State) : Out :=
  commandOnAxis (.limen a on) a (fun w => .ok (w.modify fun m => { m with limitEnabled := on })) s

/-! ### INIT -/

/-- The writes of INIT (43_config R171). The three speed parameters become unspecified because `speed_valid` is cleared;
their stored bits stay (10_state R32, R44; log entry 20). -/
def initWork (w : Work) : Work :=
  (w.modify fun m =>
    { m with
      position := 0
      target := 0
      direction := .cw
      stepDelay := 0
      accelCount := 0
      speedValid := false
      pulseState := false
      lastStepTime := 0
      limitEnabled := false
      cwLimit := false
      ccwLimit := false
      state := .idle }).setPin .pwm false

/-- INIT (43_config R171). -/
def execInit (a : Axis) (s : State) : Out :=
  commandOnAxis (.init a) a (fun w => .ok (initWork w)) s

end Sys2Proof.Machine
end

