-- ==== Sys2Proof/Machine/Dispatch.lean ====
section
/-! DEFINITION. One arm per command (30_encoding R85). -/

namespace Sys2Proof.Machine

def exec (i : Instr) (s : State) : Host.Outcome State Fault Refusal :=
  match i with
  | .init a => Sys2Proof.Machine.execInit a s
  | .add a => Sys2Proof.Machine.execAdd a s
  | .remove a => Sys2Proof.Machine.execRemove a s
  | .setspeed a => Sys2Proof.Machine.execSetspeed a s
  | .setdir a dir => Sys2Proof.Machine.execSetdir a dir s
  | .enable a on => Sys2Proof.Machine.execEnable a on s
  | .limen a on => Sys2Proof.Machine.execLimen a on s
  | .setlim a cw ccw => Sys2Proof.Machine.execSetlim a cw ccw s
  | .move a dir => Sys2Proof.Machine.execMove a dir s
  | .moveto a => Sys2Proof.Machine.execMoveto a s
  | .runspeed a => Sys2Proof.Machine.execRunspeed a s
  | .stop a immediate => Sys2Proof.Machine.execStop a immediate s
  | .poll a => Sys2Proof.Machine.execPoll a s
  | .pollall => Sys2Proof.Machine.execPollall s

end Sys2Proof.Machine
end

