-- ==== Sys2Proof/Machine/Registers.lean ====
section
/-! DEFINITION. The register space (20_memory R60 to R76): the map, reads and writes. -/

namespace Sys2Proof.Machine

/-- The registers of one axis (20_memory R61), at offsets 0x0 to 0x9 of its block. -/
inductive AxisReg where
  | axstat
  | position
  | target
  | stepDelay
  | minDelay
  | maxDelay
  | accelSteps
  | accelCount
  | lastStepTime
  | lastStepTimeHi
  deriving DecidableEq, Repr

/-- The registers of the map (20_memory R61). -/
inductive Reg where
  | timeUs
  | timeUsHi
  | msTick
  | registry
  | cmd
  | arg0
  | arg1
  | arg2
  | result
  | axis (a : Axis) (r : AxisReg)
  /-- Every address the map does not list (R68). -/
  | reserved
  deriving DecidableEq, Repr

/-- The register at an offset of an axis's block (20_memory R61). -/
def axisRegAt (a : Axis) : Nat → Reg
  | 0x0 => .axis a .axstat
  | 0x1 => .axis a .position
  | 0x2 => .axis a .target
  | 0x3 => .axis a .stepDelay
  | 0x4 => .axis a .minDelay
  | 0x5 => .axis a .maxDelay
  | 0x6 => .axis a .accelSteps
  | 0x7 => .axis a .accelCount
  | 0x8 => .axis a .lastStepTime
  | 0x9 => .axis a .lastStepTimeHi
  | _ => .reserved

/-- The register at a word address (20_memory R61): axis `a` has its block at `0x10 + 0x10 * a`. -/
def regAt (addr : Nat) : Reg :=
  match addr / 16 with
  | 0 =>
    match addr with
    | 0x00 => .timeUs
    | 0x01 => .timeUsHi
    | 0x02 => .msTick
    | 0x03 => .registry
    | 0x04 => .cmd
    | 0x05 => .arg0
    | 0x06 => .arg1
    | 0x07 => .arg2
    | 0x08 => .result
    | _ => .reserved
  | 1 => axisRegAt 0 (addr % 16)
  | 2 => axisRegAt 1 (addr % 16)
  | 3 => axisRegAt 2 (addr % 16)
  | 4 => axisRegAt 3 (addr % 16)
  | _ => .reserved

/-- The word address of CMD. -/
def cmdAddr : Nat := 0x04

/-- The lower word of a time (20_memory R61). -/
def timeLow (t : Time) : Word := t.setWidth 32

/-- The upper word of a time (20_memory R61, R76). -/
def timeHigh (t : Time) : Word := t.extractLsb' 32 32

/-- A speed-parameter register (20_memory R61, R62): its field, or a free value while `speed_valid = 0` (log entry 9). -/
def speedRegValue (draw : Nat) (m : Motor) (field : Word) : Word :=
  if m.speedValid then field else Config.unsetRead draw

/-- The content of an axis register (20_memory R61). -/
def axisRegValue (s : State) (a : Axis) : AxisReg → Word
  | .axstat => (s.ax a).status (s.isRegistered a)
  | .position => (s.ax a).position
  | .target => (s.ax a).target
  | .stepDelay => (s.ax a).stepDelay
  | .minDelay => speedRegValue s.draws (s.ax a) (s.ax a).minStepDelay
  | .maxDelay => speedRegValue s.draws (s.ax a) (s.ax a).maxStepDelay
  | .accelSteps => speedRegValue s.draws (s.ax a) (s.ax a).accelSteps
  | .accelCount => (s.ax a).accelCount
  | .lastStepTime => timeLow (s.ax a).lastStepTime
  | .lastStepTimeHi =>
    match s.params.timeWidth with
    | .w32 => 0
    | .w64 => timeHigh (s.ax a).lastStepTime

/-- What a read of a register returns (20_memory R61, R62). CMD is write-only and reads 0; reserved addresses read 0. -/
def regValue (s : State) : Reg → Word
  | .timeUs => timeLow s.timeUs
  | .timeUsHi =>
    match s.params.timeWidth with
    | .w32 => 0
    | .w64 => s.timeHiLatch
  | .msTick => s.msTick
  | .registry => s.registered.setWidth 32
  | .cmd => 0
  | .arg0 => s.arg0
  | .arg1 => s.arg1
  | .arg2 => s.arg2
  | .result => s.result.word
  | .axis a r => axisRegValue s a r
  | .reserved => 0

/-- The only effect a read has on the machine: with TW = 64 a read of TIME_US loads the latch (20_memory R62, R76). -/
def loadLatch (r : Reg) (s : State) : State :=
  match r, s.params.timeWidth with
  | .timeUs, .w64 => { s with timeHiLatch := timeHigh s.timeUs }
  | _, _ => s

/-- A read consumes one draw number, so that two reads draw independently (20_memory R62; log entry 9). -/
def readEffect (r : Reg) (s : State) : State :=
  let t := loadLatch r s
  { t with draws := t.draws + 1 }

/-- `RegRead(addr)` (20_memory R62): the value goes to the host's read log. -/
def regRead (addr : Nat) (s : State) : State :=
  let t := readEffect (regAt addr) s
  { t with reads := t.reads ++ [.register addr (regValue s (regAt addr))] }

/-- `RegWrite(addr, v)` (20_memory R63), where `run` executes a command word. -/
def regWrite (run : Word → State → Out) (addr : Nat) (v : Word) (s : State) : Out :=
  match regAt addr with
  | .arg0 => .next { s with arg0 := v }
  | .arg1 => .next { s with arg1 := v }
  | .arg2 => .next { s with arg2 := v }
  | .cmd => run v s
  | .timeUs | .timeUsHi | .msTick | .registry | .result | .axis _ _ | .reserved => .next s

end Sys2Proof.Machine
end

