-- ==== Sys2Proof/WellFormed.lean ====
section
/-! DEFINITION. The checks on terms the spec restricts: parameters (00_scope R7), byte-bus accesses (20_memory R66) and
assembler lines (30_encoding R89). An `Instr` needs no check: its axis is a `Fin 4`, its flags are a `Direction` or a
`Bool`, and those are exactly the values the command word can hold (30_encoding R81). -/

namespace Sys2Proof

/-- TICK_US is an integer at least 1 (00_scope R7). -/
def Params.wellFormed (p : Params) : Bool := decide (1 ≤ p.tickUs)

/-- An access on a byte bus is one aligned 32-bit word (20_memory R66). Every other event is well-formed. -/
def Event.wellFormed : Event → Bool
  | .busWrite byteAddr bytes => decide (byteAddr % 4 = 0) && decide (bytes.length = 4)
  | .busRead byteAddr count => decide (byteAddr % 4 = 0) && decide (count = 4)
  | .tick | .cmd _ _ _ _ | .regWrite _ _ | .regRead _ => true

/-- The axis number of an assembler line is below NAXES (00_scope R13). -/
def Line.axisOk (a : Nat) : Bool := decide (a < 4)

/-- An operand read as an unsigned 32-bit number (30_encoding R84). -/
def Line.unsignedOk (n : Nat) : Bool := decide (n < 2 ^ 32)

/-- An operand read as a signed 32-bit number (30_encoding R84). -/
def Line.signedOk (n : Int) : Bool := decide (-2 ^ 31 ≤ n) && decide (n < 2 ^ 31)

/-- Every operand of the line is one its register or field can carry (30_encoding R84, R89). -/
def Line.wellFormed : Line → Bool
  | .init a | .add a | .remove a | .poll a | .halt a | .softstop a | .disable a => Line.axisOk a
  | .setspeed a maxSpeed startSpeed accel =>
      Line.axisOk a && Line.unsignedOk maxSpeed && Line.unsignedOk startSpeed && Line.unsignedOk accel
  | .setdir a _ | .enable a _ | .limen a _ | .setlim a _ _ | .stop a _ => Line.axisOk a
  | .move a steps _ => Line.axisOk a && Line.unsignedOk steps
  | .moveto a pos => Line.axisOk a && Line.signedOk pos
  | .runspeed a v => Line.axisOk a && Line.signedOk v
  | .moverel a d => Line.axisOk a && Line.unsignedOk d.natAbs
  | .pollall | .processall | .tick _ | .read _ => true

end Sys2Proof
end

