-- ==== Sys2Proof/Machine/HostPort.lean ====
section
/-! DEFINITION. The steps of STEPGEN's agents (00_scope R8, R9): a TICK, a command, a register access, also through a
byte-addressed binding (20_memory R65, R66), and how the next one is taken from the input schedule (log entry 1). -/

namespace Sys2Proof.Machine

/-- Execute a command word (30_encoding R83): decode it and run the command, or end with ILLEGAL (R86). `run` gives the
commands their meaning. -/
def runWord (run : Instr → State → Out) (w : Word) (s : State) : Out :=
  match decode w with
  | .ok i => run i s
  | .error _ => .next (illegalWord w s)

/-- `Cmd(word, a0, a1, a2)` (20_memory R64): the three argument writes, then the write of CMD. -/
def runCmd (run : Instr → State → Out) (w a0 a1 a2 : Word) (s : State) : Out :=
  runWord run w { s with arg0 := a0, arg1 := a1, arg2 := a2 }

/-- The bytes of a word, least significant first (20_memory R65). -/
def wordBytes (w : Word) : List Byte :=
  [w.extractLsb' 0 8, w.extractLsb' 8 8, w.extractLsb' 16 8, w.extractLsb' 24 8]

/-- The word of a list of bytes, least significant first (20_memory R65); bytes beyond the fourth are not looked at. -/
def bytesWord : List Byte → Word
  | [] => 0
  | b :: bs => (bytesWord bs <<< 8) ||| b.setWidth 32

/-- A write on a byte bus (20_memory R65, R66): register `n` is at byte address `4 * n`. -/
def busWrite (run : Instr → State → Out) (byteAddr : Nat) (bytes : List Byte) (s : State) : Out :=
  if Event.wellFormed (.busWrite byteAddr bytes) then regWrite (runWord run) (byteAddr / 4) (bytesWord bytes) s
  else .refused .unalignedBusAccess

/-- A read on a byte bus (20_memory R65, R66). -/
def busRead (byteAddr count : Nat) (s : State) : Out :=
  if Event.wellFormed (.busRead byteAddr count) then
    let r := regAt (byteAddr / 4)
    let t := readEffect r s
    .next { t with reads := t.reads ++ [.bytes byteAddr (wordBytes (regValue s r))] }
  else .refused .unalignedBusAccess

/-- One event (00_scope R9). -/
def runEvent (run : Instr → State → Out) (e : Event) (s : State) : Out :=
  match e with
  | .tick => .next (tick s)
  | .cmd w a0 a1 a2 => runCmd run w a0 a1 a2 s
  | .regWrite addr v => regWrite (runWord run) addr v s
  | .regRead addr => .next (regRead addr s)
  | .busWrite byteAddr bytes => busWrite run byteAddr bytes s
  | .busRead byteAddr count => busRead byteAddr count s

/-- One step: take the next event of the schedule and run it. When the schedule is empty the host is silent and the tick
source, which never stops, takes the step (00_scope R8, 70_reset R238; log entry 1). -/
def stepWith (run : Instr → State → Out) (s : State) : Out :=
  match s.input with
  | [] => .next (tick s)
  | e :: rest => runEvent run e { s with input := rest }

end Sys2Proof.Machine
end

