-- ==== Sys2Proof/Machine/Step.lean ====
section
/-! DEFINITION. One step of STEPGEN (00_scope R9). It fetches nothing (10_state R40): its next instruction is the command
word the host writes to CMD next. -/

namespace Sys2Proof.Machine

/-- One step. -/
def step (s : State) : Host.Outcome State Fault Refusal := stepWith exec s

/-- The state in which the very next step is the host's write of the given command word to CMD (log entry 2). -/
def State.withFetchWord (s : State) (nbits w : Nat) : State :=
  { s with input := .regWrite cmdAddr (tableWord nbits w) :: s.input }

end Sys2Proof.Machine
end

