-- ==== Sys2Proof/Machine/Assembler.lean ====
section
/-! DEFINITION. The assembler text (30_encoding R89, R90): what host steps a line stands for. Operands go to ARG0 to ARG2
in the order written, negative numbers as two's complement; the operand writes come first, then the write of CMD. -/

namespace Sys2Proof.Machine

/-- The axis an assembler line names; for a well-formed line it is the number written. DESIGN CHOICE (log entry 22): a number
of 4 or more, of which 30_encoding R89 says nothing, is taken modulo 4. -/
def lineAxis (a : Nat) : Axis := Fin.ofNat 4 a

/-- The write of CMD that issues a command. -/
def issue (i : Instr) : Event := .regWrite cmdAddr (encode i)

/-- The expansion of a pseudo-command (30_encoding R90); any other line is itself. -/
def expand : Line → Line
  | .halt a => .stop a true
  | .softstop a => .stop a false
  | .disable a => .enable a false
  | .processall => .pollall
  | .moverel a d => if 0 ≤ d then .move a d.natAbs .cw else .move a d.natAbs .ccw
  | l => l

/-- The steps of a line that is no pseudo-command (30_encoding R89). DESIGN CHOICE (log entry 22): an operand that does not fit
32 bits, of which R89 says nothing, is taken modulo 2^32; `Line.wellFormed` tells such lines apart and is not tested here. -/
def assembleCore : Line → List Event
  | .init a => [issue (.init (lineAxis a))]
  | .add a => [issue (.add (lineAxis a))]
  | .remove a => [issue (.remove (lineAxis a))]
  | .setspeed a maxSpeed startSpeed accel =>
      [.regWrite 0x05 (BitVec.ofNat 32 maxSpeed), .regWrite 0x06 (BitVec.ofNat 32 startSpeed),
       .regWrite 0x07 (BitVec.ofNat 32 accel), issue (.setspeed (lineAxis a))]
  | .setdir a dir => [issue (.setdir (lineAxis a) dir)]
  | .enable a on => [issue (.enable (lineAxis a) on)]
  | .limen a on => [issue (.limen (lineAxis a) on)]
  | .setlim a cw ccw => [issue (.setlim (lineAxis a) cw ccw)]
  | .move a steps dir => [.regWrite 0x05 (BitVec.ofNat 32 steps), issue (.move (lineAxis a) dir)]
  | .moveto a pos => [.regWrite 0x05 (BitVec.ofInt 32 pos), issue (.moveto (lineAxis a))]
  | .runspeed a v => [.regWrite 0x05 (BitVec.ofInt 32 v), issue (.runspeed (lineAxis a))]
  | .stop a immediate => [issue (.stop (lineAxis a) immediate)]
  | .poll a => [issue (.poll (lineAxis a))]
  | .pollall => [issue .pollall]
  | .tick n => List.replicate n .tick
  | .read addr => [.regRead addr]
  | .halt _ | .softstop _ | .disable _ | .processall | .moverel _ _ => []

/-- The steps of a line (30_encoding R89, R90). -/
def assemble (l : Line) : List Event := assembleCore (expand l)

end Sys2Proof.Machine
end

