-- ==== Sys2Proof/Safety.lean ====
section
/-! DEFINITION. The terms claims about STEPGEN are stated in: the invariant of its states (10_state R45 to R50), the state
a command leaves, quiescence (70_reset R240), runs of phase edges (70_reset R238), and what cannot be observed
(10_state R32). -/

namespace Sys2Proof.Machine

/-! ### What a command leaves -/

/-- The state in which command `i`, acting on axis `a` of `s`, has left the record `m`, emitted the pin events `events` in
this order and ended with `code`; everything else is as in `s` (60_exceptions R190). -/
def State.afterCommand (s : State) (i : Instr) (a : Axis) (m : Motor) (events : List (PinRole × Level))
    (code : BitVec 8) : State :=
  { s with
    axes := s.axes.set a m
    trace := s.trace ++ events.map fun e => ⟨a, e.1, e.2⟩
    result := ⟨code, (encode i).setWidth 14⟩ }

/-- The record of an axis after `halt` (41_motion R110). -/
def Motor.halted (m : Motor) : Motor :=
  { m with state := .idle, target := m.position, pulseState := false, pinPwm := false }

/-- The axis a command names; POLLALL names none (30_encoding R82). -/
def axisOf : Instr → Option Axis
  | .init a | .add a | .remove a | .setspeed a | .setdir a _ | .enable a _ | .limen a _ | .setlim a _ _ | .move a _
  | .moveto a | .runspeed a | .stop a _ | .poll a => some a
  | .pollall => none

/-- The sign of a direction, as the rules write it: `sgn(CW) = +1`, `sgn(CCW) = -1` (10_state R29). -/
def sign (d : Direction) : Int := if d = .cw then 1 else -1

/-- The level that a direction's code is (10_state R29, R37): CW 0, CCW 1. -/
def dirLevel (d : Direction) : Level := decide (d = .ccw)

/-- A position the 32-bit counter can hold (41_motion R112, 42_poll R153). -/
abbrev Representable (p : Int) : Prop := -2 ^ 31 ≤ p ∧ p ≤ 2 ^ 31 - 1

/-- The record of an axis on which a MOVE of `steps > 0` steps in direction `d` towards `target` has started at time `now`
(41_motion R115): with `N = accel_steps`, the ramp's first delay is `max(dmin, dmax)`, that is `dmax` on an ordered
profile, and `dmin` when `N = 0`. -/
def Motor.started (m : Motor) (steps : Nat) (d : Direction) (target : Word) (now : Time) : Motor :=
  { m with
    target := target
    direction := d
    pinDir := dirLevel d
    pulseState := false
    pinPwm := false
    lastStepTime := now
    accelCount := 0
    pinEn := true
    state := if 2 * m.accelSteps.toNat < steps then .accelerating else .running
    stepDelay :=
      if 2 * m.accelSteps.toNat < steps ∧ m.accelSteps ≠ 0 ∧ m.minStepDelay.toNat ≤ m.maxStepDelay.toNat
      then m.maxStepDelay else m.minStepDelay }

/-- The pin events of a started MOVE, in order (41_motion R115). -/
def startEvents (d : Direction) : List (PinRole × Level) := [(.dir, dirLevel d), (.pwm, false), (.en, true)]

/-- The profile of an axis as numbers (10_state R32). -/
def Motor.numbers (m : Motor) : Profile := ⟨m.minStepDelay.toNat, m.maxStepDelay.toNat, m.accelSteps.toNat⟩

/-- The time since the last edge of axis `a`, modulo 2^TW (40_timebase R103). -/
def State.sinceEdge (s : State) (a : Axis) : Nat :=
  (s.timeUs - (s.ax a).lastStepTime).toNat % 2 ^ s.params.timeWidth.bits

/-- The limit detector stops the axis: enabled, and the flag of the current direction set (42_poll R133). -/
abbrev Motor.AtLimit (m : Motor) : Prop :=
  m.limitEnabled = true ∧ ((m.direction = .cw ∧ m.cwLimit = true) ∨ (m.direction = .ccw ∧ m.ccwLimit = true))

/-- POLL of axis `a` makes a phase edge: it is active, no limit stops it, and half its step period has elapsed
(42_poll R130). -/
abbrev State.EdgeAt (s : State) (a : Axis) : Prop :=
  (s.ax a).state ≠ .idle ∧ ¬ (s.ax a).AtLimit ∧ (s.ax a).stepDelay.toNat / 2 ≤ s.sinceEdge a

/-- Where the step now completing takes an axis (42_poll R141). -/
def Motor.landing (m : Motor) : Int := m.position.toInt + sign m.direction

/-- The record of an axis whose step completes at time `now`, before any per-state rule: falling edge and position count
(42_poll R136, R137, R139, R141). -/
def Motor.stepped (m : Motor) (now : Time) : Motor :=
  { m with lastStepTime := now, pulseState := false, pinPwm := false, position := BitVec.ofInt 32 m.landing }

/-- The distance that remains after the step now completing (42_poll R143). -/
def Motor.distanceLeft (m : Motor) : Nat := (m.target.toInt - m.landing).natAbs

/-- POLL of axis `a` completes a step that neither overflows nor reaches the target (42_poll R139). -/
abbrev State.StepCompletes (s : State) (a : Axis) : Prop :=
  s.EdgeAt a ∧ (s.ax a).pulseState = true ∧ Representable (s.ax a).landing ∧ (s.ax a).landing ≠ (s.ax a).target.toInt

/-- The ramp function that the per-step rule of the axis calls, if it calls one, has every product within 32 bits: for an
Accelerating axis the product at the next count too (42_poll R149, 93 U5). -/
abbrev Motor.RampInDomain (m : Motor) : Prop :=
  (m.state = .accelerating → m.accelSteps = 0 ∨
    (m.maxStepDelay.toNat - m.minStepDelay.toNat) * max m.accelSteps.toNat (m.accelCount + 1).toNat < 2 ^ 32) ∧
  (m.state = .decelerating → (m.maxStepDelay.toNat - m.minStepDelay.toNat) * m.accelSteps.toNat < 2 ^ 32)

/-- The per-step rule of the axis has what it reads: a profile, and where the rule calls a ramp function, one within its
arithmetic domain (41_motion R111, 42_poll R149). -/
abbrev Motor.RuleDefined (m : Motor) : Prop := m.speedValid = true ∧ m.RampInDomain

/-- No POLL of the axis can fault, at whatever time: it is Idle, a limit stops it, its next edge is a rising one, or its step
lands in range and either reaches the target or has a defined per-step rule (42_poll R130). -/
abbrev Motor.PollSafe (m : Motor) : Prop :=
  m.state = .idle ∨ m.AtLimit ∨ m.pulseState = false ∨
    (Representable m.landing ∧ (m.landing = m.target.toInt ∨ m.RuleDefined))

/-- A read of the register at `addr` in state `s` returns `v` to the host (20_memory R62). -/
def State.Returns (s : State) (addr : Nat) (v : Word) : Prop :=
  ∃ t, step { s with input := .regRead addr :: s.input } = .next t ∧ t.reads = s.reads ++ [.register addr v]

/-- The word an event writes to CMD, if it writes one (20_memory R63 to R65). -/
def commandWord : Event → Option Word
  | .cmd w _ _ _ => some w
  | .regWrite addr w => if addr = 0x04 then some w else none
  | .busWrite byteAddr [b0, b1, b2, b3] => if byteAddr = 0x10 then some (b3 ++ b2 ++ b1 ++ b0) else none
  | .busWrite _ _ | .tick | .regRead _ | .busRead _ _ => none

/-- The next step of the state runs the command `i`: its next event writes a word that spells `i` to CMD. -/
def State.RunsNext (s : State) (i : Instr) : Prop :=
  ∃ e rest w, s.input = e :: rest ∧ commandWord e = some w ∧ decode w = .ok i

/-- Apply a function to the next state of an outcome, if there is one. -/
def mapNext (f : State → State) : Out → Out
  | .next s => .next (f s)
  | .fault e => .fault e
  | .refused r => .refused r

/-! ### The invariant -/

/-- The invariant of one axis: Idle means pulse low and target at position (10_state R47, R48), PWM follows the pulse phase
(R49), the profile is ordered (43_config R163), an acceleration counter can still count (42_poll R145), and the time stamp
fits TW bits. -/
abbrev Motor.Inv (tw : TimeWidth) (m : Motor) : Prop :=
  (m.state = .idle → m.pulseState = false ∧ m.target = m.position) ∧
  m.pinPwm = m.pulseState ∧
  (m.speedValid = true → m.minStepDelay.toNat ≤ m.maxStepDelay.toNat) ∧
  (m.state = .accelerating → m.accelCount.toNat < 2 ^ 32 - 1) ∧
  tw.wrap m.lastStepTime = m.lastStepTime

/-- The invariant of the machine: every axis keeps its own, the millisecond remainder is in `0..999` (10_state R23), the
time fits TW bits (R21), the latch is absent with TW = 32 (20_memory R76), and the result code is one of the three
(60_exceptions R190). -/
abbrev State.Inv (s : State) : Prop :=
  (∀ a, (s.ax a).Inv s.params.timeWidth) ∧
  s.usFrac < 1000 ∧
  s.params.timeWidth.wrap s.timeUs = s.timeUs ∧
  (s.params.timeWidth = .w32 → s.timeHiLatch = 0) ∧
  (s.result.code = codeOk ∨ s.result.code = codeInvalidArg ∨ s.result.code = codeIllegal)

/-- A run is quiescent when every axis is Idle (70_reset R240). -/
abbrev State.Quiescent (s : State) : Prop := ∀ a, (s.ax a).state = .idle

/-! ### The trace and the latches -/

/-- The level of the last event of a role of an axis in a trace; 0 before the first, since reset leaves the latches 0 and
emits no event (70_reset R215). -/
def lastLevel (trace : List PinEvent) (a : Axis) (r : PinRole) : Level :=
  match (trace.filter fun e => e.axis = a ∧ e.role = r).getLast? with
  | some e => e.level
  | none => false

/-- Every latch holds the level of the last event of its pin (00_scope R10). -/
def State.LatchesFollowTrace (s : State) : Prop := ∀ a r, (s.ax a).pin r = lastLevel s.trace a r

/-- The pin events of one axis in a trace, in order. -/
def eventsOf (a : Axis) (trace : List PinEvent) : List (PinRole × Level) :=
  (trace.filter fun e => e.axis = a).map fun e => (e.role, e.level)

/-! ### Runs of phase edges -/

/-- `PollRun a n s t`: from `s`, axis `a` is serviced by POLL and POLLALL until exactly `n` phase edges of it have been made,
and `t` is reached. An edge is a service of the active axis that toggles its pulse phase (42_poll R137). In between anything
may happen that leaves the record of axis `a` and the parameters alone: TICKs, services that come too early, reads, commands
to other axes. -/
inductive PollRun (a : Axis) : Nat → State → State → Prop where
  | done (s : State) : PollRun a 0 s s
  | other {n : Nat} {s s' t : State} (record : s'.ax a = s.ax a) (params : s'.params = s.params)
      (rest : PollRun a n s' t) : PollRun a n s t
  | edge {n : Nat} {s s' t : State} {i : Instr} (service : i = .poll a ∨ i = .pollall) (active : (s.ax a).state ≠ .idle)
      (run : exec i s = .next s') (toggle : (s'.ax a).pulseState ≠ (s.ax a).pulseState)
      (rest : PollRun a n s' t) : PollRun a (n + 1) s t

/-! ### What cannot be observed -/

/-- A Motor record with its speed parameters blanked while they are unset (10_state R32). -/
def Motor.blankUnset (m : Motor) : Motor :=
  if m.speedValid then m else { m with minStepDelay := 0, maxStepDelay := 0, accelSteps := 0 }

/-- A state with the unset speed parameters of every axis blanked. -/
def State.blankUnset (s : State) : State :=
  { s with axes := ⟨s.axes.m0.blankUnset, s.axes.m1.blankUnset, s.axes.m2.blankUnset, s.axes.m3.blankUnset⟩ }

end Sys2Proof.Machine
end

