-- ==== Sys2Proof/Certificates/Slice0/Obligations.lean ====
section
/-! DEFINITION. The statements about STEPGEN for the provers, in the order of the spec's files. -/

open Sys2Proof Sys2Proof.Machine

/-! ### Encoding (30_encoding) -/

/-- R91, whole: the worked encodings, as what the assembler emits and as what the decoder makes of the words. -/
def Obligations.WorkedEncodingsAssembleAndDecode : Prop :=
  assemble (.move 1 3200 .ccw) = [.regWrite 0x05 0x00000C80, .regWrite 0x04 0x00001109] ∧
  assemble (.moveto 0 (-5)) = [.regWrite 0x05 0xFFFFFFFB, .regWrite 0x04 0x0000000A] ∧
  assemble (.stop 0 true) = [.regWrite 0x04 0x0000100C] ∧
  assemble (.stop 3 false) = [.regWrite 0x04 0x0000030C] ∧
  assemble (.setlim 2 false true) = [.regWrite 0x04 0x00002208] ∧
  assemble (.setspeed 0 2000 500 1000) =
    [.regWrite 0x05 0x000007D0, .regWrite 0x06 0x000001F4, .regWrite 0x07 0x000003E8, .regWrite 0x04 0x00000004] ∧
  assemble .pollall = [.regWrite 0x04 0x0000000E] ∧
  decode 0x00001109 = .ok (.move 1 .ccw) ∧
  decode 0x0000000A = .ok (.moveto 0) ∧
  decode 0x0000100C = .ok (.stop 0 true) ∧
  decode 0x0000030C = .ok (.stop 3 false) ∧
  decode 0x00002208 = .ok (.setlim 2 false true) ∧
  decode 0x00000004 = .ok (.setspeed 0) ∧
  decode 0x0000000E = .ok .pollall ∧
  decode 0x0000010E = .error (.maskMismatch 0x0E) ∧
  decode 0x00000000 = .error (.noSuchOpcode 0x00) ∧
  decode 0x0000200C = .error (.maskMismatch 0x0C)

/-- A word decodes to a command exactly when it is the encoding of that command: every command survives encoding with every
operand, and no bit of a legal word is dropped (R81, R83, R85). -/
def Obligations.DecodeAndEncodeAgree : Prop :=
  ∀ (w : Word) (i : Instr), decode w = .ok i ↔ w = encode i

/-- R86: which words are illegal, bit by bit, and that executing one writes the result (code 2, low 14 bits) and nothing
else. -/
def Obligations.IllegalWordsWriteOnlyTheResult : Prop :=
  ∀ w : Word,
    ((∃ e, decode w = .error e) ↔
      let op := (w.extractLsb' 0 8).toNat
      op = 0 ∨ 14 < op ∨ w.extractLsb' 10 2 ≠ 0 ∨ w.extractLsb' 14 18 ≠ 0 ∨
        (w.getLsbD 12 = true ∧ op ∉ [5, 6, 7, 8, 9, 12]) ∨ (w.getLsbD 13 = true ∧ op ≠ 8) ∨
        (op = 14 ∧ w.extractLsb' 8 2 ≠ 0)) ∧
    ∀ (s : State) (rest : List Event) (e : DecodeError), decode w = .error e →
      step { s with input := .regWrite 0x04 w :: rest } =
        .next { s with input := rest, result := ⟨2, w.setWidth 14⟩ }

/-- When the next host access writes a word that spells the command `i` to CMD, the step is `exec i`: through a register
write, through `Cmd` (which writes the arguments first), through a byte bus, and through `withFetchWord`.
The schedule and `withFetchWord` are the model's form (log entries 1 and 2), the byte order is presumed (log entry 14). -/
def Obligations.StepRunsTheWrittenCommand : Prop :=
  ∀ (w : Word) (i : Instr) (s : State) (rest : List Event), decode w = .ok i →
    step { s with input := .regWrite 0x04 w :: rest } = exec i { s with input := rest } ∧
    (∀ a0 a1 a2 : Word, step { s with input := .cmd w a0 a1 a2 :: rest } =
      exec i { s with input := rest, arg0 := a0, arg1 := a1, arg2 := a2 }) ∧
    step { s with input := .busWrite 0x10 [w.extractLsb' 0 8, w.extractLsb' 8 8, w.extractLsb' 16 8, w.extractLsb' 24 8]
      :: rest } = exec i { s with input := rest } ∧
    step (s.withFetchWord 32 w.toNat) = exec i s

/-- R64: `Cmd(word, a0, a1, a2)` answers what the four register writes answer one after the other; a legal command leaves
the argument registers as they were written. -/
def Obligations.CmdIsFourRegisterWrites : Prop :=
  ∀ (w a0 a1 a2 : Word) (s : State) (rest : List Event),
    step { s with input := .cmd w a0 a1 a2 :: rest } =
      Sys2Proof.core.run 4
        { s with input := .regWrite 0x05 a0 :: .regWrite 0x06 a1 :: .regWrite 0x07 a2 :: .regWrite 0x04 w :: rest } ∧
    ∀ t, step { s with input := .cmd w a0 a1 a2 :: rest } = .next t → t.arg0 = a0 ∧ t.arg1 = a1 ∧ t.arg2 = a2

/-! ### The time base (40_timebase) -/

/-- R100 and R101: a TICK adds TICK_US to the time modulo 2^TW, carries whole milliseconds out of the fraction as the loop
of R101 does, and touches nothing else. -/
def Obligations.TickAdvancesTheTimeBase : Prop :=
  ∀ (s : State) (rest : List Event), ∃ t, step { s with input := .tick :: rest } = .next t ∧
    t.timeUs.toNat = (s.timeUs.toNat + s.params.tickUs) % 2 ^ s.params.timeWidth.bits ∧
    (∀ k r, s.usFrac + s.params.tickUs = 1000 * k + r → r < 1000 →
      t.usFrac = r ∧ t.msTick.toNat = (s.msTick.toNat + k) % 2 ^ 32) ∧
    t = { s with input := rest, timeUs := t.timeUs, usFrac := t.usFrac, msTick := t.msTick }

/-- THE MODEL'S CHOICE (log entry 1), not a rule: with an empty schedule the step is the TICK that a schedule holding just
one TICK would give. -/
def Obligations.SilentHostLeavesTheStepToTheTick : Prop :=
  ∀ s : State, s.input = [] → step s = step { s with input := [.tick] }

/-- R101, R102: after `k` TICKs from reset, whatever the parameters, the time is `k * TICK_US` modulo 2^TW, the millisecond
tick is the whole milliseconds modulo 2^32 and the fraction is the rest. -/
def Obligations.TicksFromResetCountMicrosAndMillis : Prop :=
  ∀ (p : Params) (k : Nat),
    let t := ticks k { State.reset with params := p }
    t.timeUs.toNat = k * p.tickUs % 2 ^ p.timeWidth.bits ∧
    t.msTick.toNat = k * p.tickUs / 1000 % 2 ^ 32 ∧
    t.usFrac = k * p.tickUs % 1000

/-- R103, R104, R105: the elapsed time is the difference modulo 2^TW; `k` TICKs after a snapshot it is `k * TICK_US` modulo
2^TW, from every state; and the time itself is then the snapshot plus `k * TICK_US`, modulo 2^TW. -/
def Obligations.ElapsedCountsTicksAcrossWrap : Prop :=
  ∀ (s : State) (k : Nat),
    let m := 2 ^ s.params.timeWidth.bits
    (∀ t0 : Time, (elapsed s.params.timeWidth s.now t0 : Int) = ((s.now.toNat : Int) - t0.toNat) % (m : Int)) ∧
    elapsed s.params.timeWidth (ticks k s).now s.now = k * s.params.tickUs % m ∧
    (s.timeUs.toNat < m → (ticks k s).now.toNat = (s.now.toNat + k * s.params.tickUs) % m)

/-! ### Motion commands (41_motion) -/

/-- R115: MOVE with every outcome: zero distance halts, an unrepresentable target and unset parameters fault in that order,
and otherwise the move starts as listed. -/
def Obligations.MoveStartsHaltsOrFaults : Prop :=
  ∀ (a : Axis) (d : Direction) (s : State),
    let m := s.ax a
    let steps := s.arg0.toNat
    let target := m.position.toInt + sign d * steps
    (steps = 0 → exec (.move a d) s = .next (s.afterCommand (.move a d) a m.halted [(.pwm, false)] 0)) ∧
    (steps ≠ 0 → ¬ Representable target → exec (.move a d) s = .fault .targetOverflow) ∧
    (steps ≠ 0 → Representable target → m.speedValid = false → exec (.move a d) s = .fault .unsetParameter) ∧
    (steps ≠ 0 → Representable target → m.speedValid = true →
      exec (.move a d) s = .next (s.afterCommand (.move a d) a
        (m.started steps d (BitVec.ofInt 32 target) s.timeUs) (startEvents d) 0))

/-- R117: MOVETO acts as the equivalent MOVE; its target is the operand itself and can never overflow. -/
def Obligations.MovetoActsAsTheEquivalentMove : Prop :=
  ∀ (a : Axis) (s : State),
    let m := s.ax a
    let distance := s.arg0.toInt - m.position.toInt
    let d : Direction := if 0 < distance then .cw else .ccw
    (distance = 0 → exec (.moveto a) s = .next (s.afterCommand (.moveto a) a m.halted [(.pwm, false)] 0)) ∧
    (distance ≠ 0 → m.speedValid = false → exec (.moveto a) s = .fault .unsetParameter) ∧
    (distance ≠ 0 → m.speedValid = true →
      exec (.moveto a) s = .next (s.afterCommand (.moveto a) a
        (m.started distance.natAbs d s.arg0 s.timeUs) (startEvents d) 0))

/-- R120: RUNSPEED with every outcome: a zero speed halts; a run already at its sentinel drives DIR and halts; otherwise the
run starts with the speed's own delay. -/
def Obligations.RunspeedStartsAContinuousRun : Prop :=
  ∀ (a : Axis) (s : State),
    let m := s.ax a
    let v := s.arg0.toInt
    (v = 0 → exec (.runspeed a) s = .next (s.afterCommand (.runspeed a) a m.halted [(.pwm, false)] 0)) ∧
    (v ≠ 0 →
      let d : Direction := if 0 < v then .cw else .ccw
      let sentinel : Word := if 0 < v then 0x7FFFFFFF else 0x80000000
      let turned := { m with direction := d, pinDir := dirLevel d }
      (m.position = sentinel → exec (.runspeed a) s =
        .next (s.afterCommand (.runspeed a) a turned.halted [(.dir, dirLevel d), (.pwm, false)] 0)) ∧
      (m.position ≠ sentinel → exec (.runspeed a) s =
        .next (s.afterCommand (.runspeed a) a
          { turned with stepDelay := BitVec.ofNat 32 (1000000 / v.natAbs), target := sentinel, state := .running }
          [(.dir, dirLevel d)] 0)))

/-- R123: an immediate stop halts in every state. -/
def Obligations.ImmediateStopHalts : Prop :=
  ∀ (a : Axis) (s : State),
    exec (.stop a true) s = .next (s.afterCommand (.stop a true) a (s.ax a).halted [(.pwm, false)] 0)

/-- R124: a soft stop with every outcome. -/
def Obligations.SoftStopRunsOutTheRamp : Prop :=
  ∀ (a : Axis) (s : State),
    let m := s.ax a
    let target := m.position.toInt + sign m.direction * m.accelSteps.toNat
    (m.state = .idle → exec (.stop a false) s = .next (s.afterCommand (.stop a false) a m [] 0)) ∧
    (m.state ≠ .idle → m.speedValid = false → exec (.stop a false) s = .fault .unsetParameter) ∧
    (m.state ≠ .idle → m.speedValid = true → m.accelSteps = 0 →
      exec (.stop a false) s = .next (s.afterCommand (.stop a false) a m.halted [(.pwm, false)] 0)) ∧
    (m.state ≠ .idle → m.speedValid = true → m.accelSteps ≠ 0 → ¬ Representable target →
      exec (.stop a false) s = .fault .targetOverflow) ∧
    (m.state ≠ .idle → m.speedValid = true → m.accelSteps ≠ 0 → Representable target →
      exec (.stop a false) s = .next (s.afterCommand (.stop a false) a
        { m with target := BitVec.ofInt 32 target, state := .decelerating } [] 0))

/-- R111: every command or POLL step that reads a speed parameter while `speed_valid = 0` is the fault UnsetParameter; so is
a POLLALL that services the axis. -/
def Obligations.UnsetSpeedParametersFault : Prop :=
  ∀ (a : Axis) (s : State), (s.ax a).speedValid = false →
    (∀ d, s.arg0 ≠ 0 → Representable ((s.ax a).position.toInt + sign d * s.arg0.toNat) →
      exec (.move a d) s = .fault .unsetParameter) ∧
    (s.arg0 ≠ (s.ax a).position → exec (.moveto a) s = .fault .unsetParameter) ∧
    ((s.ax a).state ≠ .idle → exec (.stop a false) s = .fault .unsetParameter) ∧
    (s.StepCompletes a → exec (.poll a) s = .fault .unsetParameter) ∧
    (s.StepCompletes a → (∀ b, s.isRegistered b = decide (b = a)) → exec .pollall s = .fault .unsetParameter)

/-- R126: the motion commands do the same whatever the limit detector of their axis holds. -/
def Obligations.LimitFlagsDoNotGateMotionCommands : Prop :=
  ∀ (a : Axis) (i : Instr) (en cw ccw : Bool) (s : State),
    ((∃ d, i = .move a d) ∨ i = .moveto a ∨ i = .runspeed a ∨ ∃ f, i = .stop a f) →
    let hold (m : Motor) : Motor := { m with limitEnabled := en, cwLimit := cw, ccwLimit := ccw }
    exec i (s.setAx a (hold (s.ax a))) = mapNext (fun t => t.setAx a (hold (t.ax a))) (exec i s)

/-- R127: every command but POLLALL (and ADD and REMOVE, which write it) does the same whatever is registered. -/
def Obligations.RegistrationDoesNotGateCommands : Prop :=
  ∀ (i : Instr) (r : BitVec 4) (s : State),
    i ≠ .pollall → (∀ a, i ≠ .add a) → (∀ a, i ≠ .remove a) →
    exec i { s with registered := r } = mapNext (fun t => { t with registered := r }) (exec i s)

/-- R128, whole: the lifecycle state every command leaves its axis in, when it answers a next state; `N = accel_steps` and
the distance is measured before the command. -/
def Obligations.CommandsFollowTheTransitionTable : Prop :=
  ∀ (a : Axis) (s t : State),
    let m := s.ax a
    let after := (t.ax a).state
    let n := m.accelSteps.toNat
    let startState (distance : Nat) : Lifecycle :=
      if distance = 0 then .idle else if 2 * n < distance then .accelerating else .running
    (∀ d, exec (.move a d) s = .next t → after = startState s.arg0.toNat) ∧
    (exec (.moveto a) s = .next t → after = startState (s.arg0.toInt - m.position.toInt).natAbs) ∧
    (exec (.runspeed a) s = .next t →
      after = if s.arg0 = 0 ∨ (0 < s.arg0.toInt ∧ m.position = 0x7FFFFFFF) ∨ (s.arg0.toInt < 0 ∧ m.position = 0x80000000)
        then .idle else .running) ∧
    (exec (.stop a true) s = .next t → after = .idle) ∧
    (exec (.stop a false) s = .next t →
      after = if m.state = .idle ∨ n = 0 then .idle else .decelerating) ∧
    (∀ i, ((i = .setspeed a) ∨ (∃ d, i = .setdir a d) ∨ (∃ on, i = .enable a on) ∨ (∃ x y, i = .setlim a x y) ∨
        (∃ on, i = .limen a on) ∨ i = .add a ∨ i = .remove a) → exec i s = .next t → after = m.state) ∧
    (exec (.init a) s = .next t → after = .idle)

/-! ### POLL (42_poll) -/

/-- R131: the POLL of an Idle axis writes the result and nothing else. -/
def Obligations.PollOfAnIdleAxisDoesNothing : Prop :=
  ∀ (a : Axis) (s : State), (s.ax a).state = .idle →
    exec (.poll a) s = .next { s with result := ⟨0, (encode (.poll a)).setWidth 14⟩ }

/-- R133: an active axis whose enabled limit flag of the current direction is set halts, before any time test and whatever
the pulse phase; the CCW flag also zeroes both positions. -/
def Obligations.PollAtALimitHaltsAndHomes : Prop :=
  ∀ (a : Axis) (s : State), (s.ax a).state ≠ .idle → (s.ax a).AtLimit →
    exec (.poll a) s = .next (s.afterCommand (.poll a) a
      (if (s.ax a).direction = .ccw then { (s.ax a).halted with position := 0, target := 0 } else (s.ax a).halted)
      [(.pwm, false)] 0)

/-- R135, R136, R137: before half the step period has elapsed, the POLL of an active axis writes the result and nothing
else; from then on it makes exactly one phase edge, which toggles the phase and takes the snapshot. -/
def Obligations.PollMakesOneEdgeExactlyWhenDue : Prop :=
  ∀ (a : Axis) (s : State), (s.ax a).state ≠ .idle → ¬ (s.ax a).AtLimit →
    (s.sinceEdge a < (s.ax a).stepDelay.toNat / 2 →
      exec (.poll a) s = .next { s with result := ⟨0, (encode (.poll a)).setWidth 14⟩ }) ∧
    ((s.ax a).stepDelay.toNat / 2 ≤ s.sinceEdge a → ∀ t, exec (.poll a) s = .next t →
      (t.ax a).pulseState = !(s.ax a).pulseState ∧ (t.ax a).lastStepTime = s.timeUs ∧
      t.trace = s.trace ++ [⟨a, .pwm, !(s.ax a).pulseState⟩])

/-- R138 with R136 and R137: a due edge with the pulse low raises PWM, toggles the phase and takes the snapshot, and
touches nothing else. -/
def Obligations.PollRaisesThePulse : Prop :=
  ∀ (a : Axis) (s : State), s.EdgeAt a → (s.ax a).pulseState = false →
    exec (.poll a) s = .next (s.afterCommand (.poll a) a
      { s.ax a with lastStepTime := s.timeUs, pulseState := true, pinPwm := true } [(.pwm, true)] 0)

/-- R141 and R142: a due edge with the pulse high lowers PWM and counts the step; at the target the axis becomes Idle with
its delay and ramp counter as they were. -/
def Obligations.PollReachesTheTarget : Prop :=
  ∀ (a : Axis) (s : State), s.EdgeAt a → (s.ax a).pulseState = true → (s.ax a).landing = (s.ax a).target.toInt →
    exec (.poll a) s = .next (s.afterCommand (.poll a) a
      { (s.ax a).stepped s.timeUs with state := .idle } [(.pwm, false)] 0)

/-- R145: the completed step of an Accelerating axis, under the arithmetic premise of R149 and its sharper form in 93 U5 (the
product at the new count fits 32 bits too). -/
def Obligations.PollStepsWhileAccelerating : Prop :=
  ∀ (a : Axis) (s : State), s.StepCompletes a → (s.ax a).speedValid = true → (s.ax a).state = .accelerating →
    (s.ax a).accelCount.toNat < 2 ^ 32 - 1 →
    (s.ax a).RampInDomain →
    let m := s.ax a
    let count := m.accelCount.toNat + 1
    let dmin := m.minStepDelay.toNat
    let dmax := m.maxStepDelay.toNat
    let n := m.accelSteps.toNat
    exec (.poll a) s = .next (s.afterCommand (.poll a) a
      { m.stepped s.timeUs with
        accelCount := BitVec.ofNat 32 count
        stepDelay := BitVec.ofNat 32
          (if n = 0 then dmin else max dmin (dmax - (dmax - dmin) * count / n))
        state :=
          if m.distanceLeft ≤ n then .decelerating else if n ≤ count then .running else .accelerating }
      [(.pwm, false)] 0)

/-- R146: the completed step of a Running axis, for either value of RUNSPEED_HOLD. -/
def Obligations.PollStepsWhileRunning : Prop :=
  ∀ (a : Axis) (s : State), s.StepCompletes a → (s.ax a).speedValid = true → (s.ax a).state = .running →
    let m := s.ax a
    exec (.poll a) s = .next (s.afterCommand (.poll a) a
      { m.stepped s.timeUs with
        stepDelay :=
          if s.params.runspeedHold = true ∧ (m.target = 0x7FFFFFFF ∨ m.target = 0x80000000) then m.stepDelay
          else m.minStepDelay
        state := if m.distanceLeft ≤ m.accelSteps.toNat then .decelerating else .running }
      [(.pwm, false)] 0)

/-- R147: the completed step of a Decelerating axis, under the arithmetic premise of R149. -/
def Obligations.PollStepsWhileDecelerating : Prop :=
  ∀ (a : Axis) (s : State), s.StepCompletes a → (s.ax a).speedValid = true → (s.ax a).state = .decelerating →
    ((s.ax a).maxStepDelay.toNat - (s.ax a).minStepDelay.toNat) * (s.ax a).accelSteps.toNat < 2 ^ 32 →
    let m := s.ax a
    let dmin := m.minStepDelay.toNat
    let dmax := m.maxStepDelay.toNat
    let n := m.accelSteps.toNat
    exec (.poll a) s = .next (s.afterCommand (.poll a) a
      { m.stepped s.timeUs with
        stepDelay := BitVec.ofNat 32
          (if n = 0 then dmin else min dmax (dmin + (dmax - dmin) * (n - m.distanceLeft) / n)) } [(.pwm, false)] 0)

/-- R149 with the ruling of 93 U5 (log entry 8): a completed step that calls a ramp function is the fault ArithmeticDomain
when `(dmax - dmin) * N` does not fit 32 bits, and on an Accelerating axis also when the product at the new count does not
(with `N = 0` there is none). -/
def Obligations.RampStepsOutsideThePremiseFault : Prop :=
  ∀ (a : Axis) (s : State), s.StepCompletes a → (s.ax a).speedValid = true →
    let m := s.ax a
    let span := m.maxStepDelay.toNat - m.minStepDelay.toNat
    let n := m.accelSteps.toNat
    (m.state = .accelerating ∨ m.state = .decelerating → 2 ^ 32 ≤ span * n → exec (.poll a) s = .fault .arithmeticDomain) ∧
    (m.state = .accelerating → n ≠ 0 → m.accelCount.toNat < 2 ^ 32 - 1 → 2 ^ 32 ≤ span * (m.accelCount.toNat + 1) →
      exec (.poll a) s = .fault .arithmeticDomain)

/-- R153: a falling edge that would leave the counter's range is the fault PositionOverflow. -/
def Obligations.PositionOverflowFaults : Prop :=
  ∀ (a : Axis) (s : State), s.EdgeAt a → (s.ax a).pulseState = true → ¬ Representable (s.ax a).landing →
    exec (.poll a) s = .fault .positionOverflow

/-- R144: the values of the acceleration ramp, and that it does not rise. -/
def Obligations.AccelerationRampFallsFromMaxToMin : Prop :=
  ∀ p : Profile, p.dmin ≤ p.dmax →
    (p.n = 0 → ∀ k, accelDelay p k = p.dmin) ∧
    (p.n ≠ 0 →
      (∀ k, (accelDelay p k : Int) = max (p.dmin : Int) (p.dmax - ((p.dmax - p.dmin) * k : Int) / p.n)) ∧
      accelDelay p 0 = p.dmax ∧ accelDelay p p.n = p.dmin ∧ (∀ k, p.n ≤ k → accelDelay p k = p.dmin) ∧
      ∀ k, accelDelay p (k + 1) ≤ accelDelay p k)

/-- R147: the values of the deceleration ramp, that it does not fall as the remaining distance does, and that its clamp
never acts at a completed step. -/
def Obligations.DecelerationRampRisesAsTheDistanceShrinks : Prop :=
  ∀ p : Profile, p.dmin ≤ p.dmax →
    (p.n = 0 → ∀ rem, decelDelay p rem = p.dmin) ∧
    (p.n ≠ 0 →
      (∀ rem, p.n ≤ rem → decelDelay p rem = p.dmin) ∧
      (∀ rem, 1 ≤ rem → decelDelay p rem = p.dmin + (p.dmax - p.dmin) * (p.n - rem) / p.n) ∧
      (∀ rem, decelDelay p (rem + 1) ≤ decelDelay p rem) ∧
      ∀ rem, p.dmin ≤ decelDelay p rem ∧ decelDelay p rem ≤ p.dmax)

/-- R148: what a per-step rule stores into `step_delay` lies between `dmin` and `dmax`, but for a held RUNSPEED delay. -/
def Obligations.StepDelayStaysInTheProfile : Prop :=
  ∀ (a : Axis) (s t : State), s.Inv → s.StepCompletes a →
    ¬ ((s.ax a).state = .running ∧ s.params.runspeedHold = true ∧
        ((s.ax a).target = 0x7FFFFFFF ∨ (s.ax a).target = 0x80000000)) →
    exec (.poll a) s = .next t →
    (s.ax a).minStepDelay.toNat ≤ (t.ax a).stepDelay.toNat ∧ (t.ax a).stepDelay.toNat ≤ (s.ax a).maxStepDelay.toNat

/-- R151: no POLL or POLLALL leads from Decelerating to Running or Accelerating, from Running to Accelerating, or out of
Idle. -/
def Obligations.PollsNeverReturnToAnEarlierPhase : Prop :=
  ∀ (a b : Axis) (i : Instr) (s t : State), (i = .poll b ∨ i = .pollall) → exec i s = .next t →
    ((s.ax a).state = .idle → (t.ax a).state = .idle) ∧
    ((s.ax a).state = .decelerating → (t.ax a).state = .decelerating ∨ (t.ax a).state = .idle) ∧
    ((s.ax a).state = .running →
      (t.ax a).state = .running ∨ (t.ax a).state = .decelerating ∨ (t.ax a).state = .idle)

/-- R140: POLL and POLLALL emit no DIR or EN event and leave the direction and the DIR and EN latches alone. -/
def Obligations.PollsDriveOnlyPwm : Prop :=
  ∀ (a b : Axis) (i : Instr) (s t : State), (i = .poll b ∨ i = .pollall) → exec i s = .next t →
    (t.ax a).direction = (s.ax a).direction ∧ (t.ax a).pinDir = (s.ax a).pinDir ∧ (t.ax a).pinEn = (s.ax a).pinEn ∧
    ∃ evs, t.trace = s.trace ++ evs ∧ ∀ e ∈ evs, e.role = .pwm

/-! ### Configuration (43_config) -/

/-- R160, R161, R162: SETSPEED with every outcome: rejected as a whole, outside the arithmetic domain, or the three
parameters written. -/
def Obligations.SetspeedWritesTheProfileOrRejects : Prop :=
  ∀ (a : Axis) (s : State),
    let maxSpeed := s.arg0.toNat
    let startSpeed := s.arg1.toNat
    let accel := s.arg2.toNat
    let bad := maxSpeed = 0 ∨ startSpeed = 0 ∨ maxSpeed < startSpeed
    let n := if accel = 0 then 0 else max 1 ((maxSpeed - startSpeed) * (maxSpeed - startSpeed) / (2 * accel))
    (bad → exec (.setspeed a) s = .next { s with result := ⟨1, (encode (.setspeed a)).setWidth 14⟩ }) ∧
    (¬ bad → 2 ^ 32 - 1 < n → exec (.setspeed a) s = .fault .arithmeticDomain) ∧
    (¬ bad → n ≤ 2 ^ 32 - 1 → exec (.setspeed a) s = .next (s.afterCommand (.setspeed a) a
      { s.ax a with
        minStepDelay := BitVec.ofNat 32 (1000000 / maxSpeed)
        maxStepDelay := BitVec.ofNat 32 (1000000 / startSpeed)
        accelSteps := BitVec.ofNat 32 n
        speedValid := true } [] 0))

/-- R163: after an accepted SETSPEED the delays are ordered, and the profile has a step whenever there is an
acceleration. -/
def Obligations.AcceptedSetspeedOrdersTheProfile : Prop :=
  ∀ (a : Axis) (s t : State), exec (.setspeed a) s = .next t → t.result.code = 0 →
    (t.ax a).speedValid = true ∧ (t.ax a).minStepDelay.toNat ≤ (t.ax a).maxStepDelay.toNat ∧
    (0 < s.arg2.toNat → 1 ≤ (t.ax a).accelSteps.toNat)

/-- R166 and R167: SETDIR writes the direction and drives DIR; ENABLE drives EN; nothing else changes. -/
def Obligations.SetdirAndEnableDriveTheirPins : Prop :=
  ∀ (a : Axis) (d : Direction) (on : Bool) (s : State),
    exec (.setdir a d) s = .next (s.afterCommand (.setdir a d) a
      { s.ax a with direction := d, pinDir := dirLevel d } [(.dir, dirLevel d)] 0) ∧
    exec (.enable a on) s = .next (s.afterCommand (.enable a on) a { s.ax a with pinEn := on } [(.en, on)] 0)

/-- R169 and R170: SETLIM writes both limit flags and LIMEN the enable; nothing else changes and no pin is driven. -/
def Obligations.SetlimAndLimenWriteTheirFlags : Prop :=
  ∀ (a : Axis) (cw ccw on : Bool) (s : State),
    exec (.setlim a cw ccw) s = .next (s.afterCommand (.setlim a cw ccw) a
      { s.ax a with cwLimit := cw, ccwLimit := ccw } [] 0) ∧
    exec (.limen a on) s = .next (s.afterCommand (.limen a on) a { s.ax a with limitEnabled := on } [] 0)

/-- R171: INIT returns one axis to its reset values and drives PWM low. It leaves the DIR and EN latches; what the three
speed parameters hold afterwards the rule does not say. -/
def Obligations.InitReturnsTheAxisToReset : Prop :=
  ∀ (a : Axis) (s : State), ∃ dmin dmax n : Word,
    exec (.init a) s = .next (s.afterCommand (.init a) a
      { Motor.reset with
        minStepDelay := dmin
        maxStepDelay := dmax
        accelSteps := n
        pinDir := (s.ax a).pinDir
        pinEn := (s.ax a).pinEn } [(.pwm, false)] 0)

/-! ### The registry (44_registry) -/

/-- R180 and R181: ADD and REMOVE write the one bit of the registry and the result, and nothing else. -/
def Obligations.AddAndRemoveWriteOneRegistryBit : Prop :=
  ∀ (a : Axis) (s : State),
    (∃ t, exec (.add a) s = .next t ∧ (∀ b, t.isRegistered b = (decide (b = a) || s.isRegistered b)) ∧
      t = { s with registered := t.registered, result := ⟨0, (encode (.add a)).setWidth 14⟩ }) ∧
    (∃ t, exec (.remove a) s = .next t ∧ (∀ b, t.isRegistered b = (!decide (b = a) && s.isRegistered b)) ∧
      t = { s with registered := t.registered, result := ⟨0, (encode (.remove a)).setWidth 14⟩ })

/-- R183 (with R184, R186): when no registered axis can fault (a ramp step needs its arithmetic domain,
log entry 8), POLLALL completes; each registered axis ends as ONE POLL of
it at some time reached by whole TICKs would leave it, with exactly that POLL's pin events; unregistered axes are untouched;
with no TICK in the gaps every axis sees the same time. When the POLL of some registered axis faults at every time, POLLALL
answers no state. Stated for every order of service, which is a free value (log entry 10); the TICKs in the gaps are an input of
the model (log entry 11). -/
def Obligations.PollallServicesEachRegisteredAxisOnce : Prop :=
  ∀ s : State,
    ((∀ a, s.isRegistered a = true → (s.ax a).PollSafe) →
      ∃ (t : State) (time : Axis → Time),
        exec .pollall s = .next t ∧
        (∀ a, s.isRegistered a = true → ∃ u, exec (.poll a) { s with timeUs := time a } = .next u ∧
          t.ax a = u.ax a ∧ eventsOf a t.trace = eventsOf a u.trace) ∧
        (∀ a, s.isRegistered a = false → t.ax a = s.ax a ∧ eventsOf a t.trace = eventsOf a s.trace) ∧
        (∀ a, ∃ k, time a = (ticks k s).timeUs) ∧
        (s.gapTicks = [] → (∀ a, time a = s.timeUs) ∧ t.timeUs = s.timeUs ∧ t.msTick = s.msTick ∧ t.usFrac = s.usFrac) ∧
        (∃ k, t.timeUs = (ticks k s).timeUs ∧ t.msTick = (ticks k s).msTick ∧ t.usFrac = (ticks k s).usFrac) ∧
        t.result = ⟨0, 0x000E⟩ ∧ t.registered = s.registered ∧ t.arg0 = s.arg0 ∧ t.arg1 = s.arg1 ∧ t.arg2 = s.arg2 ∧
        t.timeHiLatch = s.timeHiLatch ∧ t.params = s.params ∧ t.reads = s.reads ∧ t.input = s.input) ∧
    ∀ a, s.isRegistered a = true → (∀ now u, exec (.poll a) { s with timeUs := now } ≠ .next u) →
      ∀ t, exec .pollall s ≠ .next t

/-! ### The register space (20_memory) -/

/-- R61: what a read of each address of the map returns. -/
def Obligations.RegisterMapContents : Prop :=
  ∀ (s : State) (a : Axis),
    let m := s.ax a
    let base := 0x10 + 0x10 * a.val
    let is32 := s.params.timeWidth = .w32
    s.Returns 0x00 (s.timeUs.extractLsb' 0 32) ∧
    s.Returns 0x01 (if is32 then 0 else s.timeHiLatch) ∧
    s.Returns 0x02 s.msTick ∧
    (∃ v, s.Returns 0x03 v ∧ (∀ b : Axis, v.getLsbD b.val = s.isRegistered b) ∧ v.extractLsb' 4 28 = 0) ∧
    s.Returns 0x04 0 ∧
    s.Returns 0x05 s.arg0 ∧ s.Returns 0x06 s.arg1 ∧ s.Returns 0x07 s.arg2 ∧
    (∃ v, s.Returns 0x08 v ∧ v.extractLsb' 0 8 = s.result.code ∧ v.extractLsb' 8 8 = 0 ∧
      v.extractLsb' 16 14 = s.result.cmd ∧ v.extractLsb' 30 2 = 0) ∧
    (∃ v, s.Returns base v ∧
      v.extractLsb' 0 2 =
        (match m.state with | .idle => 0 | .running => 1 | .accelerating => 2 | .decelerating => 3) ∧
      v.getLsbD 2 = decide (m.direction = .ccw) ∧ v.getLsbD 3 = m.pulseState ∧ v.getLsbD 4 = m.limitEnabled ∧
      v.getLsbD 5 = m.cwLimit ∧ v.getLsbD 6 = m.ccwLimit ∧ v.getLsbD 7 = s.isRegistered a ∧ v.getLsbD 8 = m.pinPwm ∧
      v.getLsbD 9 = m.pinDir ∧ v.getLsbD 10 = m.pinEn ∧ v.getLsbD 11 = m.speedValid ∧ v.extractLsb' 12 20 = 0) ∧
    s.Returns (base + 0x1) m.position ∧
    s.Returns (base + 0x2) m.target ∧
    s.Returns (base + 0x3) m.stepDelay ∧
    (m.speedValid = true → s.Returns (base + 0x4) m.minStepDelay ∧ s.Returns (base + 0x5) m.maxStepDelay ∧
      s.Returns (base + 0x6) m.accelSteps) ∧
    s.Returns (base + 0x7) m.accelCount ∧
    s.Returns (base + 0x8) (m.lastStepTime.extractLsb' 0 32) ∧
    s.Returns (base + 0x9) (if is32 then 0 else m.lastStepTime.extractLsb' 32 32) ∧
    ∀ addr, (0x09 ≤ addr ∧ addr ≤ 0x0F) ∨ (base + 0xA ≤ addr ∧ addr ≤ base + 0xF) ∨ 0x50 ≤ addr → s.Returns addr 0

/-- R62: a read answers a value and changes no state of STEPGEN, but for the latch that a read of TIME_US loads with
TW = 64. An unset speed parameter reads as the free value of the draw; this holds whatever that value is.
The read log, the schedule and the draw counter are the model's own fields (log entries 1, 9, 12). -/
def Obligations.ReadsChangeNothingButTheLatch : Prop :=
  ∀ (s : State) (addr : Nat) (rest : List Event),
    (∃ v, step { s with input := .regRead addr :: rest } = .next
      { s with
        input := rest
        timeHiLatch := if addr = 0 ∧ s.params.timeWidth = .w64 then s.timeUs.extractLsb' 32 32 else s.timeHiLatch
        reads := s.reads ++ [.register addr v]
        draws := s.draws + 1 }) ∧
    ∀ a : Axis, (s.ax a).speedValid = false → addr ∈ [0x14 + 0x10 * a.val, 0x15 + 0x10 * a.val, 0x16 + 0x10 * a.val] →
      s.Returns addr (Config.unsetRead s.draws)

/-- R63: a write of an argument register writes it, a write of CMD executes the command, and a write of any other address is
ignored. -/
def Obligations.WritesReachTheArgumentRegistersAndTheCommandPort : Prop :=
  ∀ (s : State) (v : Word) (rest : List Event),
    step { s with input := .regWrite 0x05 v :: rest } = .next { s with input := rest, arg0 := v } ∧
    step { s with input := .regWrite 0x06 v :: rest } = .next { s with input := rest, arg1 := v } ∧
    step { s with input := .regWrite 0x07 v :: rest } = .next { s with input := rest, arg2 := v } ∧
    (∀ i, decode v = .ok i → step { s with input := .regWrite 0x04 v :: rest } = exec i { s with input := rest }) ∧
    (∀ e, decode v = .error e → step { s with input := .regWrite 0x04 v :: rest } =
      .next { s with input := rest, result := ⟨2, v.setWidth 14⟩ }) ∧
    ∀ addr, addr ∉ [0x04, 0x05, 0x06, 0x07] →
      step { s with input := .regWrite addr v :: rest } = .next { s with input := rest }

/-- R76: with TW = 64 a read of TIME_US and then, any number of TICKs later, a read of TIME_US_HI give the two halves of one
time; with TW = 32 TIME_US_HI reads 0; the latch resets to 0. -/
def Obligations.TimeReadsThroughTheLatchAreConsistent : Prop :=
  State.reset.timeHiLatch = 0 ∧
  ∀ (s t : State) (rest : List Event) (k : Nat),
    (s.params.timeWidth = .w32 → s.Returns 0x01 0) ∧
    (s.params.timeWidth = .w64 → step { s with input := .regRead 0x00 :: rest } = .next t →
      ∃ lo hi, t.reads = s.reads ++ [.register 0x00 lo] ∧ (ticks k t).Returns 0x01 hi ∧ hi ++ lo = s.timeUs)

/-- R65 and R66: on a byte bus register `n` stands at byte address `4 * n`, least significant byte first; any access that is
not one aligned 32-bit word is refused. The byte order is presumed (log entry 14). -/
def Obligations.ByteBusIsLittleEndianAndWordOnly : Prop :=
  ∀ (s : State) (rest : List Event),
    (∀ n (b0 b1 b2 b3 : Byte), step { s with input := .busWrite (4 * n) [b0, b1, b2, b3] :: rest } =
      step { s with input := .regWrite n (b3 ++ b2 ++ b1 ++ b0) :: rest }) ∧
    (∀ n v, s.Returns n v → ∃ t, step { s with input := .busRead (4 * n) 4 :: rest } = .next t ∧
      t.reads = s.reads ++
        [.bytes (4 * n) [v.extractLsb' 0 8, v.extractLsb' 8 8, v.extractLsb' 16 8, v.extractLsb' 24 8]]) ∧
    (∀ byteAddr bytes, ¬ (byteAddr % 4 = 0 ∧ bytes.length = 4) →
      step { s with input := .busWrite byteAddr bytes :: rest } = .refused .unalignedBusAccess) ∧
    ∀ byteAddr count, ¬ (byteAddr % 4 = 0 ∧ count = 4) →
      step { s with input := .busRead byteAddr count :: rest } = .refused .unalignedBusAccess

/-! ### Reset and the whole machine -/

/-- R51 and R215: the reset value of every field the spec gives one. -/
def Obligations.ResetHoldsTheSpecifiedValues : Prop :=
  let s := State.reset
  s.timeUs = 0 ∧ s.msTick = 0 ∧ s.usFrac = 0 ∧ s.registered = 0 ∧ s.arg0 = 0 ∧ s.arg1 = 0 ∧ s.arg2 = 0 ∧
  s.result.code = 0 ∧ s.result.cmd = 0 ∧ s.trace = [] ∧
  ∀ a, let m := s.ax a
    m.position = 0 ∧ m.target = 0 ∧ m.direction = .cw ∧ m.stepDelay = 0 ∧ m.speedValid = false ∧ m.accelCount = 0 ∧
    m.pulseState = false ∧ m.lastStepTime = 0 ∧ m.limitEnabled = false ∧ m.cwLimit = false ∧ m.ccwLimit = false ∧
    m.state = .idle ∧ m.pinPwm = false ∧ m.pinDir = false ∧ m.pinEn = false

/-- The invariant (R23, R47, R48, R49, R163) holds at reset, whatever the parameters. -/
def Obligations.ResetSatisfiesTheInvariant : Prop :=
  ∀ p : Params, { State.reset with params := p }.Inv

/-- Every step keeps the invariant (R21, R23, R47, R48, R49, R163, R76, R190), from every state that has it, and no step
changes the parameters. -/
def Obligations.EveryStepKeepsTheInvariant : Prop :=
  ∀ s t : State, s.Inv → step s = .next t → t.Inv ∧ t.params = s.params

/-- R45: in any step the position of an axis stays, unless the step runs POLL of that axis or POLLALL and the axis makes a
falling edge (it changes by exactly one in the current direction) or stops at its CCW limit (it becomes 0), or the step runs
INIT of that axis (it becomes 0). -/
def Obligations.PositionMovesByOneOrToZero : Prop :=
  ∀ (s t : State) (a : Axis), step s = .next t →
    (t.ax a).position = (s.ax a).position ∨
    ∃ i, s.RunsNext i ∧
      (((i = .poll a ∨ i = .pollall) ∧ (s.ax a).state ≠ .idle ∧ ¬ (s.ax a).AtLimit ∧
          (s.ax a).pulseState = true ∧ (t.ax a).pulseState = false ∧
          (t.ax a).position.toInt = (s.ax a).position.toInt + sign (s.ax a).direction) ∨
       ((i = .poll a ∨ i = .pollall) ∧ (s.ax a).state ≠ .idle ∧ (s.ax a).AtLimit ∧ (s.ax a).direction = .ccw ∧
          (t.ax a).position = 0 ∧ (t.ax a).state = .idle) ∨
       (i = .init a ∧ (t.ax a).position = 0))

/-- R10: every pin latch holds the level of the last event of its pin: it does so at reset, and every step keeps it so. -/
def Obligations.LatchesFollowTheTrace : Prop :=
  State.reset.LatchesFollowTrace ∧ ∀ s t : State, s.LatchesFollowTrace → step s = .next t → t.LatchesFollowTrace

/-- R44: which commands can change which field; every other command leaves it. -/
def Obligations.CommandsWriteOnlyTheirFields : Prop :=
  ∀ (i : Instr) (s t : State) (a : Axis), exec i s = .next t →
    let m := s.ax a
    let m' := t.ax a
    let polls := i = .poll a ∨ i = .pollall
    let moves := (∃ d, i = .move a d) ∨ i = .moveto a
    let runs := i = .runspeed a
    let stops := ∃ f, i = .stop a f
    let inits := i = .init a
    (t.arg0 = s.arg0 ∧ t.arg1 = s.arg1 ∧ t.arg2 = s.arg2) ∧
    (t.registered = s.registered ∨ ∃ b, i = .add b ∨ i = .remove b) ∧
    (m'.position = m.position ∨ polls ∨ inits) ∧
    (m'.target = m.target ∨ polls ∨ moves ∨ runs ∨ stops ∨ inits) ∧
    (m'.direction = m.direction ∨ moves ∨ runs ∨ (∃ d, i = .setdir a d) ∨ inits) ∧
    (m'.stepDelay = m.stepDelay ∨ polls ∨ moves ∨ runs ∨ inits) ∧
    ((m'.minStepDelay = m.minStepDelay ∧ m'.maxStepDelay = m.maxStepDelay ∧ m'.accelSteps = m.accelSteps) ∨
      i = .setspeed a ∨ inits) ∧
    (m'.speedValid = m.speedValid ∨ i = .setspeed a ∨ inits) ∧
    (m'.accelCount = m.accelCount ∨ polls ∨ moves ∨ inits) ∧
    (m'.pulseState = m.pulseState ∨ polls ∨ moves ∨ runs ∨ stops ∨ inits) ∧
    (m'.lastStepTime = m.lastStepTime ∨ polls ∨ moves ∨ inits) ∧
    (m'.limitEnabled = m.limitEnabled ∨ (∃ on, i = .limen a on) ∨ inits) ∧
    ((m'.cwLimit = m.cwLimit ∧ m'.ccwLimit = m.ccwLimit) ∨ (∃ x y, i = .setlim a x y) ∨ inits) ∧
    (m'.state = m.state ∨ polls ∨ moves ∨ runs ∨ stops ∨ inits) ∧
    (m'.pinPwm = m.pinPwm ∨ polls ∨ moves ∨ runs ∨ stops ∨ inits) ∧
    (m'.pinDir = m.pinDir ∨ moves ∨ runs ∨ ∃ d, i = .setdir a d) ∧
    (m'.pinEn = m.pinEn ∨ moves ∨ ∃ on, i = .enable a on)

/-- R6, R25, R44, R71: a command other than POLLALL leaves every other axis, its pin events, the time base, the arguments and
all that lies outside the axis, the registry and the result as they were. -/
def Obligations.CommandsTouchOnlyTheirAxis : Prop :=
  ∀ (i : Instr) (a : Axis) (s t : State), axisOf i = some a → exec i s = .next t →
    (∀ b, b ≠ a → t.ax b = s.ax b ∧ eventsOf b t.trace = eventsOf b s.trace) ∧
    t = { s with axes := t.axes, registered := t.registered, trace := t.trace, result := t.result } ∧
    ∃ evs, t.trace = s.trace ++ evs

/-- R191: which command can produce which result code; an illegal word produces ILLEGAL only. -/
def Obligations.EachCommandProducesOnlyItsResultCodes : Prop :=
  (∀ (i : Instr) (s t : State), exec i s = .next t →
    t.result.cmd = (encode i).setWidth 14 ∧
    (t.result.code = 0 ∨ (t.result.code = 1 ∧ ∃ a, i = .setspeed a))) ∧
  ∀ (w : Word) (e : DecodeError) (s t : State) (rest : List Event), decode w = .error e →
    step { s with input := .regWrite 0x04 w :: rest } = .next t → t.result.code = 2

/-- R32, R51 ("a model must not let a claim depend on it"): the stored bits of unset speed parameters cannot be observed.
Blanking them before a step changes neither how the step ends nor, once blanked again, the state it answers. -/
def Obligations.UnsetParametersAreUnobservable : Prop :=
  ∀ s : State, mapNext State.blankUnset (step s.blankUnset) = mapNext State.blankUnset (step s)

/-- R238, R150: a MOVE that no limit stops and no command disturbs makes exactly `2 * steps` phase edges, in POLLs and
POLLALLs, and is then Idle at the start position plus or minus `steps`, which is its target. Until then it is active, and under
the arithmetic premise of R149 its next POLL completes and, when an edge is due, makes it. Between the edges anything may happen
that leaves the axis alone. -/
def Obligations.MoveCompletesAfterTwiceItsStepsInEdges : Prop :=
  ∀ (a : Axis) (d : Direction) (s s0 t : State) (n : Nat),
    exec (.move a d) s = .next s0 → s.arg0 ≠ 0 → ¬ (s0.ax a).AtLimit → PollRun a n s0 t →
    let steps := s.arg0.toNat
    let p := (s.ax a).numbers
    n ≤ 2 * steps ∧
    (n < 2 * steps → (t.ax a).state ≠ .idle ∧
      ((p.dmax - p.dmin) * p.n < 2 ^ 32 → ∃ t', exec (.poll a) t = .next t' ∧
        (t.EdgeAt a → (t'.ax a).pulseState ≠ (t.ax a).pulseState))) ∧
    (n = 2 * steps → (t.ax a).state = .idle ∧
      (t.ax a).position.toInt = (s.ax a).position.toInt + sign d * steps ∧ (t.ax a).target = (t.ax a).position)

/-- R150, the cases `S > 2N` (`N >= 1`) and `S > 0 = N`: after `k < S` completed steps the axis is Accelerating for the first
`max(1, N)` steps, then Running for `k < S - N` and Decelerating from there on, with the delays the ramp formulas give (all
`dmin` when `N = 0`). For either value of RUNSPEED_HOLD and every target. -/
def Obligations.LongMoveFollowsTheTrapezoid : Prop :=
  ∀ (a : Axis) (d : Direction) (s s0 t : State) (k : Nat),
    exec (.move a d) s = .next s0 → ¬ (s0.ax a).AtLimit → PollRun a (2 * k) s0 t →
    let steps := s.arg0.toNat
    let p := (s.ax a).numbers
    2 * p.n < steps → k < steps →
    (t.ax a).state =
      (if k < max 1 p.n then .accelerating else if k < steps - p.n then .running else .decelerating) ∧
    (t.ax a).stepDelay = BitVec.ofNat 32
      (if k ≤ p.n then accelDelay p k else if k ≤ steps - p.n then p.dmin else decelDelay p (steps - k)) ∧
    (t.ax a).accelCount.toNat = min k (max 1 p.n) ∧
    (t.ax a).position.toInt = (s.ax a).position.toInt + sign d * k

/-- R150, the case `0 < S <= 2N`: the move starts Running at `dmin`, runs so for its first step at least, and follows the
deceleration ramp from the step after the one at which the remaining distance first is `N` or less. For either value of
RUNSPEED_HOLD and every target. -/
def Obligations.ShortMoveStartsAtCruiseSpeed : Prop :=
  ∀ (a : Axis) (d : Direction) (s s0 t : State) (k : Nat),
    exec (.move a d) s = .next s0 → ¬ (s0.ax a).AtLimit → PollRun a (2 * k) s0 t →
    let steps := s.arg0.toNat
    let p := (s.ax a).numbers
    0 < steps → steps ≤ 2 * p.n → k < steps →
    (t.ax a).state = (if k < max 1 (steps - p.n) then .running else .decelerating) ∧
    (t.ax a).stepDelay = BitVec.ofNat 32 (if k ≤ max 1 (steps - p.n) then p.dmin else decelDelay p (steps - k))
end

