-- ==== Sys2Proof/Laws/State.lean ====
section
/-! SUPPORT. The small lemmas of the state and of its named updates: one per field per update, so that no later proof
unfolds a record update. -/

namespace Sys2Proof.Machine

/-! ### The four records -/

@[simp] theorem Axes.get_set_self (x : Axes) (a : Axis) (m : Motor) : (x.set a m).get a = m := by
  match a with
  | 0 | 1 | 2 | 3 => rfl

@[simp] theorem Axes.get_set_ne (x : Axes) {a b : Axis} (m : Motor) (h : b ≠ a) : (x.set a m).get b = x.get b := by
  match a, b with
  | 0, 1 | 0, 2 | 0, 3 | 1, 0 | 1, 2 | 1, 3 | 2, 0 | 2, 1 | 2, 3 | 3, 0 | 3, 1 | 3, 2 => rfl
  | 0, 0 | 1, 1 | 2, 2 | 3, 3 => exact absurd rfl h

@[simp] theorem Axes.set_get (x : Axes) (a : Axis) : x.set a (x.get a) = x := by
  match a with
  | 0 | 1 | 2 | 3 => rfl

@[simp] theorem Axes.set_set (x : Axes) (a : Axis) (m n : Motor) : (x.set a m).set a n = x.set a n := by
  match a with
  | 0 | 1 | 2 | 3 => rfl

/-- Two quadruples of records are equal when each record is. -/
theorem Axes.ext_get {x y : Axes} (h : ∀ a, x.get a = y.get a) : x = y := by
  cases x; cases y
  have h0 := h 0; have h1 := h 1; have h2 := h 2; have h3 := h 3
  simp only [Axes.get] at h0 h1 h2 h3
  simp [h0, h1, h2, h3]

/-! ### `setAx` -/

@[simp] theorem State.setAx_ax_self (s : State) (a : Axis) (m : Motor) : (s.setAx a m).ax a = m := Axes.get_set_self ..
@[simp] theorem State.setAx_ax_ne (s : State) {a b : Axis} (m : Motor) (h : b ≠ a) : (s.setAx a m).ax b = s.ax b :=
  Axes.get_set_ne _ _ h
@[simp] theorem State.setAx_ax (s : State) (a : Axis) : s.setAx a (s.ax a) = s := by
  simp [State.setAx, State.ax]
@[simp] theorem State.setAx_timeUs (s : State) (a : Axis) (m : Motor) : (s.setAx a m).timeUs = s.timeUs := rfl
@[simp] theorem State.setAx_registered (s : State) (a : Axis) (m : Motor) : (s.setAx a m).registered = s.registered := rfl
@[simp] theorem State.setAx_params (s : State) (a : Axis) (m : Motor) : (s.setAx a m).params = s.params := rfl
@[simp] theorem State.setAx_trace (s : State) (a : Axis) (m : Motor) : (s.setAx a m).trace = s.trace := rfl

/-! ### `commit` -/

@[simp] theorem State.commit_ax_self (s : State) (a : Axis) (w : Work) : (s.commit a w).ax a = w.motor :=
  Axes.get_set_self ..
@[simp] theorem State.commit_ax_ne (s : State) {a b : Axis} (w : Work) (h : b ≠ a) : (s.commit a w).ax b = s.ax b :=
  Axes.get_set_ne _ _ h
@[simp] theorem State.commit_timeUs (s : State) (a : Axis) (w : Work) : (s.commit a w).timeUs = s.timeUs := rfl
@[simp] theorem State.commit_now (s : State) (a : Axis) (w : Work) : (s.commit a w).now = s.now := rfl
@[simp] theorem State.commit_timeHiLatch (s : State) (a : Axis) (w : Work) :
    (s.commit a w).timeHiLatch = s.timeHiLatch := rfl
@[simp] theorem State.commit_msTick (s : State) (a : Axis) (w : Work) : (s.commit a w).msTick = s.msTick := rfl
@[simp] theorem State.commit_usFrac (s : State) (a : Axis) (w : Work) : (s.commit a w).usFrac = s.usFrac := rfl
@[simp] theorem State.commit_registered (s : State) (a : Axis) (w : Work) :
    (s.commit a w).registered = s.registered := rfl
@[simp] theorem State.commit_arg0 (s : State) (a : Axis) (w : Work) : (s.commit a w).arg0 = s.arg0 := rfl
@[simp] theorem State.commit_arg1 (s : State) (a : Axis) (w : Work) : (s.commit a w).arg1 = s.arg1 := rfl
@[simp] theorem State.commit_arg2 (s : State) (a : Axis) (w : Work) : (s.commit a w).arg2 = s.arg2 := rfl
@[simp] theorem State.commit_result (s : State) (a : Axis) (w : Work) : (s.commit a w).result = s.result := rfl
@[simp] theorem State.commit_params (s : State) (a : Axis) (w : Work) : (s.commit a w).params = s.params := rfl
@[simp] theorem State.commit_trace (s : State) (a : Axis) (w : Work) :
    (s.commit a w).trace = s.trace ++ w.events.map fun e => ⟨a, e.1, e.2⟩ := rfl
@[simp] theorem State.commit_reads (s : State) (a : Axis) (w : Work) : (s.commit a w).reads = s.reads := rfl
@[simp] theorem State.commit_input (s : State) (a : Axis) (w : Work) : (s.commit a w).input = s.input := rfl
@[simp] theorem State.commit_gapTicks (s : State) (a : Axis) (w : Work) : (s.commit a w).gapTicks = s.gapTicks := rfl
@[simp] theorem State.commit_draws (s : State) (a : Axis) (w : Work) : (s.commit a w).draws = s.draws := rfl

/-! ### `finish` -/

@[simp] theorem finishWord_result (w : Word) (c : BitVec 8) (s : State) :
    (finishWord w c s).result = ⟨c, w.setWidth 14⟩ := rfl
@[simp] theorem finish_result (i : Instr) (c : BitVec 8) (s : State) :
    (finish i c s).result = ⟨c, (encode i).setWidth 14⟩ := rfl
@[simp] theorem finish_axes (i : Instr) (c : BitVec 8) (s : State) : (finish i c s).axes = s.axes := rfl
@[simp] theorem finish_ax (i : Instr) (c : BitVec 8) (s : State) (a : Axis) : (finish i c s).ax a = s.ax a := rfl
@[simp] theorem finish_timeUs (i : Instr) (c : BitVec 8) (s : State) : (finish i c s).timeUs = s.timeUs := rfl
@[simp] theorem finish_now (i : Instr) (c : BitVec 8) (s : State) : (finish i c s).now = s.now := rfl
@[simp] theorem finish_timeHiLatch (i : Instr) (c : BitVec 8) (s : State) :
    (finish i c s).timeHiLatch = s.timeHiLatch := rfl
@[simp] theorem finish_msTick (i : Instr) (c : BitVec 8) (s : State) : (finish i c s).msTick = s.msTick := rfl
@[simp] theorem finish_usFrac (i : Instr) (c : BitVec 8) (s : State) : (finish i c s).usFrac = s.usFrac := rfl
@[simp] theorem finish_registered (i : Instr) (c : BitVec 8) (s : State) :
    (finish i c s).registered = s.registered := rfl
@[simp] theorem finish_arg0 (i : Instr) (c : BitVec 8) (s : State) : (finish i c s).arg0 = s.arg0 := rfl
@[simp] theorem finish_arg1 (i : Instr) (c : BitVec 8) (s : State) : (finish i c s).arg1 = s.arg1 := rfl
@[simp] theorem finish_arg2 (i : Instr) (c : BitVec 8) (s : State) : (finish i c s).arg2 = s.arg2 := rfl
@[simp] theorem finish_params (i : Instr) (c : BitVec 8) (s : State) : (finish i c s).params = s.params := rfl
@[simp] theorem finish_trace (i : Instr) (c : BitVec 8) (s : State) : (finish i c s).trace = s.trace := rfl
@[simp] theorem finish_reads (i : Instr) (c : BitVec 8) (s : State) : (finish i c s).reads = s.reads := rfl
@[simp] theorem finish_input (i : Instr) (c : BitVec 8) (s : State) : (finish i c s).input = s.input := rfl
@[simp] theorem finish_gapTicks (i : Instr) (c : BitVec 8) (s : State) : (finish i c s).gapTicks = s.gapTicks := rfl
@[simp] theorem finish_draws (i : Instr) (c : BitVec 8) (s : State) : (finish i c s).draws = s.draws := rfl

/-! ### Pins and work -/

@[simp] theorem Motor.pin_latch_self (m : Motor) (r : PinRole) (l : Level) : (m.latch r l).pin r = l := by cases r <;> rfl
@[simp] theorem Motor.pin_latch_ne (m : Motor) {r q : PinRole} (l : Level) (h : q ≠ r) :
    (m.latch r l).pin q = m.pin q := by
  cases r <;> cases q <;> first | rfl | exact absurd rfl h

@[simp] theorem Work.setPin_motor (r : PinRole) (l : Level) (w : Work) : (w.setPin r l).motor = w.motor.latch r l := rfl
@[simp] theorem Work.setPin_events (r : PinRole) (l : Level) (w : Work) : (w.setPin r l).events = w.events ++ [(r, l)] := rfl
@[simp] theorem Work.modify_motor (f : Motor → Motor) (w : Work) : (w.modify f).motor = f w.motor := rfl
@[simp] theorem Work.modify_events (f : Motor → Motor) (w : Work) : (w.modify f).events = w.events := rfl
@[simp] theorem Work.halt_motor (w : Work) :
    w.halt.motor = { w.motor with state := .idle, target := w.motor.position, pulseState := false, pinPwm := false } := rfl
@[simp] theorem Work.halt_events (w : Work) : w.halt.events = w.events ++ [(.pwm, false)] := rfl

@[simp] theorem Motor.latch_pwm (m : Motor) (l : Level) : m.latch .pwm l = { m with pinPwm := l } := rfl
@[simp] theorem Motor.latch_dir (m : Motor) (l : Level) : m.latch .dir l = { m with pinDir := l } := rfl
@[simp] theorem Motor.latch_en (m : Motor) (l : Level) : m.latch .en l = { m with pinEn := l } := rfl

/-! ### The time base -/

@[simp] theorem tick_ax (s : State) (a : Axis) : (tick s).ax a = s.ax a := rfl
@[simp] theorem tick_axes (s : State) : (tick s).axes = s.axes := rfl
@[simp] theorem tick_params (s : State) : (tick s).params = s.params := rfl
@[simp] theorem tick_registered (s : State) : (tick s).registered = s.registered := rfl
@[simp] theorem tick_timeHiLatch (s : State) : (tick s).timeHiLatch = s.timeHiLatch := rfl
@[simp] theorem tick_arg0 (s : State) : (tick s).arg0 = s.arg0 := rfl
@[simp] theorem tick_arg1 (s : State) : (tick s).arg1 = s.arg1 := rfl
@[simp] theorem tick_arg2 (s : State) : (tick s).arg2 = s.arg2 := rfl
@[simp] theorem tick_result (s : State) : (tick s).result = s.result := rfl
@[simp] theorem tick_trace (s : State) : (tick s).trace = s.trace := rfl
@[simp] theorem tick_reads (s : State) : (tick s).reads = s.reads := rfl
@[simp] theorem tick_input (s : State) : (tick s).input = s.input := rfl
@[simp] theorem tick_gapTicks (s : State) : (tick s).gapTicks = s.gapTicks := rfl
@[simp] theorem tick_draws (s : State) : (tick s).draws = s.draws := rfl

end Sys2Proof.Machine
end

