-- ==== Sys2Proof/Laws/Ops.lean ====
section
/-! SUPPORT. What each shared operation can do, said once: work on one axis, sequencing, how a command ends, and the time
base. Provers cite these and do not unfold the operations. -/

namespace Sys2Proof.Machine

/-! ### Work on one axis -/

theorem onAxis_of_ok {a : Axis} {f : Work → Except Fault Work} {s : State} {w : Work} (h : f ⟨s.ax a, []⟩ = .ok w) :
    onAxis a f s = .next (s.commit a w) := by
  simp only [onAxis, h]

theorem onAxis_of_error {a : Axis} {f : Work → Except Fault Work} {s : State} {e : Fault}
    (h : f ⟨s.ax a, []⟩ = .error e) : onAxis a f s = .fault e := by
  simp only [onAxis, h]

/-- All that `onAxis` can do when it answers a next state. -/
theorem onAxis_eq_next {a : Axis} {f : Work → Except Fault Work} {s t : State} :
    onAxis a f s = .next t ↔ ∃ w, f ⟨s.ax a, []⟩ = .ok w ∧ t = s.commit a w := by
  unfold onAxis
  cases h : f ⟨s.ax a, []⟩ with
  | ok w => simp [eq_comm]
  | error e => simp

theorem andThen_eq_next {o : Out} {g : State → Out} {t : State} :
    andThen o g = .next t ↔ ∃ u, o = .next u ∧ g u = .next t := by
  cases o <;> simp [andThen]

@[simp] theorem andThen_next (s : State) (g : State → Out) : andThen (.next s) g = g s := rfl
@[simp] theorem andThen_fault (e : Fault) (g : State → Out) : andThen (.fault e) g = .fault e := rfl
@[simp] theorem andThen_refused (r : Refusal) (g : State → Out) : andThen (.refused r) g = .refused r := rfl

/-- Ending a command with OK after one axis's work is what `afterCommand` describes. -/
theorem finish_commit (i : Instr) (a : Axis) (w : Work) (s : State) :
    finish i codeOk (s.commit a w) = s.afterCommand i a w.motor w.events 0 := rfl

theorem commandOnAxis_of_ok {i : Instr} {a : Axis} {f : Work → Except Fault Work} {s : State} {w : Work}
    (h : f ⟨s.ax a, []⟩ = .ok w) : commandOnAxis i a f s = .next (s.afterCommand i a w.motor w.events 0) := by
  simp only [commandOnAxis, onAxis_of_ok h, andThen_next, finish_commit]

theorem commandOnAxis_of_error {i : Instr} {a : Axis} {f : Work → Except Fault Work} {s : State} {e : Fault}
    (h : f ⟨s.ax a, []⟩ = .error e) : commandOnAxis i a f s = .fault e := by
  simp only [commandOnAxis, onAxis_of_error h, andThen_fault]

/-- All that a command on one axis can do when it answers a next state. -/
theorem commandOnAxis_eq_next {i : Instr} {a : Axis} {f : Work → Except Fault Work} {s t : State} :
    commandOnAxis i a f s = .next t ↔
      ∃ w, f ⟨s.ax a, []⟩ = .ok w ∧ t = s.afterCommand i a w.motor w.events 0 := by
  unfold commandOnAxis
  rw [andThen_eq_next]
  constructor
  · rintro ⟨u, hu, ht⟩
    obtain ⟨w, hw, rfl⟩ := onAxis_eq_next.1 hu
    cases ht
    exact ⟨w, hw, rfl⟩
  · rintro ⟨w, hw, rfl⟩
    exact ⟨_, onAxis_of_ok hw, rfl⟩

/-! ### `afterCommand` -/

section afterCommand
variable (s : State) (i : Instr) (a : Axis) (m : Motor) (evs : List (PinRole × Level)) (c : BitVec 8)

@[simp] theorem afterCommand_ax_self : (s.afterCommand i a m evs c).ax a = m := Axes.get_set_self ..
@[simp] theorem afterCommand_ax_ne {b : Axis} (h : b ≠ a) : (s.afterCommand i a m evs c).ax b = s.ax b :=
  Axes.get_set_ne _ _ h
@[simp] theorem afterCommand_timeUs : (s.afterCommand i a m evs c).timeUs = s.timeUs := rfl
@[simp] theorem afterCommand_now : (s.afterCommand i a m evs c).now = s.now := rfl
@[simp] theorem afterCommand_timeHiLatch : (s.afterCommand i a m evs c).timeHiLatch = s.timeHiLatch := rfl
@[simp] theorem afterCommand_msTick : (s.afterCommand i a m evs c).msTick = s.msTick := rfl
@[simp] theorem afterCommand_usFrac : (s.afterCommand i a m evs c).usFrac = s.usFrac := rfl
@[simp] theorem afterCommand_registered : (s.afterCommand i a m evs c).registered = s.registered := rfl
@[simp] theorem afterCommand_arg0 : (s.afterCommand i a m evs c).arg0 = s.arg0 := rfl
@[simp] theorem afterCommand_arg1 : (s.afterCommand i a m evs c).arg1 = s.arg1 := rfl
@[simp] theorem afterCommand_arg2 : (s.afterCommand i a m evs c).arg2 = s.arg2 := rfl
@[simp] theorem afterCommand_result : (s.afterCommand i a m evs c).result = ⟨c, (encode i).setWidth 14⟩ := rfl
@[simp] theorem afterCommand_params : (s.afterCommand i a m evs c).params = s.params := rfl
@[simp] theorem afterCommand_trace :
    (s.afterCommand i a m evs c).trace = s.trace ++ evs.map fun e => ⟨a, e.1, e.2⟩ := rfl
@[simp] theorem afterCommand_reads : (s.afterCommand i a m evs c).reads = s.reads := rfl
@[simp] theorem afterCommand_input : (s.afterCommand i a m evs c).input = s.input := rfl
@[simp] theorem afterCommand_gapTicks : (s.afterCommand i a m evs c).gapTicks = s.gapTicks := rfl
@[simp] theorem afterCommand_draws : (s.afterCommand i a m evs c).draws = s.draws := rfl

end afterCommand

/-- Leaving the record as it was and emitting nothing is ending the command alone. -/
theorem afterCommand_unchanged (s : State) (i : Instr) (a : Axis) (c : BitVec 8) :
    s.afterCommand i a (s.ax a) [] c = { s with result := ⟨c, (encode i).setWidth 14⟩ } := by
  simp [State.afterCommand, State.ax]

/-! ### Events of one axis -/

@[simp] theorem eventsOf_append (a : Axis) (x y : List PinEvent) : eventsOf a (x ++ y) = eventsOf a x ++ eventsOf a y := by
  simp [eventsOf]

@[simp] theorem eventsOf_own (a : Axis) (evs : List (PinRole × Level)) :
    eventsOf a (evs.map fun e => (⟨a, e.1, e.2⟩ : PinEvent)) = evs := by
  induction evs with
  | nil => rfl
  | cons e es ih => simpa [eventsOf] using ih

theorem eventsOf_other {a b : Axis} (h : b ≠ a) (evs : List (PinRole × Level)) :
    eventsOf b (evs.map fun e => (⟨a, e.1, e.2⟩ : PinEvent)) = [] := by
  induction evs with
  | nil => rfl
  | cons e es ih => simpa [eventsOf, Ne.symm h] using ih

/-! ### The time base -/

theorem wrap_toNat (tw : TimeWidth) (t : Time) : (tw.wrap t).toNat = t.toNat % 2 ^ tw.bits := by
  cases tw with
  | w32 => simp [TimeWidth.wrap, TimeWidth.bits, BitVec.toNat_setWidth]; omega
  | w64 => simp [TimeWidth.wrap, TimeWidth.bits]; omega

@[simp] theorem wrap_wrap (tw : TimeWidth) (t : Time) : tw.wrap (tw.wrap t) = tw.wrap t := by
  apply BitVec.eq_of_toNat_eq
  simp [wrap_toNat]

theorem wrap_zero (tw : TimeWidth) : tw.wrap 0 = 0 := by cases tw <;> rfl

/-- A power of two that TW-bit arithmetic is taken modulo divides the 64-bit modulus. -/
theorem mod_mod_bits (tw : TimeWidth) (n : Nat) : n % 2 ^ 64 % 2 ^ tw.bits = n % 2 ^ tw.bits := by
  cases tw <;> simp [TimeWidth.bits]

theorem tick_timeUs_toNat (s : State) :
    (tick s).timeUs.toNat = (s.timeUs.toNat + s.params.tickUs) % 2 ^ s.params.timeWidth.bits := by
  simp only [tick, tickBy, wrap_toNat, BitVec.toNat_add, BitVec.toNat_ofNat]
  rw [mod_mod_bits, Nat.add_mod, mod_mod_bits, ← Nat.add_mod]

/-- What TICKs leave alone. -/
theorem ticks_frame (k : Nat) (s : State) :
    ticks k s = { s with
      timeUs := (ticks k s).timeUs, usFrac := (ticks k s).usFrac, msTick := (ticks k s).msTick } := by
  induction k generalizing s with
  | zero => rfl
  | succ k ih =>
    have h := ih (tick s)
    simp only [ticks]
    rw [h]
    rfl

@[simp] theorem ticks_axes (k : Nat) (s : State) : (ticks k s).axes = s.axes := by rw [ticks_frame]
@[simp] theorem ticks_ax (k : Nat) (s : State) (a : Axis) : (ticks k s).ax a = s.ax a := by rw [ticks_frame]; rfl
@[simp] theorem ticks_params (k : Nat) (s : State) : (ticks k s).params = s.params := by rw [ticks_frame]
@[simp] theorem ticks_registered (k : Nat) (s : State) : (ticks k s).registered = s.registered := by rw [ticks_frame]
@[simp] theorem ticks_timeHiLatch (k : Nat) (s : State) : (ticks k s).timeHiLatch = s.timeHiLatch := by rw [ticks_frame]
@[simp] theorem ticks_arg0 (k : Nat) (s : State) : (ticks k s).arg0 = s.arg0 := by rw [ticks_frame]
@[simp] theorem ticks_arg1 (k : Nat) (s : State) : (ticks k s).arg1 = s.arg1 := by rw [ticks_frame]
@[simp] theorem ticks_arg2 (k : Nat) (s : State) : (ticks k s).arg2 = s.arg2 := by rw [ticks_frame]
@[simp] theorem ticks_result (k : Nat) (s : State) : (ticks k s).result = s.result := by rw [ticks_frame]
@[simp] theorem ticks_trace (k : Nat) (s : State) : (ticks k s).trace = s.trace := by rw [ticks_frame]
@[simp] theorem ticks_reads (k : Nat) (s : State) : (ticks k s).reads = s.reads := by rw [ticks_frame]
@[simp] theorem ticks_input (k : Nat) (s : State) : (ticks k s).input = s.input := by rw [ticks_frame]
@[simp] theorem ticks_gapTicks (k : Nat) (s : State) : (ticks k s).gapTicks = s.gapTicks := by rw [ticks_frame]
@[simp] theorem ticks_draws (k : Nat) (s : State) : (ticks k s).draws = s.draws := by rw [ticks_frame]

theorem ticks_add (j k : Nat) (s : State) : ticks (j + k) s = ticks k (ticks j s) := by
  induction j generalizing s with
  | zero => simp [ticks]
  | succ j ih => rw [Nat.succ_add]; exact ih (tick s)

/-- TICKs depend on nothing but the time fields and the parameters. -/
theorem tick_congr {s t : State} (h1 : s.timeUs = t.timeUs) (h2 : s.usFrac = t.usFrac) (h3 : s.msTick = t.msTick)
    (h4 : s.params = t.params) :
    (tick s).timeUs = (tick t).timeUs ∧ (tick s).usFrac = (tick t).usFrac ∧ (tick s).msTick = (tick t).msTick := by
  simp [tick, tickBy, h1, h2, h3, h4]

theorem ticks_congr (k : Nat) {s t : State} (h1 : s.timeUs = t.timeUs) (h2 : s.usFrac = t.usFrac)
    (h3 : s.msTick = t.msTick) (h4 : s.params = t.params) :
    (ticks k s).timeUs = (ticks k t).timeUs ∧ (ticks k s).usFrac = (ticks k t).usFrac ∧
      (ticks k s).msTick = (ticks k t).msTick := by
  induction k generalizing s t with
  | zero => exact ⟨h1, h2, h3⟩
  | succ k ih =>
    obtain ⟨g1, g2, g3⟩ := tick_congr h1 h2 h3 h4
    exact ih g1 g2 g3 (by simpa using h4)

/-- A property that TICKs and `P` depend on only through what a TICK keeps: TICKs keep it. -/
theorem ticks_induct {P : State → Prop} (h : ∀ s, P s → P (tick s)) (k : Nat) (s : State) (hs : P s) : P (ticks k s) := by
  induction k generalizing s with
  | zero => exact hs
  | succ k ih => exact ih _ (h _ hs)

/-- The time test of POLL is the one the statements write. -/
theorem edgeDue_iff (s : State) (a : Axis) :
    (s.ax a).edgeDue s.params.timeWidth s.now = true ↔ (s.ax a).stepDelay.toNat / 2 ≤ s.sinceEdge a := by
  simp [Motor.edgeDue, elapsed, State.sinceEdge, State.now, wrap_toNat]

end Sys2Proof.Machine
end

