-- ==== Sys2Proof/Laws/PerInstr.lean ====
section
/-! SUPPORT. The laws stated for every command as a term. `EncodedForm`: the encoding of a command matches the row of the
opcode map that bears its mnemonic (30_encoding R85). -/

namespace Sys2Proof.Laws

/-- The mnemonic of a command, as 30_encoding R85 spells it. -/
def mnemonicOf : Instr → String
  | .init _ => "INIT"
  | .add _ => "ADD"
  | .remove _ => "REMOVE"
  | .setspeed _ => "SETSPEED"
  | .setdir _ _ => "SETDIR"
  | .enable _ _ => "ENABLE"
  | .limen _ _ => "LIMEN"
  | .setlim _ _ _ => "SETLIM"
  | .move _ _ => "MOVE"
  | .moveto _ => "MOVETO"
  | .runspeed _ => "RUNSPEED"
  | .stop _ _ => "STOP"
  | .poll _ => "POLL"
  | .pollall => "POLLALL"

/-- The encoding of `i` has every bit its own row of the opcode map fixes. -/
def EncodedForm.Statement (i : Instr) : Prop :=
  (opcodeMap.any fun r => r.mnemonic == mnemonicOf i && (encode i &&& r.mask) == r.pattern) = true

theorem EncodedForm.init (a : Axis) : EncodedForm.Statement (.init a) := by
  unfold EncodedForm.Statement; revert a; decide
theorem EncodedForm.add (a : Axis) : EncodedForm.Statement (.add a) := by
  unfold EncodedForm.Statement; revert a; decide
theorem EncodedForm.remove (a : Axis) : EncodedForm.Statement (.remove a) := by
  unfold EncodedForm.Statement; revert a; decide
theorem EncodedForm.setspeed (a : Axis) : EncodedForm.Statement (.setspeed a) := by
  unfold EncodedForm.Statement; revert a; decide
theorem EncodedForm.setdir (a : Axis) (dir : Direction) : EncodedForm.Statement (.setdir a dir) := by
  unfold EncodedForm.Statement; cases dir <;> (revert a; decide)
theorem EncodedForm.enable (a : Axis) (on : Bool) : EncodedForm.Statement (.enable a on) := by
  unfold EncodedForm.Statement; revert a on; decide
theorem EncodedForm.limen (a : Axis) (on : Bool) : EncodedForm.Statement (.limen a on) := by
  unfold EncodedForm.Statement; revert a on; decide
theorem EncodedForm.setlim (a : Axis) (cw ccw : Bool) : EncodedForm.Statement (.setlim a cw ccw) := by
  unfold EncodedForm.Statement; revert a cw ccw; decide
theorem EncodedForm.move (a : Axis) (dir : Direction) : EncodedForm.Statement (.move a dir) := by
  unfold EncodedForm.Statement; cases dir <;> (revert a; decide)
theorem EncodedForm.moveto (a : Axis) : EncodedForm.Statement (.moveto a) := by
  unfold EncodedForm.Statement; revert a; decide
theorem EncodedForm.runspeed (a : Axis) : EncodedForm.Statement (.runspeed a) := by
  unfold EncodedForm.Statement; revert a; decide
theorem EncodedForm.stop (a : Axis) (immediate : Bool) : EncodedForm.Statement (.stop a immediate) := by
  unfold EncodedForm.Statement; revert a immediate; decide
theorem EncodedForm.poll (a : Axis) : EncodedForm.Statement (.poll a) := by
  unfold EncodedForm.Statement; revert a; decide
theorem EncodedForm.pollall : EncodedForm.Statement .pollall := by
  unfold EncodedForm.Statement; decide

end Sys2Proof.Laws
end

