-- ==== Sys2Proof/Laws/Poll.lean ====
section
/-! SUPPORT. What the per-motor handler can do, said once (42_poll R130, R151). -/

namespace Sys2Proof.Machine

theorem limitHit_iff (m : Motor) : m.limitHit = true ↔ m.AtLimit := by
  cases hd : m.direction <;> simp [Motor.limitHit, Motor.limitFlag, Motor.AtLimit, hd]

theorem inPositionRange_iff (p : Int) : inPositionRange p = true ↔ Representable p := by
  simp [inPositionRange, Representable]

theorem sgn_eq_sign (d : Direction) : d.sgn = sign d := by cases d <;> rfl

theorem level_eq_dirLevel (d : Direction) : d.level = dirLevel d := by cases d <;> rfl

theorem positionWord_toInt {p : Int} (h : Representable p) : (positionWord p).toInt = p := by
  have h1 : (-(2 ^ 31) : Int) ≤ p := by have := h.1; simpa using this
  have h2 := h.2
  rw [positionWord, BitVec.toInt_ofInt, Int.bmod_def]
  norm_num at h1 h2 ⊢
  split <;> omega

theorem positionWord_self (w : Word) : positionWord w.toInt = w := BitVec.ofInt_toInt

theorem toInt_representable (w : Word) : Representable w.toInt := by
  have h1 := BitVec.le_toInt w
  have h2 := BitVec.toInt_lt (x := w)
  constructor
  · simpa using h1
  · norm_num at h2 ⊢; omega

/-- The record after the low-going half of an edge at time `t`, before the step is counted (42_poll R136, R137, R139). -/
def Motor.lowered (m : Motor) (t : Time) : Motor :=
  { m with lastStepTime := t, pulseState := false, pinPwm := false }

/-! The five cases of the handler (42_poll R151). -/

theorem pollWork_idle {p : Params} {t : Time} {w : Work} (h : w.motor.state = .idle) : pollWork p t w = .ok w := by
  simp [pollWork, h]

theorem pollWork_limit {p : Params} {t : Time} {w : Work} (h : w.motor.state ≠ .idle) (hl : w.motor.limitHit = true) :
    pollWork p t w = .ok (limitStop w) := by
  simp [pollWork, h, hl]

theorem pollWork_early {p : Params} {t : Time} {w : Work} (h : w.motor.state ≠ .idle) (hl : w.motor.limitHit = false)
    (hd : w.motor.edgeDue p.timeWidth t = false) : pollWork p t w = .ok w := by
  simp [pollWork, h, hl, hd]

theorem pollWork_rise {p : Params} {t : Time} {w : Work} (h : w.motor.state ≠ .idle) (hl : w.motor.limitHit = false)
    (hd : w.motor.edgeDue p.timeWidth t = true) (hp : w.motor.pulseState = false) :
    pollWork p t w =
      .ok ⟨{ w.motor with lastStepTime := t, pulseState := true, pinPwm := true }, w.events ++ [(.pwm, true)]⟩ := by
  simp [pollWork, h, hl, hd, phaseEdge, hp, Work.setPin, Work.modify]

theorem pollWork_fall {p : Params} {t : Time} {w : Work} (h : w.motor.state ≠ .idle) (hl : w.motor.limitHit = false)
    (hd : w.motor.edgeDue p.timeWidth t = true) (hp : w.motor.pulseState = true) :
    pollWork p t w =
      match completeStep p.runspeedHold (w.motor.lowered t) with
      | .ok m => .ok ⟨m, w.events ++ [(.pwm, false)]⟩
      | .error e => .error e := by
  simp only [pollWork, h, hl, hd, phaseEdge, hp, Work.setPin, Work.modify, if_false, if_true, Bool.not_true,
    Bool.false_eq_true, Motor.latch_pwm]
  rfl

/-- All that the handler can do when it does not fault: nothing, a limit stop, a rising edge, or a completed step. -/
theorem pollWork_cases {p : Params} {t : Time} {w w' : Work} (h : pollWork p t w = .ok w') :
    (w.motor.state = .idle ∧ w' = w) ∨
    (w.motor.state ≠ .idle ∧ w.motor.limitHit = true ∧ w' = limitStop w) ∨
    (w.motor.state ≠ .idle ∧ w.motor.limitHit = false ∧ w.motor.edgeDue p.timeWidth t = false ∧ w' = w) ∨
    (w.motor.state ≠ .idle ∧ w.motor.limitHit = false ∧ w.motor.edgeDue p.timeWidth t = true ∧
      w.motor.pulseState = false ∧
      w' = ⟨{ w.motor with lastStepTime := t, pulseState := true, pinPwm := true }, w.events ++ [(.pwm, true)]⟩) ∨
    (w.motor.state ≠ .idle ∧ w.motor.limitHit = false ∧ w.motor.edgeDue p.timeWidth t = true ∧
      w.motor.pulseState = true ∧
      ∃ m, completeStep p.runspeedHold (w.motor.lowered t) = .ok m ∧ w' = ⟨m, w.events ++ [(.pwm, false)]⟩) := by
  by_cases hi : w.motor.state = .idle
  · rw [pollWork_idle hi] at h
    exact .inl ⟨hi, by cases h; rfl⟩
  cases hl : w.motor.limitHit with
  | true =>
    rw [pollWork_limit hi hl] at h
    exact .inr (.inl ⟨hi, rfl, by cases h; rfl⟩)
  | false =>
    cases hd : w.motor.edgeDue p.timeWidth t with
    | false =>
      rw [pollWork_early hi hl hd] at h
      exact .inr (.inr (.inl ⟨hi, rfl, rfl, by cases h; rfl⟩))
    | true =>
      cases hp : w.motor.pulseState with
      | false =>
        rw [pollWork_rise hi hl hd hp] at h
        exact .inr (.inr (.inr (.inl ⟨hi, rfl, rfl, rfl, by cases h; rfl⟩)))
      | true =>
        rw [pollWork_fall hi hl hd hp] at h
        cases hc : completeStep p.runspeedHold (w.motor.lowered t) with
        | ok m => rw [hc] at h; exact .inr (.inr (.inr (.inr ⟨hi, rfl, rfl, rfl, m, rfl, by cases h; rfl⟩)))
        | error e => rw [hc] at h; cases h

/-- All that completing a step can do when it does not fault. -/
theorem completeStep_cases {hold : Bool} {m m' : Motor} (h : completeStep hold m = .ok m') :
    Representable m.landing ∧
    ((m.landing = m.target.toInt ∧ m' = { m with position := positionWord m.landing, state := .idle }) ∨
     (m.landing ≠ m.target.toInt ∧ stepRule hold { m with position := positionWord m.landing } = .ok m')) := by
  have hn : m.nextPosition = m.landing := by simp [Motor.nextPosition, Motor.landing, sgn_eq_sign]
  unfold completeStep at h
  rw [hn] at h
  split at h
  · rename_i hr
    rw [inPositionRange_iff] at hr
    refine ⟨hr, ?_⟩
    have hiff : positionWord m.landing = m.target ↔ m.landing = m.target.toInt := by
      rw [← BitVec.toInt_inj, positionWord_toInt hr]
    simp only [hiff] at h
    split at h
    · exact .inl ⟨‹_›, by cases h; rfl⟩
    · exact .inr ⟨‹_›, h⟩
  · cases h

theorem completeStep_overflow {hold : Bool} {m : Motor} (h : ¬ Representable m.landing) :
    completeStep hold m = .error .positionOverflow := by
  have hn : m.nextPosition = m.landing := by simp [Motor.nextPosition, Motor.landing, sgn_eq_sign]
  have : inPositionRange m.landing = false := by
    rw [← Bool.not_eq_true, inPositionRange_iff]; exact h
  simp [completeStep, hn, this]

theorem completeStep_reached {hold : Bool} {m : Motor} (h : m.landing = m.target.toInt) :
    completeStep hold m = .ok { m with position := positionWord m.landing, state := .idle } := by
  have hn : m.nextPosition = m.landing := by simp [Motor.nextPosition, Motor.landing, sgn_eq_sign]
  have hr : inPositionRange m.target.toInt = true := (inPositionRange_iff _).2 (toInt_representable _)
  simp [completeStep, hn, h, hr, positionWord_self]

theorem completeStep_rule {hold : Bool} {m : Motor} (hr : Representable m.landing) (h : m.landing ≠ m.target.toInt) :
    completeStep hold m = stepRule hold { m with position := positionWord m.landing } := by
  have hn : m.nextPosition = m.landing := by simp [Motor.nextPosition, Motor.landing, sgn_eq_sign]
  have hiff : positionWord m.landing = m.target ↔ m.landing = m.target.toInt := by
    rw [← BitVec.toInt_inj, positionWord_toInt hr]
  have hr' := (inPositionRange_iff _).2 hr
  simp [completeStep, hn, hr', hiff, h]

theorem inDomain_iff (p : Profile) (k : Nat) :
    p.inDomain k = true ↔ p.n = 0 ∨ (p.dmax - p.dmin) * max p.n k < 2 ^ 32 := by
  simp only [Profile.inDomain, Bool.or_eq_true, decide_eq_true_eq]

/-- A factor that does not exceed `N` leaves the premise of R149 alone to check. -/
theorem inDomain_of_le {p : Profile} {k : Nat} (h : k ≤ p.n) :
    p.inDomain k = true ↔ (p.dmax - p.dmin) * p.n < 2 ^ 32 := by
  rw [inDomain_iff, Nat.max_eq_left h]
  refine ⟨fun h => ?_, .inr⟩
  rcases h with h | h
  · simp [h]
  · exact h

/-- All that the guard of a ramp step can do when it does not fault. -/
theorem guardRamp_eq_ok {p : Profile} {k : Nat} {m m' : Motor} :
    p.guardRamp k m = .ok m' ↔ p.inDomain k = true ∧ m' = m := by
  unfold Profile.guardRamp
  split
  · exact ⟨fun h => ⟨‹_›, by cases h; rfl⟩, fun h => by rw [h.2]⟩
  · exact ⟨fun h => (by cases h), fun h => absurd h.1 ‹_›⟩

theorem guardRamp_of_not {p : Profile} {k : Nat} (m : Motor) (h : p.inDomain k = false) :
    p.guardRamp k m = .error .arithmeticDomain := by
  simp [Profile.guardRamp, h]

/-- What a per-state rule can do, by lifecycle state. -/
theorem stepRule_cases {hold : Bool} {m m' : Motor} (h : stepRule hold m = .ok m') :
    m.speedValid = true ∧
    ((m.state = .accelerating ∧ m.numbers.inDomain (m.accelCount + 1).toNat = true ∧ m' = accelStep m.numbers m) ∨
     (m.state = .running ∧ m' = runStep hold m.numbers m) ∨
     (m.state = .decelerating ∧ m.numbers.inDomain (m.numbers.n - m.remaining) = true ∧ m' = decelStep m.numbers m) ∨
     (m.state = .idle ∧ m' = m)) := by
  unfold stepRule Motor.profile at h
  cases hv : m.speedValid with
  | false => simp [hv] at h
  | true =>
    simp only [hv, if_true] at h
    refine ⟨rfl, ?_⟩
    cases hs : m.state <;> simp only [hs] at h
    · cases h; simp
    · cases h; simp [Motor.numbers]
    · obtain ⟨hd, rfl⟩ := guardRamp_eq_ok.1 h; exact .inl ⟨rfl, hd, rfl⟩
    · obtain ⟨hd, rfl⟩ := guardRamp_eq_ok.1 h; exact .inr (.inr (.inl ⟨rfl, hd, rfl⟩))

theorem stepRule_unset {hold : Bool} {m : Motor} (h : m.speedValid = false) :
    stepRule hold m = .error .unsetParameter := by
  simp [stepRule, Motor.profile, h]

theorem profile_of_valid {m : Motor} (hv : m.speedValid = true) : m.profile = .ok m.numbers := by
  simp [Motor.profile, hv, Motor.numbers]

theorem numbers_n_eq_zero (m : Motor) : m.numbers.n = 0 ↔ m.accelSteps = 0 := by
  rw [← BitVec.toNat_inj]; rfl

/-- A ramp step outside its arithmetic domain faults (42_poll R149, 93 U5). -/
theorem stepRule_domain {hold : Bool} {m : Motor} (hv : m.speedValid = true) (h : ¬ m.RampInDomain) :
    stepRule hold m = .error .arithmeticDomain := by
  rw [stepRule, profile_of_valid hv]
  cases hs : m.state with
  | idle | running => simp [hs] at h
  | accelerating =>
    refine guardRamp_of_not _ (Bool.eq_false_iff.2 fun hd => h ?_)
    rw [inDomain_iff, numbers_n_eq_zero] at hd
    exact ⟨fun _ => hd, fun hx => by simp [hs] at hx⟩
  | decelerating =>
    refine guardRamp_of_not _ (Bool.eq_false_iff.2 fun hd => h ?_)
    rw [inDomain_of_le (Nat.sub_le _ _)] at hd
    exact ⟨fun hx => by simp [hs] at hx, fun _ => hd⟩

/-- The fields no per-state rule writes. -/
theorem stepRule_frame {hold : Bool} {m m' : Motor} (h : stepRule hold m = .ok m') :
    m' = { m with accelCount := m'.accelCount, stepDelay := m'.stepDelay, state := m'.state } := by
  obtain ⟨-, ⟨-, -, rfl⟩ | ⟨-, rfl⟩ | ⟨-, -, rfl⟩ | ⟨-, rfl⟩⟩ := stepRule_cases h
  · simp only [accelStep]; split <;> [rfl; (split <;> rfl)]
  · simp only [runStep]; split <;> split <;> rfl
  · rfl
  · rfl

/-- The fields no POLL writes, and that it emits PWM events only. -/
theorem pollWork_frame {p : Params} {t : Time} {w w' : Work} (h : pollWork p t w = .ok w') :
    w'.motor = { w.motor with
      position := w'.motor.position, target := w'.motor.target, accelCount := w'.motor.accelCount,
      stepDelay := w'.motor.stepDelay, state := w'.motor.state, pulseState := w'.motor.pulseState,
      lastStepTime := w'.motor.lastStepTime, pinPwm := w'.motor.pinPwm } ∧
    ∃ evs, w'.events = w.events ++ evs ∧ ∀ e ∈ evs, e.1 = .pwm := by
  obtain ⟨-, rfl⟩ | ⟨-, -, rfl⟩ | ⟨-, -, -, rfl⟩ | ⟨-, -, -, -, rfl⟩ | ⟨-, -, -, -, m, hm, rfl⟩ := pollWork_cases h
  · exact ⟨rfl, [], by simp, by simp⟩
  · refine ⟨?_, [(.pwm, false)], ?_, by simp⟩ <;> cases hd : w.motor.direction <;> simp [limitStop, hd]
  · exact ⟨rfl, [], by simp, by simp⟩
  · exact ⟨rfl, [(.pwm, true)], rfl, by simp⟩
  · refine ⟨?_, [(.pwm, false)], rfl, by simp⟩
    obtain ⟨-, ⟨-, rfl⟩ | ⟨-, hs⟩⟩ := completeStep_cases hm
    · rfl
    · have := stepRule_frame hs
      simp only
      rw [this]
      rfl

/-- The events a POLL has emitted before are no input of it. -/
theorem pollWork_events (p : Params) (t : Time) (m : Motor) (pre : List (PinRole × Level)) :
    pollWork p t ⟨m, pre⟩ =
      match pollWork p t ⟨m, []⟩ with
      | .ok w => .ok ⟨w.motor, pre ++ w.events⟩
      | .error e => .error e := by
  by_cases h1 : m.state = .idle
  · simp [pollWork, h1]
  cases h2 : m.limitHit with
  | true =>
    simp only [pollWork, h1, h2, if_false, if_true, limitStop]
    cases m.direction <;> simp [Work.halt, Work.setPin, Work.modify]
  | false =>
    cases h3 : m.edgeDue p.timeWidth t with
    | false => simp [pollWork, h1, h2, h3]
    | true =>
      cases h4 : m.pulseState with
      | false =>
        rw [pollWork_rise (w := ⟨m, pre⟩) h1 h2 h3 h4, pollWork_rise (w := ⟨m, []⟩) h1 h2 h3 h4]
        rfl
      | true =>
        rw [pollWork_fall (w := ⟨m, pre⟩) h1 h2 h3 h4, pollWork_fall (w := ⟨m, []⟩) h1 h2 h3 h4]
        cases completeStep p.runspeedHold (m.lowered t) <;> rfl

end Sys2Proof.Machine
end

