-- ==== Sys2Proof/Laws/Registry.lean ====
section
/-! SUPPORT. What POLLALL can do, said once: its order of service is a permutation, and a property that handlers and TICKs
keep is kept by the whole pass (44_registry R183, R184). -/

namespace Sys2Proof.Machine

theorem insertAt_perm (a : Axis) (k : Nat) (l : List Axis) : (insertAt a k l).Perm (a :: l) := by
  induction l generalizing k with
  | nil => cases k <;> exact List.Perm.refl _
  | cons b l ih =>
    cases k with
    | zero => exact List.Perm.refl _
    | succ k => exact ((ih k).cons b).trans (List.Perm.swap a b l)

/-- R184: whatever the free value is, the order of service is a permutation of the registered axes. -/
theorem serviceOrder_perm (draw : Nat) (l : List Axis) : (serviceOrder draw l).Perm l := by
  induction l with
  | nil => exact List.Perm.refl _
  | cons a l ih =>
    cases l with
    | nil => exact List.Perm.refl _
    | cons b l => exact (insertAt_perm a _ _).trans (ih.cons a)

theorem registeredAxes_nodup (s : State) : s.registeredAxes.Nodup := List.Nodup.filter _ (by decide)

theorem mem_registeredAxes {s : State} {a : Axis} : a ∈ s.registeredAxes ↔ s.isRegistered a = true := by
  have h : a ∈ allAxes := by revert a; decide
  simp [State.registeredAxes, List.mem_filter, h]

theorem mem_serviceOrder {s : State} {d : Nat} {a : Axis} :
    a ∈ serviceOrder d s.registeredAxes ↔ s.isRegistered a = true :=
  (serviceOrder_perm d _).mem_iff.trans mem_registeredAxes

theorem serviceOrder_nodup (s : State) (d : Nat) : (serviceOrder d s.registeredAxes).Nodup :=
  (serviceOrder_perm d _).nodup_iff.2 (registeredAxes_nodup s)

/-- All that the handler of one axis can do to the state when it answers one. -/
theorem pollAxis_eq_next {a : Axis} {s t : State} :
    pollAxis a s = .next t ↔ ∃ w, pollWork s.params s.now ⟨s.ax a, []⟩ = .ok w ∧ t = s.commit a w :=
  onAxis_eq_next

/-- A gap is some number of TICKs and the removal of that number from the schedule of gaps. -/
theorem gap_eq (s : State) : ∃ k, gap s = ticks k { s with gapTicks := s.gapTicks.tail } := by
  cases h : s.gapTicks with
  | nil => exact ⟨0, by simp only [gap, h, ticks, List.tail_nil]; rw [← h]⟩
  | cons n rest => exact ⟨n, by simp [gap, h]⟩

theorem gap_none {s : State} (h : s.gapTicks = []) : gap s = s := by simp [gap, h]

@[simp] theorem gap_ax (s : State) (a : Axis) : (gap s).ax a = s.ax a := by
  obtain ⟨k, hk⟩ := gap_eq s; rw [hk, ticks_ax]; rfl
@[simp] theorem gap_params (s : State) : (gap s).params = s.params := by
  obtain ⟨k, hk⟩ := gap_eq s; rw [hk, ticks_params]
@[simp] theorem gap_trace (s : State) : (gap s).trace = s.trace := by
  obtain ⟨k, hk⟩ := gap_eq s; rw [hk, ticks_trace]
@[simp] theorem gap_registered (s : State) : (gap s).registered = s.registered := by
  obtain ⟨k, hk⟩ := gap_eq s; rw [hk, ticks_registered]
@[simp] theorem gap_arg0 (s : State) : (gap s).arg0 = s.arg0 := by
  obtain ⟨k, hk⟩ := gap_eq s; rw [hk, ticks_arg0]
@[simp] theorem gap_arg1 (s : State) : (gap s).arg1 = s.arg1 := by
  obtain ⟨k, hk⟩ := gap_eq s; rw [hk, ticks_arg1]
@[simp] theorem gap_arg2 (s : State) : (gap s).arg2 = s.arg2 := by
  obtain ⟨k, hk⟩ := gap_eq s; rw [hk, ticks_arg2]
@[simp] theorem gap_timeHiLatch (s : State) : (gap s).timeHiLatch = s.timeHiLatch := by
  obtain ⟨k, hk⟩ := gap_eq s; rw [hk, ticks_timeHiLatch]
@[simp] theorem gap_result (s : State) : (gap s).result = s.result := by
  obtain ⟨k, hk⟩ := gap_eq s; rw [hk, ticks_result]
@[simp] theorem gap_reads (s : State) : (gap s).reads = s.reads := by
  obtain ⟨k, hk⟩ := gap_eq s; rw [hk, ticks_reads]
@[simp] theorem gap_input (s : State) : (gap s).input = s.input := by
  obtain ⟨k, hk⟩ := gap_eq s; rw [hk, ticks_input]

/-- What a handler and a gap keep, a pass keeps. -/
theorem serviceAll_induct {P : State → Prop} (poll : ∀ a s t, P s → pollAxis a s = .next t → P t)
    (hgap : ∀ s, P s → P (gap s)) (l : List Axis) (s t : State) (hs : P s) (h : serviceAll l s = .next t) : P t := by
  induction l generalizing s with
  | nil => cases h; exact hs
  | cons a l ih =>
    cases l with
    | nil => exact poll a s t hs h
    | cons b l =>
      obtain ⟨u, hu, ht⟩ := andThen_eq_next.1 h
      exact ih (gap u) (hgap u (poll a s u hs hu)) ht

/-- What servicing a list does to one axis: nothing, or once what the handler does at the time it saw. -/
theorem serviceAll_ax {l : List Axis} {s t : State} (hl : l.Nodup) (h : serviceAll l s = .next t) (a : Axis) :
    t.params = s.params ∧
      ((a ∉ l ∧ t.ax a = s.ax a) ∨ (a ∈ l ∧ ∃ now w, pollWork s.params now ⟨s.ax a, []⟩ = .ok w ∧ t.ax a = w.motor)) := by
  induction l generalizing s with
  | nil => cases h; exact ⟨rfl, .inl ⟨by simp, rfl⟩⟩
  | cons b l ih =>
    obtain ⟨hb, hl'⟩ := List.nodup_cons.1 hl
    obtain ⟨w, u, hw, hu, ht⟩ : ∃ w u, pollWork s.params s.now ⟨s.ax b, []⟩ = .ok w ∧
        (u.params = s.params ∧ ∀ c, u.ax c = (s.commit b w).ax c) ∧ serviceAll l u = .next t := by
      cases l with
      | nil =>
        obtain ⟨w, hw, rfl⟩ := pollAxis_eq_next.1 h
        exact ⟨w, s.commit b w, hw, ⟨rfl, fun _ => rfl⟩, rfl⟩
      | cons c l =>
        obtain ⟨v, hv, ht⟩ := andThen_eq_next.1 h
        obtain ⟨w, hw, rfl⟩ := pollAxis_eq_next.1 hv
        exact ⟨w, gap _, hw, ⟨by simp, fun _ => by simp⟩, ht⟩
    obtain ⟨hp, hax⟩ := ih hl' ht
    refine ⟨hp.trans hu.1, ?_⟩
    rw [hu.1, hu.2 a] at hax
    by_cases hab : a = b
    · subst hab
      rcases hax with ⟨-, hax⟩ | ⟨hm, -⟩
      · exact .inr ⟨by simp, s.now, w, hw, by simpa using hax⟩
      · exact absurd hm hb
    · simpa [State.commit_ax_ne _ _ hab, hab] using hax

/-- All that POLLALL can do when it answers a next state. -/
theorem execPollall_eq_next {s t : State} :
    execPollall s = .next t ↔
      ∃ u, serviceAll (serviceOrder s.draws s.registeredAxes) { s with draws := s.draws + 1 } = .next u ∧
        t = finish .pollall codeOk u := by
  unfold execPollall
  rw [andThen_eq_next]
  constructor
  · rintro ⟨u, hu, ht⟩; cases ht; exact ⟨u, hu, rfl⟩
  · rintro ⟨u, hu, rfl⟩; exact ⟨u, hu, rfl⟩

/-- What POLLALL does to one axis: nothing to an unregistered one, and to a registered one once what the handler does at the
time it saw (44_registry R183). -/
theorem execPollall_ax {s t : State} (h : execPollall s = .next t) (a : Axis) :
    t.params = s.params ∧
      ((s.isRegistered a = false ∧ t.ax a = s.ax a) ∨
       (s.isRegistered a = true ∧ ∃ now w, pollWork s.params now ⟨s.ax a, []⟩ = .ok w ∧ t.ax a = w.motor)) := by
  obtain ⟨u, hu, rfl⟩ := execPollall_eq_next.1 h
  obtain ⟨hp, hax⟩ := serviceAll_ax (serviceOrder_nodup s s.draws) hu a
  simp only [mem_serviceOrder, Bool.not_eq_true] at hax
  exact ⟨hp, hax⟩

end Sys2Proof.Machine
end

