-- ==== Sys2Proof/Laws/Step.lean ====
section
/-! SUPPORT. What one step can do, said once (00_scope R9). -/

namespace Sys2Proof.Machine

/-- All that a write of a register can do, given what the write of CMD does. -/
theorem regWrite_cases (run : Word → State → Out) (addr : Nat) (v : Word) (s : State) :
    (regAt addr = .arg0 ∧ regWrite run addr v s = .next { s with arg0 := v }) ∨
    (regAt addr = .arg1 ∧ regWrite run addr v s = .next { s with arg1 := v }) ∨
    (regAt addr = .arg2 ∧ regWrite run addr v s = .next { s with arg2 := v }) ∨
    (regAt addr = .cmd ∧ regWrite run addr v s = run v s) ∨
    regWrite run addr v s = .next s := by
  unfold regWrite
  cases regAt addr <;> simp

/-- What a read can change: the latch, the draw counter and the read log. -/
theorem readEffect_frame (r : Reg) (s : State) :
    readEffect r s = { s with timeHiLatch := (loadLatch r s).timeHiLatch, draws := s.draws + 1 } := by
  unfold readEffect loadLatch
  split <;> rfl

theorem loadLatch_latch (r : Reg) (s : State) :
    (loadLatch r s).timeHiLatch = s.timeHiLatch ∨
      (r = .timeUs ∧ s.params.timeWidth = .w64 ∧ (loadLatch r s).timeHiLatch = timeHigh s.timeUs) := by
  unfold loadLatch
  split
  · rename_i h; exact .inr ⟨rfl, h, rfl⟩
  · exact .inl rfl

/-- All that a step can do when it answers a next state: a TICK, a read, a write of an argument register or an ignored
write, an illegal word, or a command. `u` is the state with the event taken from the schedule. -/
theorem step_cases {s t : State} (h : step s = .next t) :
    (s.input = [] ∧ t = tick s) ∨
    ∃ e rest, s.input = e :: rest ∧
      ((e = .tick ∧ t = tick { s with input := rest }) ∨
       (∃ latch evs, (latch = s.timeHiLatch ∨ s.params.timeWidth = .w64) ∧
         t = { s with input := rest, timeHiLatch := latch, draws := s.draws + 1, reads := s.reads ++ evs }) ∨
       (∃ a0 a1 a2, (t = { s with input := rest, arg0 := a0, arg1 := a1, arg2 := a2 } ∨
         (∃ w, t = illegalWord w { s with input := rest, arg0 := a0, arg1 := a1, arg2 := a2 }) ∨
         ∃ i, exec i { s with input := rest, arg0 := a0, arg1 := a1, arg2 := a2 } = .next t))) := by
  unfold step stepWith at h
  have hw : ∀ (w : Word) (u : State), runWord exec w u = .next t →
      (∃ w, t = illegalWord w u) ∨ ∃ i, exec i u = .next t := by
    intro w u hu
    unfold runWord at hu
    split at hu
    · exact .inr ⟨_, hu⟩
    · cases hu; exact .inl ⟨w, rfl⟩
  have hrw : ∀ addr v rest, regWrite (runWord exec) addr v { s with input := rest } = .next t →
      ∃ a0 a1 a2, (t = { s with input := rest, arg0 := a0, arg1 := a1, arg2 := a2 } ∨
         (∃ w, t = illegalWord w { s with input := rest, arg0 := a0, arg1 := a1, arg2 := a2 }) ∨
         ∃ i, exec i { s with input := rest, arg0 := a0, arg1 := a1, arg2 := a2 } = .next t) := by
    intro addr v rest hr
    rcases regWrite_cases (runWord exec) addr v { s with input := rest } with
      ⟨-, h1⟩ | ⟨-, h1⟩ | ⟨-, h1⟩ | ⟨-, h1⟩ | h1 <;> rw [h1] at hr
    · cases hr; exact ⟨v, s.arg1, s.arg2, .inl rfl⟩
    · cases hr; exact ⟨s.arg0, v, s.arg2, .inl rfl⟩
    · cases hr; exact ⟨s.arg0, s.arg1, v, .inl rfl⟩
    · exact ⟨s.arg0, s.arg1, s.arg2, .inr (hw v _ hr)⟩
    · cases hr; exact ⟨s.arg0, s.arg1, s.arg2, .inl rfl⟩
  have hrd : ∀ r rest evs, t = { readEffect r { s with input := rest } with
        reads := (readEffect r { s with input := rest }).reads ++ evs } →
      ∃ latch evs, (latch = s.timeHiLatch ∨ s.params.timeWidth = .w64) ∧
         t = { s with input := rest, timeHiLatch := latch, draws := s.draws + 1, reads := s.reads ++ evs } := by
    intro r rest evs ht
    rw [readEffect_frame] at ht
    refine ⟨_, evs, ?_, ht⟩
    rcases loadLatch_latch r { s with input := rest } with h | ⟨-, h, -⟩
    · exact .inl h
    · exact .inr h
  split at h
  · exact .inl ⟨‹_›, by cases h; rfl⟩
  · rename_i e rest he
    refine .inr ⟨e, rest, he, ?_⟩
    cases e with
    | tick => exact .inl ⟨rfl, by cases h; rfl⟩
    | cmd w a0 a1 a2 => exact .inr (.inr ⟨a0, a1, a2, .inr (hw w _ h)⟩)
    | regWrite addr v => exact .inr (.inr (hrw addr v rest h))
    | regRead addr => exact .inr (.inl (hrd (regAt addr) rest _ (by cases h; rfl)))
    | busWrite byteAddr bytes =>
      simp only [runEvent, busWrite] at h
      split at h
      · exact .inr (.inr (hrw _ _ rest h))
      · cases h
    | busRead byteAddr count =>
      simp only [runEvent, busRead] at h
      split at h
      · exact .inr (.inl (hrd (regAt (byteAddr / 4)) rest _ (by cases h; rfl)))
      · cases h

end Sys2Proof.Machine
end

