-- ==== Sys2Proof/Tests/Slice0.lean ====
section
/-! SUPPORT. Tests of the model against numbers of the spec (30_encoding R91, 95_test_vectors), the smoke tests of the
well-formedness checks, and a witness for every statement that has hypotheses. -/

namespace Sys2Proof.Tests

open Sys2Proof.Machine

/-! ### Helpers -/

/-- The outcome is a next state with the property. -/
def after (o : Out) (p : State → Bool) : Bool :=
  match o with
  | .next t => p t
  | .fault _ => false
  | .refused _ => false

/-- The outcome is the fault. -/
def stopsWith (o : Out) (e : Fault) : Bool :=
  match o with
  | .fault e' => decide (e' = e)
  | .next _ => false
  | .refused _ => false

/-- The word register `addr` holds in the state. -/
def reg (s : State) (addr : Nat) : Word := regValue s (regAt addr)

/-- AXSTAT of an axis. -/
def axstat (s : State) (a : Axis) : Word := reg s (0x10 + 0x10 * a.val)

/-- The reset state with one axis's record and ARG0 given. -/
def stateWith (a : Axis) (m : Motor) (arg0 : Word) : State := { State.reset.setAx a m with arg0 := arg0 }

/-- An Idle axis after `SETSPEED 1000, 500, 25000`: `dmin = 1000`, `dmax = 2000`, `N = 5` (V20, V25). -/
def profiled : Motor :=
  { Motor.reset with minStepDelay := 1000, maxStepDelay := 2000, accelSteps := 5, speedValid := true }

/-- An Idle axis after `SETSPEED 1000, 1000, 0`: `dmin = dmax = 1000`, `N = 0` (V40). -/
def flat : Motor :=
  { Motor.reset with minStepDelay := 1000, maxStepDelay := 1000, accelSteps := 0, speedValid := true }

/-- An axis with `m`'s profile on its way in state `st` from `pos` to `target`, its next edge rising (`pulse` false) or
falling (`pulse` true); EN is on. -/
def moving (m : Motor) (st : Lifecycle) (d : Direction) (pos target : Word) (pulse : Bool) : Motor :=
  { m with state := st, direction := d, pinDir := dirLevel d, position := pos, target := target, pulseState := pulse,
           pinPwm := pulse, pinEn := true, stepDelay := 1000 }

/-- The state with the time set. -/
def atTime (t : Time) (s : State) : State := { s with timeUs := t }

/-! ### Decoding (V15, V16): the words are the spec's -/

theorem test_decode_init : decode 0x00000301 = .ok (.init 3) := by decide
theorem test_decode_add : decode 0x00000202 = .ok (.add 2) := by decide
theorem test_decode_remove : decode 0x00000003 = .ok (.remove 0) := by decide
theorem test_decode_setspeed : decode 0x00000004 = .ok (.setspeed 0) := by decide
theorem test_decode_setdir : decode 0x00001205 = .ok (.setdir 2 .ccw) := by decide
theorem test_decode_enable : decode 0x00000006 = .ok (.enable 0 false) := by decide
theorem test_decode_limen : decode 0x00001107 = .ok (.limen 1 true) := by decide
theorem test_decode_setlim : decode 0x00002108 = .ok (.setlim 1 false true) := by decide
theorem test_decode_setlim_both : decode 0x00003008 = .ok (.setlim 0 true true) := by decide
theorem test_decode_move : decode 0x00001109 = .ok (.move 1 .ccw) := by decide
theorem test_decode_moveto : decode 0x0000000A = .ok (.moveto 0) := by decide
theorem test_decode_runspeed : decode 0x0000020B = .ok (.runspeed 2) := by decide
theorem test_decode_stop : decode 0x0000100C = .ok (.stop 0 true) := by decide
theorem test_decode_stop_decel : decode 0x0000030C = .ok (.stop 3 false) := by decide
theorem test_decode_poll : decode 0x0000020D = .ok (.poll 2) := by decide
theorem test_decode_pollall : decode 0x0000000E = .ok .pollall := by decide

theorem test_decode_illegal :
    decode 0x000000FF = .error (.noSuchOpcode 0xFF) ∧ decode 0x0000000F = .error (.noSuchOpcode 0x0F) ∧
    decode 0x0000100D = .error (.maskMismatch 0x0D) ∧ decode 0x0000040D = .error (.maskMismatch 0x0D) ∧
    decode 0x00004009 = .error (.maskMismatch 0x09) ∧ decode 0x0001000D = .error (.maskMismatch 0x0D) ∧
    decode 0x80000004 = .error (.maskMismatch 0x04) := by decide

theorem test_decode_table_word :
    decodeTableWord 32 0x2208 = some (.setlim 2 false true) ∧ decodeTableWord 32 0x200C = none := by decide

/-- V16: of an illegal word only bits 13:0 are recorded. -/
theorem test_illegal_word_result :
    after (step { State.reset with input := [.regWrite 0x04 0x00004009] }) (fun t => reg t 0x08 == 0x00090002) = true := by
  decide

/-! ### Assembler text (R89, R90) -/

theorem test_assemble_pseudo :
    assemble (.halt 0) = [.regWrite 0x04 0x0000100C] ∧ assemble (.softstop 3) = [.regWrite 0x04 0x0000030C] ∧
    assemble (.disable 0) = [.regWrite 0x04 0x00000006] ∧ assemble .processall = [.regWrite 0x04 0x0000000E] ∧
    assemble (.moverel 1 (-3200)) = [.regWrite 0x05 0x00000C80, .regWrite 0x04 0x00001109] := by decide

theorem test_assemble_script : assemble (.tick 2) = [.tick, .tick] ∧ assemble (.read 0x00) = [.regRead 0x00] := by decide

/-! ### Well-formedness: one ill-formed term for each check -/

theorem test_params_well_formed : Params.wellFormed ⟨1, .w32, false⟩ = true := by decide
theorem test_params_zero_tick_refused : Params.wellFormed ⟨0, .w32, false⟩ = false := by decide
theorem test_bus_write_misaligned_refused : Event.wellFormed (.busWrite 0x11 [0, 0, 0, 0]) = false := by decide
theorem test_bus_write_short_refused : Event.wellFormed (.busWrite 0x10 [0, 0]) = false := by decide
theorem test_bus_read_misaligned_refused : Event.wellFormed (.busRead 0x12 4) = false := by decide
theorem test_bus_read_byte_refused : Event.wellFormed (.busRead 0x10 1) = false := by decide
theorem test_bus_word_accepted :
    Event.wellFormed (.busWrite 0x10 [0, 0, 0, 0]) = true ∧ Event.wellFormed (.busRead 0x10 4) = true := by decide
theorem test_line_axis_refused : Line.wellFormed (.poll 4) = false ∧ Line.wellFormed (.setdir 4 .cw) = false := by decide
theorem test_line_setspeed_operands_refused :
    Line.wellFormed (.setspeed 0 (2 ^ 32) 1 1) = false ∧ Line.wellFormed (.setspeed 0 1 (2 ^ 32) 1) = false ∧
    Line.wellFormed (.setspeed 0 1 1 (2 ^ 32)) = false ∧ Line.wellFormed (.setspeed 4 1 1 1) = false := by decide
theorem test_line_move_operand_refused :
    Line.wellFormed (.move 0 (2 ^ 32) .cw) = false ∧ Line.wellFormed (.move 4 1 .cw) = false := by decide
theorem test_line_moveto_operand_refused :
    Line.wellFormed (.moveto 0 (2 ^ 31)) = false ∧ Line.wellFormed (.moveto 0 (-2 ^ 31 - 1)) = false ∧
    Line.wellFormed (.moveto 0 (-2 ^ 31)) = true := by decide
theorem test_line_runspeed_operand_refused : Line.wellFormed (.runspeed 0 (2 ^ 31)) = false := by decide
theorem test_line_moverel_operand_refused : Line.wellFormed (.moverel 0 (-2 ^ 32)) = false := by decide
theorem test_line_well_formed : Line.wellFormed (.setspeed 3 2000 500 1000) = true := by decide

/-! ### The time base (R100, R101, V11 to V13) -/

/-- R100: TW = 32, TICK_US = 5, from 0xFFFFFFFE. -/
theorem test_tick_wraps :
    (tick { State.reset with timeUs := 0xFFFFFFFE, params := ⟨5, .w32, false⟩ }).timeUs = 0x00000003 := by decide

/-- R101: TICK_US = 400, the third TICK. -/
theorem test_tick_carries :
    let t := ticks 3 { State.reset with params := ⟨400, .w32, false⟩ }
    t.msTick = 1 ∧ t.usFrac = 200 := by decide

/-- V11: one TICK of 2500 adds two milliseconds. -/
theorem test_tick_two_milliseconds :
    let t := tick { State.reset with params := ⟨2500, .w32, false⟩ }
    t.timeUs = 2500 ∧ t.msTick = 2 ∧ t.usFrac = 500 := by decide

/-- V13. -/
theorem test_elapsed :
    elapsed .w32 0x00000100 0xFFFFFF00 = 512 ∧ elapsed .w32 0x00000100 0x00000101 = 0xFFFFFFFF := by decide

/-! ### One step of each command -/

/-- V59. -/
theorem test_init :
    let m := { moving profiled .running .ccw (-40) 0x80000000 true with limitEnabled := true, ccwLimit := true }
    after (exec (.init 3) { stateWith 3 m 0 with registered := 8 }) (fun t =>
      axstat t 3 == 0x680 && (t.ax 3).position == 0 && (t.ax 3).target == 0 && t.trace == [⟨3, .pwm, false⟩]) = true := by
  decide

/-- V55: `ADD 0` with axis 2 registered. -/
theorem test_add : after (exec (.add 0) { State.reset with registered := 4 }) (fun t => reg t 0x03 == 5) = true := by decide
/-- V55: AXSTAT of axis 2 after `ADD 2`. -/
theorem test_add_status : after (exec (.add 2) State.reset) (fun t => axstat t 2 == 0x080) = true := by decide

/-- V55. -/
theorem test_remove : after (exec (.remove 0) { State.reset with registered := 5 }) (fun t =>
    reg t 0x03 == 4 && reg t 0x08 == 0x00030000) = true := by decide

/-- V20, first row. -/
theorem test_setspeed :
    after (exec (.setspeed 0) { State.reset with arg0 := 2000, arg1 := 500, arg2 := 1000 }) (fun t =>
      reg t 0x14 == 500 && reg t 0x15 == 2000 && reg t 0x16 == 1125 && axstat t 0 == 0x800) = true := by decide
/-- V21 and V22. -/
theorem test_setspeed_stops :
    after (exec (.setspeed 2) { State.reset with arg0 := 0, arg1 := 100, arg2 := 10 })
      (fun t => reg t 0x08 == 0x02040001 && axstat t 2 == 0) = true ∧
    stopsWith (exec (.setspeed 0) { State.reset with arg0 := 2000000, arg1 := 1500000, arg2 := 1 }) .arithmeticDomain
      = true := by decide

/-- V58. -/
theorem test_setdir : after (exec (.setdir 2 .ccw) State.reset) (fun t =>
    axstat t 2 == 0x204 && t.trace == [⟨2, .dir, true⟩]) = true := by decide

/-- V58. -/
theorem test_enable : after (exec (.enable 0 true) State.reset) (fun t =>
    axstat t 0 == 0x400 && t.trace == [⟨0, .en, true⟩]) = true := by decide

/-- V58. -/
theorem test_limen : after (exec (.limen 0 true) State.reset) (fun t => axstat t 0 == 0x010) = true := by decide

/-- V58. -/
theorem test_setlim : after (exec (.setlim 1 false true) State.reset) (fun t => axstat t 1 == 0x040) = true := by decide

/-- V25. -/
theorem test_move_long : after (exec (.move 0 .cw) (stateWith 0 profiled 11)) (fun t =>
    axstat t 0 == 0xC02 && reg t 0x12 == 11 && reg t 0x13 == 2000 &&
    t.trace == [⟨0, .dir, false⟩, ⟨0, .pwm, false⟩, ⟨0, .en, true⟩]) = true := by decide
/-- V26 and V29. -/
theorem test_move_short_and_overflow :
    after (exec (.move 0 .cw) (stateWith 0 profiled 10)) (fun t => axstat t 0 == 0xC01 && reg t 0x13 == 1000) = true ∧
    stopsWith (exec (.move 0 .cw) (stateWith 0 { profiled with position := 0x7FFFFFFE } 2)) .targetOverflow = true := by
  decide

/-- V28. -/
theorem test_moveto : after (exec (.moveto 0) (stateWith 0 { profiled with position := 100, target := 100 } (-5)))
    (fun t => reg t 0x12 == -5 && axstat t 0 == 0xE06 &&
      t.trace == [⟨0, .dir, true⟩, ⟨0, .pwm, false⟩, ⟨0, .en, true⟩]) = true := by decide

/-- V31. -/
theorem test_runspeed : after (exec (.runspeed 2) { State.reset with arg0 := 0xFFFFFE70 }) (fun t =>
    axstat t 2 == 0x205 && reg t 0x33 == 2500 && reg t 0x32 == 0x80000000 && t.trace == [⟨2, .dir, true⟩]) = true := by
  decide
/-- V34. -/
theorem test_runspeed_at_sentinel :
    after (exec (.runspeed 0) (stateWith 0 { Motor.reset with position := 0x7FFFFFFF, target := 0x7FFFFFFF } 5)) (fun t =>
      (t.ax 0).state == .idle && t.trace == [⟨0, .dir, false⟩, ⟨0, .pwm, false⟩]) = true := by decide

/-- V35. -/
theorem test_stop_immediate : after (exec (.stop 0 true) (stateWith 0 (moving flat .accelerating .cw 0 5 true) 0)) (fun t =>
    axstat t 0 == 0xC00 && reg t 0x12 == 0 && t.trace == [⟨0, .pwm, false⟩]) = true := by decide
/-- V36, its second example with `N = 5`: the run-out is five steps from -3. -/
theorem test_stop_decel : after (exec (.stop 0 false) (stateWith 0 (moving profiled .running .ccw (-3) 0x80000000 false) 0))
    (fun t => reg t 0x12 == -8 && (t.ax 0).state == .decelerating && t.trace == []) = true := by decide

/-- V41. -/
theorem test_poll_falling_edge :
    after (exec (.poll 0)
      (atTime 1000 (stateWith 0 { moving flat .accelerating .cw 0 5 true with lastStepTime := 500 } 0))) (fun t =>
        reg t 0x11 == 1 && reg t 0x17 == 1 && reg t 0x13 == 1000 && reg t 0x18 == 1000 && axstat t 0 == 0xC01) = true := by
  decide
/-- V52: the home limit, with the pulse high. -/
theorem test_poll_home_limit :
    after (exec (.poll 0)
      (stateWith 0 { moving flat .running .ccw 1234 0 true with limitEnabled := true, ccwLimit := true } 0)) (fun t =>
        reg t 0x11 == 0 && reg t 0x12 == 0 && (t.ax 0).state == .idle && t.trace == [⟨0, .pwm, false⟩]) = true := by
  decide

/-- R183: one registered axis, its edge due; the other active axis is not registered. -/
theorem test_pollall :
    let m := moving flat .running .cw 0 5 false
    after (exec .pollall { atTime 500 ((stateWith 0 m 0).setAx 1 m) with registered := 2 }) (fun t =>
      t.trace == [⟨1, .pwm, true⟩] && reg t 0x08 == 0x000E0000 && reg t 0x28 == 500 && reg t 0x18 == 0) = true := by
  decide
/-- V56. -/
theorem test_pollall_empty : after (exec .pollall State.reset) (fun t =>
    t.trace == [] && reg t 0x08 == 0x000E0000 && decide (t.axes = State.reset.axes)) = true := by decide

/-! ### The ramp (V20, V46) -/

/-- V20, last row: with that profile any ramp step is the fault ArithmeticDomain. -/
theorem test_ramp_outside_premise :
    let m := { profiled with minStepDelay := 15, maxStepDelay := 1000000, accelSteps := 2147352578 }
    stopsWith (exec (.poll 0) (atTime 500 (stateWith 0 (moving m .accelerating .cw 0 0x7FFFFFFF true) 0)))
      .arithmeticDomain = true := by decide

theorem test_ramp :
    let p : Profile := ⟨500, 2000, 1125⟩
    accelDelay p 1 = 1999 ∧ accelDelay p 3 = 1996 ∧ accelDelay p 1124 = 502 ∧ accelDelay p 2000 = 500 ∧
    decelDelay p 2000 = 500 ∧ decelDelay p 1124 = 501 ∧ decelDelay p 563 = 1249 ∧ decelDelay p 1 = 1998 := by decide

/-! ### Witnesses: for every statement with hypotheses, a state and operands that meet them, each clause at a boundary -/

/-- The outcome is a next state. -/
abbrev Runs (o : Out) : Prop := after o (fun _ => true) = true

theorem exists_next {o : Out} (h : Runs o) : ∃ t, o = .next t := by
  cases o with
  | next t => exact ⟨t, rfl⟩
  | fault e => simp [Runs, after] at h
  | refused r => simp [Runs, after] at h

/-- The reset state with an input schedule. -/
def fed (input : List Event) : State := { State.reset with input := input }

theorem witness_IllegalWordsWriteOnlyTheResult :
    decode 0x00000000 = .error (.noSuchOpcode 0x00) ∧ decode 0x0000000F = .error (.noSuchOpcode 0x0F) ∧
    decode 0x0000200C = .error (.maskMismatch 0x0C) := by decide

theorem witness_StepRunsTheWrittenCommand : decode 0x00001109 = .ok (.move 1 .ccw) := by decide

theorem witness_CmdIsFourRegisterWrites : ∃ t, step (fed [.cmd 0x00000301 1 2 3]) = .next t := exists_next (by decide)

theorem witness_TickAdvancesTheTimeBase :
    { State.reset with usFrac := 999 }.usFrac + State.reset.params.tickUs = 1000 * 1 + 0 ∧ 0 < 1000 := by decide

theorem witness_SilentHostLeavesTheStepToTheTick : State.reset.input = [] := by decide

theorem witness_ElapsedCountsTicksAcrossWrap :
    { State.reset with timeUs := 0xFFFFFFFF }.timeUs.toNat < 2 ^ State.reset.params.timeWidth.bits := by decide

/-- Clause by clause: no steps; one step too far; no profile; the last step that fits. -/
theorem witness_MoveStartsHaltsOrFaults :
    (State.reset.arg0.toNat = 0) ∧
    (let s := stateWith 0 { profiled with position := 0x7FFFFFFE } 2
     s.arg0.toNat ≠ 0 ∧ ¬ Representable ((s.ax 0).position.toInt + sign .cw * s.arg0.toNat)) ∧
    (let s := stateWith 0 Motor.reset 1
     s.arg0.toNat ≠ 0 ∧ Representable ((s.ax 0).position.toInt + sign .cw * s.arg0.toNat) ∧ (s.ax 0).speedValid = false) ∧
    (let s := stateWith 0 { profiled with position := 0x7FFFFFFE } 1
     s.arg0.toNat ≠ 0 ∧ Representable ((s.ax 0).position.toInt + sign .cw * s.arg0.toNat) ∧ (s.ax 0).speedValid = true) := by
  decide

theorem witness_MovetoActsAsTheEquivalentMove :
    (State.reset.arg0.toInt - (State.reset.ax 0).position.toInt = 0) ∧
    (let s := stateWith 0 Motor.reset 1
     s.arg0.toInt - (s.ax 0).position.toInt ≠ 0 ∧ (s.ax 0).speedValid = false) ∧
    (let s := stateWith 0 { profiled with position := 0x80000000 } 0x7FFFFFFF
     s.arg0.toInt - (s.ax 0).position.toInt ≠ 0 ∧ (s.ax 0).speedValid = true) := by decide

theorem witness_RunspeedStartsAContinuousRun :
    (State.reset.arg0.toInt = 0) ∧
    (let s := stateWith 0 { Motor.reset with position := 0x7FFFFFFF } 1
     s.arg0.toInt ≠ 0 ∧ 0 < s.arg0.toInt ∧ (s.ax 0).position = 0x7FFFFFFF) ∧
    (let s := stateWith 0 { Motor.reset with position := 0x80000001 } (-1)
     s.arg0.toInt ≠ 0 ∧ ¬ 0 < s.arg0.toInt ∧ (s.ax 0).position ≠ 0x80000000) := by decide

/-- Clause by clause, the last two at `N = 5` on either side of the end of the range. -/
theorem witness_SoftStopRunsOutTheRamp :
    ((State.reset.ax 0).state = .idle) ∧
    (let m := moving Motor.reset .running .cw 0 9 false
     m.state ≠ .idle ∧ m.speedValid = false) ∧
    (let m := moving flat .running .cw 0 9 false
     m.state ≠ .idle ∧ m.speedValid = true ∧ m.accelSteps = 0) ∧
    (let m := moving profiled .running .cw 0x7FFFFFFB 9 false
     m.state ≠ .idle ∧ m.speedValid = true ∧ m.accelSteps ≠ 0 ∧
       ¬ Representable (m.position.toInt + sign m.direction * m.accelSteps.toNat)) ∧
    (let m := moving profiled .running .cw 0x7FFFFFFA 9 false
     m.state ≠ .idle ∧ m.speedValid = true ∧ m.accelSteps ≠ 0 ∧
       Representable (m.position.toInt + sign m.direction * m.accelSteps.toNat)) := by decide

theorem witness_UnsetSpeedParametersFault :
    (let s := stateWith 0 Motor.reset 1
     (s.ax 0).speedValid = false ∧ s.arg0 ≠ 0 ∧ Representable ((s.ax 0).position.toInt + sign .cw * s.arg0.toNat) ∧
       s.arg0 ≠ (s.ax 0).position) ∧
    (let s := { atTime 500 (stateWith 0 (moving Motor.reset .running .cw 0 2 true) 0) with registered := 1 }
     (s.ax 0).speedValid = false ∧ (s.ax 0).state ≠ .idle ∧ s.StepCompletes 0 ∧
       ∀ b, s.isRegistered b = decide (b = 0)) := by decide

theorem witness_LimitFlagsDoNotGateMotionCommands :
    (∃ d, Instr.move 0 d = .move 0 d) ∨ Instr.move 0 .cw = .moveto 0 ∨ Instr.move 0 .cw = .runspeed 0 ∨
      ∃ f, Instr.move 0 .cw = .stop 0 f := .inl ⟨.cw, rfl⟩

theorem witness_RegistrationDoesNotGateCommands :
    Instr.poll 0 ≠ .pollall ∧ (∀ a, Instr.poll 0 ≠ .add a) ∧ ∀ a, Instr.poll 0 ≠ .remove a := by decide

theorem witness_CommandsFollowTheTransitionTable :
    Runs (exec (.move 0 .cw) (stateWith 0 profiled 11)) ∧ Runs (exec (.moveto 0) (stateWith 0 profiled 10)) ∧
    Runs (exec (.runspeed 0) (stateWith 0 Motor.reset 1)) ∧ Runs (exec (.stop 0 true) State.reset) ∧
    Runs (exec (.stop 0 false) (stateWith 0 (moving flat .running .cw 0 9 false) 0)) ∧
    Runs (exec (.setdir 0 .ccw) State.reset) ∧ Runs (exec (.init 0) State.reset) := by decide

theorem witness_PollOfAnIdleAxisDoesNothing : (State.reset.ax 0).state = .idle := by decide

theorem witness_PollAtALimitHaltsAndHomes :
    (let m := { moving flat .running .cw 0 9 false with limitEnabled := true, cwLimit := true }
     m.state ≠ .idle ∧ m.AtLimit) ∧
    (let m := { moving flat .running .ccw 0 9 false with limitEnabled := true, ccwLimit := true }
     m.state ≠ .idle ∧ m.AtLimit) := by decide

/-- One microsecond too early, and just in time. -/
theorem witness_PollMakesOneEdgeExactlyWhenDue :
    (let s := atTime 499 (stateWith 0 (moving flat .running .cw 0 9 false) 0)
     (s.ax 0).state ≠ .idle ∧ ¬ (s.ax 0).AtLimit ∧ s.sinceEdge 0 < (s.ax 0).stepDelay.toNat / 2) ∧
    (let s := atTime 500 (stateWith 0 (moving flat .running .cw 0 9 false) 0)
     (s.ax 0).state ≠ .idle ∧ ¬ (s.ax 0).AtLimit ∧ (s.ax 0).stepDelay.toNat / 2 ≤ s.sinceEdge 0 ∧
       Runs (exec (.poll 0) s)) := by decide

theorem witness_PollRaisesThePulse :
    let s := atTime 500 (stateWith 0 (moving flat .running .cw 0 9 false) 0)
    s.EdgeAt 0 ∧ (s.ax 0).pulseState = false := by decide

theorem witness_PollReachesTheTarget :
    let s := atTime 500 (stateWith 0 (moving flat .running .cw 8 9 true) 0)
    s.EdgeAt 0 ∧ (s.ax 0).pulseState = true ∧ (s.ax 0).landing = (s.ax 0).target.toInt := by decide

theorem witness_PollStepsWhileAccelerating :
    let s := atTime 500 (stateWith 0 (moving profiled .accelerating .cw 7 9 true) 0)
    s.StepCompletes 0 ∧ (s.ax 0).speedValid = true ∧ (s.ax 0).state = .accelerating ∧
      (s.ax 0).accelCount.toNat < 2 ^ 32 - 1 ∧ (s.ax 0).RampInDomain := by decide

theorem witness_PollStepsWhileRunning :
    let s := atTime 500 (stateWith 0 (moving profiled .running .ccw 0x80000002 0x80000000 true) 0)
    s.StepCompletes 0 ∧ (s.ax 0).speedValid = true ∧ (s.ax 0).state = .running := by decide

theorem witness_PollStepsWhileDecelerating :
    let s := atTime 500 (stateWith 0 (moving profiled .decelerating .cw 7 9 true) 0)
    s.StepCompletes 0 ∧ (s.ax 0).speedValid = true ∧ (s.ax 0).state = .decelerating ∧
      ((s.ax 0).maxStepDelay.toNat - (s.ax 0).minStepDelay.toNat) * (s.ax 0).accelSteps.toNat < 2 ^ 32 := by decide

/-- The smallest product outside the premise; and one step of ramp length whose count has run past it to the smallest
product that does not fit. -/
theorem witness_RampStepsOutsideThePremiseFault :
    (let m := { profiled with minStepDelay := 0, maxStepDelay := 0x10000, accelSteps := 0x10000 }
     let s := atTime 500 (stateWith 0 (moving m .decelerating .cw 7 9 true) 0)
     s.StepCompletes 0 ∧ (s.ax 0).speedValid = true ∧
       ((s.ax 0).state = .accelerating ∨ (s.ax 0).state = .decelerating) ∧
       2 ^ 32 ≤ ((s.ax 0).maxStepDelay.toNat - (s.ax 0).minStepDelay.toNat) * (s.ax 0).accelSteps.toNat) ∧
    (let m := { profiled with minStepDelay := 0, maxStepDelay := 0x10000, accelSteps := 1, accelCount := 0xFFFF }
     let s := atTime 500 (stateWith 0 (moving m .accelerating .cw 7 9 true) 0)
     s.StepCompletes 0 ∧ (s.ax 0).speedValid = true ∧ (s.ax 0).state = .accelerating ∧ (s.ax 0).accelSteps.toNat ≠ 0 ∧
       (s.ax 0).accelCount.toNat < 2 ^ 32 - 1 ∧
       2 ^ 32 ≤ ((s.ax 0).maxStepDelay.toNat - (s.ax 0).minStepDelay.toNat) * ((s.ax 0).accelCount.toNat + 1)) := by
  decide

theorem witness_PositionOverflowFaults :
    let s := atTime 500 (stateWith 0 (moving profiled .running .cw 0x7FFFFFFF 9 true) 0)
    s.EdgeAt 0 ∧ (s.ax 0).pulseState = true ∧ ¬ Representable (s.ax 0).landing := by decide

theorem witness_AccelerationRampFallsFromMaxToMin :
    (let p : Profile := ⟨1000, 1000, 0⟩; p.dmin ≤ p.dmax ∧ p.n = 0) ∧
    (let p : Profile := ⟨500, 2000, 1125⟩; p.dmin ≤ p.dmax ∧ p.n ≠ 0 ∧ p.n ≤ 1125) := by decide

theorem witness_DecelerationRampRisesAsTheDistanceShrinks :
    (let p : Profile := ⟨1000, 1000, 0⟩; p.dmin ≤ p.dmax ∧ p.n = 0) ∧
    (let p : Profile := ⟨500, 2000, 1125⟩; p.dmin ≤ p.dmax ∧ p.n ≠ 0 ∧ p.n ≤ 1125 ∧ 1 ≤ 1) := by decide

theorem witness_StepDelayStaysInTheProfile :
    let s := { atTime 500 (stateWith 0 (moving profiled .running .cw 0 0x7FFFFFFF true) 0) with params := ⟨1, .w32, false⟩ }
    s.Inv ∧ s.StepCompletes 0 ∧
      ¬ ((s.ax 0).state = .running ∧ s.params.runspeedHold = true ∧
          ((s.ax 0).target = 0x7FFFFFFF ∨ (s.ax 0).target = 0x80000000)) ∧
      Runs (exec (.poll 0) s) := by decide

theorem witness_PollsNeverReturnToAnEarlierPhase :
    let s := atTime 500 (stateWith 0 (moving profiled .decelerating .cw 7 9 true) 0)
    Runs (exec (.poll 0) s) ∧ (s.ax 0).state = .decelerating ∧ Runs (exec .pollall { s with registered := 1 }) := by decide

theorem witness_PollsDriveOnlyPwm :
    let s := atTime 500 (stateWith 0 (moving profiled .running .cw 7 9 false) 0)
    Runs (exec (.poll 0) s) ∧ Runs (exec .pollall { s with registered := 1 }) := by decide

/-- Rejected; accepted with the longest profile of acceleration 1 that fits; and the next longer one, which does not. -/
theorem witness_SetspeedWritesTheProfileOrRejects :
    (let maxSpeed := 5; let startSpeed := 6
     maxSpeed = 0 ∨ startSpeed = 0 ∨ maxSpeed < startSpeed) ∧
    (2 ^ 32 - 1 < max 1 ((92683 - 1) * (92683 - 1) / (2 * 1)) ∧ ¬ (92683 = 0 ∨ 1 = 0 ∨ 92683 < 1)) ∧
    (max 1 ((92682 - 1) * (92682 - 1) / (2 * 1)) ≤ 2 ^ 32 - 1 ∧ ¬ (92682 = 0 ∨ 1 = 0 ∨ 92682 < 1)) := by decide

theorem witness_AcceptedSetspeedOrdersTheProfile :
    let s := { State.reset with arg0 := 3, arg1 := 2, arg2 := 1 }
    after (exec (.setspeed 0) s) (fun t => t.result.code == 0) = true ∧ 0 < s.arg2.toNat := by decide

/-- Two registered axes that no POLL can fault. -/
theorem witness_PollallServicesEachRegisteredAxisOnce :
    let s := { (stateWith 0 (moving profiled .running .cw 7 9 true) 0) with registered := 3 }
    s.isRegistered 0 = true ∧ s.isRegistered 1 = true ∧ ∀ a, s.isRegistered a = true → (s.ax a).PollSafe := by decide

/-- An axis with no delay, the pulse high, a step to complete and no profile. -/
def faulting : Motor := { moving Motor.reset .running .cw 0 9 true with stepDelay := 0 }

theorem faulting_pollWork (p : Params) (t : Time) : pollWork p t ⟨faulting, []⟩ = .error .unsetParameter := by
  have hd : faulting.edgeDue p.timeWidth t = true := decide_eq_true (Nat.zero_le _)
  have hl : (faulting.lowered t).landing ≠ (faulting.lowered t).target.toInt := by
    show faulting.landing ≠ faulting.target.toInt
    decide
  have hr : Representable (faulting.lowered t).landing := by
    show Representable faulting.landing
    decide
  rw [pollWork_fall (w := ⟨faulting, []⟩) (by decide) (by decide) hd (by decide), completeStep_rule hr hl,
    stepRule_unset rfl]

/-- A registered axis whose every POLL faults. -/
theorem witness_PollallServicesEachRegisteredAxisOnce_faulting :
    let s := { stateWith 0 faulting 0 with registered := 1 }
    s.isRegistered 0 = true ∧ ∀ now u, exec (.poll 0) { s with timeUs := now } ≠ .next u := by
  refine ⟨by decide, fun now u h => ?_⟩
  obtain ⟨w, hw, -⟩ := commandOnAxis_eq_next.1 h
  have hf : pollWork State.reset.params now ⟨faulting, []⟩ = .ok w := hw
  rw [faulting_pollWork] at hf
  cases hf

theorem witness_RegisterMapContents :
    ((stateWith 0 profiled 0).ax 0).speedValid = true ∧ (0x09 ≤ 0x09 ∧ 0x0F ≤ 0x0F) ∧
    (0x10 + 0xA ≤ 0x1A ∧ 0x1F ≤ 0x10 + 0xF) ∧ 0x50 ≤ 0x50 := by decide

theorem witness_ReadsChangeNothingButTheLatch :
    (State.reset.ax 3).speedValid = false ∧ 0x46 ∈ [0x14 + 0x10 * 3, 0x15 + 0x10 * 3, 0x16 + 0x10 * 3] := by decide

theorem witness_WritesReachTheArgumentRegistersAndTheCommandPort :
    decode 0x0000000E = .ok .pollall ∧ decode 0x0000010E = .error (.maskMismatch 0x0E) ∧
    0x03 ∉ [0x04, 0x05, 0x06, 0x07] ∧ 0x08 ∉ [0x04, 0x05, 0x06, 0x07] := by decide

theorem witness_TimeReadsThroughTheLatchAreConsistent :
    State.reset.params.timeWidth = .w32 ∧
    (let s := { State.reset with params := ⟨1, .w64, false⟩, timeUs := 0x00000001FFFFFFFF }
     s.params.timeWidth = .w64 ∧ Runs (step { s with input := [.regRead 0x00] })) := by decide

theorem witness_ByteBusIsLittleEndianAndWordOnly :
    State.reset.Returns 0x05 0 ∧ ¬ (0x11 % 4 = 0 ∧ [0#8, 0#8, 0#8, 0#8].length = 4) ∧
    ¬ (0x10 % 4 = 0 ∧ [0#8, 0#8].length = 4) ∧ ¬ (0x12 % 4 = 0 ∧ 4 = 4) ∧ ¬ (0x10 % 4 = 0 ∧ 1 = 4) :=
  ⟨⟨_, rfl, rfl⟩, by decide⟩

theorem witness_EveryStepKeepsTheInvariant :
    let s := { atTime 500 (stateWith 0 (moving profiled .running .cw 7 9 true) 0) with input := [.regWrite 0x04 0x0D] }
    s.Inv ∧ Runs (step s) := by decide

/-- A step that counts, one that homes, and one that initialises, each from a position other than the one it leaves. -/
theorem witness_PositionMovesByOneOrToZero :
    (let s := { atTime 500 (stateWith 0 (moving profiled .running .cw 7 9 true) 0) with input := [.regWrite 0x04 0x0D] }
     after (step s) (fun t => (t.ax 0).position == 8) = true) ∧
    (let m := { moving flat .running .ccw 1234 0 true with limitEnabled := true, ccwLimit := true }
     let s := { stateWith 0 m 0 with input := [.busWrite 0x10 [0x0E, 0, 0, 0]], registered := 1 }
     after (step s) (fun t => (t.ax 0).position == 0) = true) ∧
    (let s := { stateWith 0 { Motor.reset with position := 7, target := 7 } 0 with input := [.regWrite 0x04 0x01] }
     after (step s) (fun t => (t.ax 0).position == 0) = true) := by decide

theorem witness_LatchesFollowTheTrace :
    State.reset.LatchesFollowTrace ∧ Runs (step (fed [.regWrite 0x04 0x1205])) :=
  ⟨by intro a r; revert a; cases r <;> decide, by decide⟩

theorem witness_CommandsWriteOnlyTheirFields :
    Runs (exec (.move 0 .cw) (stateWith 0 profiled 11)) ∧ Runs (exec .pollall State.reset) := by decide

theorem witness_CommandsTouchOnlyTheirAxis :
    axisOf (.move 0 .cw) = some 0 ∧ Runs (exec (.move 0 .cw) (stateWith 0 profiled 11)) := by decide

theorem witness_EachCommandProducesOnlyItsResultCodes :
    Runs (exec (.setspeed 0) State.reset) ∧ Runs (exec .pollall State.reset) ∧
    decode 0x0000200C = .error (.maskMismatch 0x0C) ∧ Runs (step (fed [.regWrite 0x04 0x0000200C])) := by decide

/-! Runs of phase edges, each made at the moment it is due. -/

/-- The state at the moment the next edge of an axis is due. -/
def whenDue (a : Axis) (s : State) : State :=
  atTime ((s.ax a).lastStepTime + BitVec.ofNat 64 ((s.ax a).stepDelay.toNat / 2)) s

/-- `n` services of an axis by the command `i`, each when due, finding the axis active and making an edge. -/
def edgesWhenDue (i : Instr) (a : Axis) : Nat → State → Option State
  | 0, s => some s
  | n + 1, s =>
    match exec i (whenDue a s) with
    | .next t =>
      if (s.ax a).state ≠ .idle ∧ (t.ax a).pulseState ≠ (s.ax a).pulseState then edgesWhenDue i a n t else none
    | .fault _ => none
    | .refused _ => none

theorem pollRun_of_edgesWhenDue {i : Instr} {a : Axis} {n : Nat} {s t : State} (hi : i = .poll a ∨ i = .pollall)
    (h : edgesWhenDue i a n s = some t) : PollRun a n s t := by
  induction n generalizing s with
  | zero => cases h; exact .done _
  | succ n ih =>
    simp only [edgesWhenDue] at h
    split at h
    · split at h
      · rename_i hx hc
        exact .other (s' := whenDue a s) rfl rfl (.edge hi hc.1 hx hc.2 (ih h))
      · cases h
    · cases h
    · cases h

/-- A run of `n` edges of axis 0 after a MOVE exists when the computation of it, by the command `i`, succeeds. -/
theorem moveRun (i : Instr) (hi : i = .poll 0 ∨ i = .pollall) {d : Direction} {s : State} {n : Nat}
    (h : after (exec (.move 0 d) s) (fun s0 => !decide (s0.ax 0).AtLimit && (edgesWhenDue i 0 n s0).isSome) = true) :
    ∃ s0 t, exec (.move 0 d) s = .next s0 ∧ ¬ (s0.ax 0).AtLimit ∧ PollRun 0 n s0 t := by
  cases ho : exec (.move 0 d) s with
  | next s0 =>
    rw [ho] at h
    simp only [after, Bool.and_eq_true, Bool.not_eq_true', decide_eq_false_iff_not] at h
    obtain ⟨t, ht⟩ := Option.isSome_iff_exists.1 h.2
    exact ⟨s0, t, rfl, h.1, pollRun_of_edgesWhenDue hi ht⟩
  | fault e => rw [ho] at h; simp [after] at h
  | refused r => rw [ho] at h; simp [after] at h

/-- `dmin = 1000`, `dmax = 2000`, `N = 1`. -/
def oneStepRamp : Motor := { profiled with accelSteps := 1 }

/-- Axis 0 registered. -/
def registered0 (s : State) : State := { s with registered := 1 }

/-- A MOVE of one step after one POLL and after both; and after one POLLALL. -/
theorem witness_MoveCompletesAfterTwiceItsStepsInEdges :
    (let s := stateWith 0 profiled 1
     s.arg0 ≠ 0 ∧ ((s.ax 0).numbers.dmax - (s.ax 0).numbers.dmin) * (s.ax 0).numbers.n < 2 ^ 32) ∧
    (∃ s0 t, exec (.move 0 .cw) (stateWith 0 profiled 1) = .next s0 ∧ ¬ (s0.ax 0).AtLimit ∧ PollRun 0 1 s0 t) ∧
    (∃ s0 t, exec (.move 0 .cw) (stateWith 0 profiled 1) = .next s0 ∧ ¬ (s0.ax 0).AtLimit ∧ PollRun 0 2 s0 t) ∧
    (∃ s0 t, exec (.move 0 .cw) (registered0 (stateWith 0 profiled 1)) = .next s0 ∧ ¬ (s0.ax 0).AtLimit ∧
      PollRun 0 2 s0 t) :=
  ⟨by decide, moveRun (.poll 0) (.inl rfl) (by decide), moveRun (.poll 0) (.inl rfl) (by decide),
    moveRun .pollall (.inr rfl) (by decide)⟩

/-- A MOVE of three steps with `N = 1`: before the first step, after it, and after the second, so in each phase. A MOVE of
two steps with `N = 0`, before and after its first step. And one to a sentinel with RUNSPEED_HOLD. -/
theorem witness_LongMoveFollowsTheTrapezoid :
    (let s := stateWith 0 oneStepRamp 3
     2 * (s.ax 0).numbers.n < s.arg0.toNat ∧ 2 < s.arg0.toNat) ∧
    (let s := stateWith 0 flat 2
     2 * (s.ax 0).numbers.n < s.arg0.toNat ∧ 1 < s.arg0.toNat) ∧
    (∃ s0 t, exec (.move 0 .cw) (stateWith 0 oneStepRamp 3) = .next s0 ∧ ¬ (s0.ax 0).AtLimit ∧ PollRun 0 (2 * 0) s0 t) ∧
    (∃ s0 t, exec (.move 0 .cw) (stateWith 0 oneStepRamp 3) = .next s0 ∧ ¬ (s0.ax 0).AtLimit ∧ PollRun 0 (2 * 1) s0 t) ∧
    (∃ s0 t, exec (.move 0 .cw) (stateWith 0 oneStepRamp 3) = .next s0 ∧ ¬ (s0.ax 0).AtLimit ∧ PollRun 0 (2 * 2) s0 t) ∧
    (∃ s0 t, exec (.move 0 .cw) (stateWith 0 flat 2) = .next s0 ∧ ¬ (s0.ax 0).AtLimit ∧ PollRun 0 (2 * 1) s0 t) ∧
    (let s := { stateWith 0 { oneStepRamp with position := 0x7FFFFFFC } 3 with params := ⟨1, .w32, true⟩ }
     ∃ s0 t, exec (.move 0 .cw) s = .next s0 ∧ ¬ (s0.ax 0).AtLimit ∧ PollRun 0 (2 * 2) s0 t) :=
  ⟨by decide, by decide, moveRun (.poll 0) (.inl rfl) (by decide), moveRun (.poll 0) (.inl rfl) (by decide),
    moveRun (.poll 0) (.inl rfl) (by decide), moveRun (.poll 0) (.inl rfl) (by decide),
    moveRun (.poll 0) (.inl rfl) (by decide)⟩

/-- A MOVE of two steps with `N = 1`: Running before the first step, Decelerating after it. -/
theorem witness_ShortMoveStartsAtCruiseSpeed :
    (let s := stateWith 0 oneStepRamp 2
     0 < s.arg0.toNat ∧ s.arg0.toNat ≤ 2 * (s.ax 0).numbers.n ∧ 1 < s.arg0.toNat) ∧
    (∃ s0 t, exec (.move 0 .cw) (stateWith 0 oneStepRamp 2) = .next s0 ∧ ¬ (s0.ax 0).AtLimit ∧ PollRun 0 (2 * 0) s0 t) ∧
    (∃ s0 t, exec (.move 0 .cw) (stateWith 0 oneStepRamp 2) = .next s0 ∧ ¬ (s0.ax 0).AtLimit ∧ PollRun 0 (2 * 1) s0 t) :=
  ⟨by decide, moveRun (.poll 0) (.inl rfl) (by decide), moveRun (.poll 0) (.inl rfl) (by decide)⟩

end Sys2Proof.Tests
end

/-! The statements of 00_scope: the silent host (R8), the frame of a command on one axis (R6), and pin latches that follow the
trace (R10). A command on an axis is inverted once, in `exec_eq_next_of_axis`; both frame and latches are read off it. -/

namespace Sys2Proof.Machine

/-! ### The silent host -/

theorem step_of_input_nil {s : State} (h : s.input = []) : step s = .next (tick s) := by
  simp only [step, stepWith, h]

theorem step_of_input_tick (s : State) (rest : List Event) :
    step { s with input := .tick :: rest } = .next (tick { s with input := rest }) := rfl

/-- Settles O7: both steps are a TICK of the same state. -/
theorem silentHostLeavesTheStepToTheTick : Obligations.SilentHostLeavesTheStepToTheTick := by
  unfold Obligations.SilentHostLeavesTheStepToTheTick
  intro s h
  rw [step_of_input_nil h, step_of_input_tick, ← h]

/-! ### The level a pin has after some events -/

/-- The level of role `r` after the pin events `evs` of its axis, when it was `l` before them. -/
def levelAfter (r : PinRole) (l : Level) (evs : List (PinRole × Level)) : Level :=
  evs.foldl (fun l e => if e.1 = r then e.2 else l) l

@[simp] theorem levelAfter_nil (r : PinRole) (l : Level) : levelAfter r l [] = l := rfl

@[simp] theorem levelAfter_append (r : PinRole) (l : Level) (x y : List (PinRole × Level)) :
    levelAfter r l (x ++ y) = levelAfter r (levelAfter r l x) y := List.foldl_append

@[simp] theorem levelAfter_singleton (r : PinRole) (l : Level) (e : PinRole × Level) :
    levelAfter r l [e] = if e.1 = r then e.2 else l := rfl

theorem lastLevel_concat (trace : List PinEvent) (e : PinEvent) (a : Axis) (r : PinRole) :
    lastLevel (trace ++ [e]) a r = if e.axis = a ∧ e.role = r then e.level else lastLevel trace a r := by
  by_cases h : e.axis = a ∧ e.role = r <;> simp [lastLevel, List.filter_append, h]

theorem eventsOf_singleton (a : Axis) (e : PinEvent) :
    eventsOf a [e] = if e.axis = a then [(e.role, e.level)] else [] := by
  by_cases h : e.axis = a <;> simp [eventsOf, h]

/-- The last level in the trace depends on the events of the axis alone, and starts from 0. -/
theorem lastLevel_eq_levelAfter (trace : List PinEvent) (a : Axis) (r : PinRole) :
    lastLevel trace a r = levelAfter r false (eventsOf a trace) := by
  induction trace using List.reverseRecOn with
  | nil => rfl
  | append_singleton trace e ih =>
    rw [lastLevel_concat, ih, eventsOf_append, levelAfter_append, eventsOf_singleton]
    by_cases ha : e.axis = a <;> simp [ha]

/-! ### Work that changes latches only by events -/

theorem Motor.pin_congr {m m' : Motor} (hpwm : m'.pinPwm = m.pinPwm) (hdir : m'.pinDir = m.pinDir)
    (hen : m'.pinEn = m.pinEn) (r : PinRole) : m'.pin r = m.pin r := by
  cases r with
  | pwm => exact hpwm
  | dir => exact hdir
  | en => exact hen

/-- Each latch of the work's record is what the work's events made of the latch of `m`, the record the work began with. -/
def Work.PinsFollow (m : Motor) (w : Work) : Prop := ∀ r, w.motor.pin r = levelAfter r (m.pin r) w.events

theorem Work.pinsFollow_start (m : Motor) : Work.PinsFollow m ⟨m, []⟩ := fun _ => rfl

section pinsFollow
variable {m : Motor} {w : Work}

theorem Work.PinsFollow.modify {f : Motor → Motor} (h : w.PinsFollow m) (hf : ∀ r, (f w.motor).pin r = w.motor.pin r) :
    (w.modify f).PinsFollow m := fun r => (hf r).trans (h r)

theorem Work.PinsFollow.setPin (h : w.PinsFollow m) (r : PinRole) (l : Level) : (w.setPin r l).PinsFollow m := by
  intro q
  rw [Work.setPin_motor, Work.setPin_events, levelAfter_append, levelAfter_singleton]
  by_cases hq : q = r
  · simp [hq]
  · rw [Motor.pin_latch_ne _ _ hq, h q, if_neg (Ne.symm hq)]

theorem Work.PinsFollow.halt (h : w.PinsFollow m) : w.halt.PinsFollow m :=
  (h.modify (Motor.pin_congr rfl rfl rfl)).setPin .pwm false

end pinsFollow

/-- A piece of work that, when it does not fault, changes no latch without its event and emits no event without its latch. -/
def DrivesPinsByEvents (f : Work → Except Fault Work) : Prop :=
  ∀ ⦃m : Motor⦄ ⦃w w' : Work⦄, w.PinsFollow m → f w = .ok w' → w'.PinsFollow m

theorem startMove_pinsFollow {m : Motor} {w : Work} (hw : w.PinsFollow m) (now : Time) (steps : Nat) (dir : Direction)
    (target : Int) (p : Profile) : (startMove now steps dir target p w).PinsFollow m := by
  unfold startMove
  have aimed := (hw.modify (f := fun m => { m with target := positionWord target, direction := dir })
    (Motor.pin_congr rfl rfl rfl)).setPin .dir dir.level
  have lowered := (aimed.modify (f := fun m => { m with pulseState := false })
    (Motor.pin_congr rfl rfl rfl)).setPin .pwm false
  have enabled := (lowered.modify (f := fun m => { m with lastStepTime := now, accelCount := 0 })
    (Motor.pin_congr rfl rfl rfl)).setPin .en true
  exact enabled.modify fun r => by split <;> exact Motor.pin_congr rfl rfl rfl r

theorem moveWork_drivesPinsByEvents (now : Time) (steps : Nat) (dir : Direction) :
    DrivesPinsByEvents (moveWork now steps dir) := by
  intro m w w' hw h
  simp only [moveWork] at h
  split at h
  · cases h; exact hw.halt
  split at h
  · split at h
    · cases h; exact startMove_pinsFollow hw _ _ _ _ _
    · cases h
  · cases h

theorem movetoWork_drivesPinsByEvents (now : Time) (pos : Int) : DrivesPinsByEvents (movetoWork now pos) := by
  intro m w w' hw h
  simp only [movetoWork] at h
  split at h
  · cases h; exact hw.halt
  split at h
  · exact moveWork_drivesPinsByEvents _ _ _ hw h
  · exact moveWork_drivesPinsByEvents _ _ _ hw h

theorem runspeedWork_drivesPinsByEvents (v : Int) : DrivesPinsByEvents (runspeedWork v) := by
  intro m w w' hw h
  have turned := (hw.modify (f := fun m => { m with direction := speedDirection v })
    (Motor.pin_congr rfl rfl rfl)).setPin .dir (speedDirection v).level
  simp only [runspeedWork] at h
  split at h
  · cases h; exact hw.halt
  split at h
  · cases h; exact turned.halt
  · cases h; exact turned.modify (Motor.pin_congr rfl rfl rfl)

theorem softStopWork_drivesPinsByEvents : DrivesPinsByEvents softStopWork := by
  intro m w w' hw h
  simp only [softStopWork] at h
  split at h
  · cases h; exact hw
  split at h
  · cases h
  split at h
  · cases h; exact hw.halt
  split at h
  · cases h; exact hw.modify (Motor.pin_congr rfl rfl rfl)
  · cases h

theorem stopWork_drivesPinsByEvents (immediate : Bool) : DrivesPinsByEvents (stopWork immediate) := by
  intro m w w' hw h
  cases immediate with
  | true => cases h; exact hw.halt
  | false => exact softStopWork_drivesPinsByEvents hw h

theorem limitStop_pinsFollow {m : Motor} {w : Work} (hw : w.PinsFollow m) : (limitStop w).PinsFollow m := by
  unfold limitStop
  split
  · exact hw.halt
  · exact hw.halt.modify (Motor.pin_congr rfl rfl rfl)

/-- Counting a step drives no pin. -/
theorem completeStep_pin {hold : Bool} {m m' : Motor} (h : completeStep hold m = .ok m') (r : PinRole) :
    m'.pin r = m.pin r := by
  obtain ⟨-, ⟨-, rfl⟩ | ⟨-, hrule⟩⟩ := completeStep_cases h
  · exact Motor.pin_congr rfl rfl rfl r
  · rw [stepRule_frame hrule]
    exact Motor.pin_congr rfl rfl rfl r

theorem pollWork_drivesPinsByEvents (p : Params) (t : Time) : DrivesPinsByEvents (pollWork p t) := by
  intro m w w' hw h
  obtain ⟨-, rfl⟩ | ⟨-, -, rfl⟩ | ⟨-, -, -, rfl⟩ | ⟨-, -, -, -, rfl⟩ | ⟨-, -, -, -, m', hstep, rfl⟩ := pollWork_cases h
  · exact hw
  · exact limitStop_pinsFollow hw
  · exact hw
  · exact (hw.modify (f := fun m => { m with lastStepTime := t, pulseState := true })
      (Motor.pin_congr rfl rfl rfl)).setPin .pwm true
  · have lowered := (hw.modify (f := fun m => { m with lastStepTime := t, pulseState := false })
      (Motor.pin_congr rfl rfl rfl)).setPin .pwm false
    exact fun r => (completeStep_pin hstep r).trans (lowered r)

theorem setSpeedWork_drivesPinsByEvents (maxSpeed startSpeed accel : Nat) :
    DrivesPinsByEvents (setSpeedWork maxSpeed startSpeed accel) := by
  intro m w w' hw h
  unfold setSpeedWork at h
  split at h
  · cases h; exact hw.modify (Motor.pin_congr rfl rfl rfl)
  · cases h

/-- Work that cannot fault need only keep the latches on its events. -/
theorem drivesPinsByEvents_ok {g : Work → Work}
    (hg : ∀ ⦃m : Motor⦄ ⦃w : Work⦄, w.PinsFollow m → (g w).PinsFollow m) : DrivesPinsByEvents fun w => .ok (g w) := by
  intro m w w' hw h
  cases h
  exact hg hw

theorem initWork_pinsFollow {m : Motor} {w : Work} (hw : w.PinsFollow m) : (initWork w).PinsFollow m :=
  (hw.modify (Motor.pin_congr rfl rfl rfl)).setPin .pwm false

/-! ### A command on one axis -/

/-- Committing a record as it was, with no events, changes nothing. -/
@[simp] theorem State.commit_unchanged (s : State) (a : Axis) : s.commit a ⟨s.ax a, []⟩ = s := by
  simp [State.commit]

/-- What a command that names axis `a` leaves: work on that axis, whose latches follow its events, is committed; the registry
may differ; and the command has written its result. -/
def State.LeftByAxisCommand (s : State) (i : Instr) (a : Axis) (t : State) : Prop :=
  ∃ w reg code, Work.PinsFollow (s.ax a) w ∧ t = finish i code { s.commit a w with registered := reg }

/-- A command that leaves its axis alone: it writes the registry and the result at most. -/
theorem finish_leftByAxisCommand (s : State) (i : Instr) (a : Axis) (reg : BitVec 4) (code : BitVec 8) :
    s.LeftByAxisCommand i a (finish i code { s with registered := reg }) :=
  ⟨⟨s.ax a, []⟩, reg, code, Work.pinsFollow_start _, by rw [State.commit_unchanged]⟩

theorem commandOnAxis_leftByAxisCommand {i : Instr} {a : Axis} {f : Work → Except Fault Work} {s t : State}
    (hf : DrivesPinsByEvents f) (h : commandOnAxis i a f s = .next t) : s.LeftByAxisCommand i a t := by
  obtain ⟨w, hw, rfl⟩ := commandOnAxis_eq_next.1 h
  exact ⟨w, s.registered, 0, hf (Work.pinsFollow_start _) hw, rfl⟩

theorem execSetspeed_leftByAxisCommand {a : Axis} {s t : State} (h : execSetspeed a s = .next t) :
    s.LeftByAxisCommand (.setspeed a) a t := by
  unfold execSetspeed at h
  split at h
  · cases h; exact finish_leftByAxisCommand s _ a s.registered _
  · exact commandOnAxis_leftByAxisCommand (setSpeedWork_drivesPinsByEvents _ _ _) h

/-- All that a command that names an axis can do when it answers a next state (00_scope R6). -/
theorem exec_eq_next_of_axis {i : Instr} {a : Axis} {s t : State} (ha : axisOf i = some a) (h : exec i s = .next t) :
    s.LeftByAxisCommand i a t := by
  cases i <;> cases ha <;> simp only [exec] at h
  case init => exact commandOnAxis_leftByAxisCommand (drivesPinsByEvents_ok fun _ _ hw => initWork_pinsFollow hw) h
  case add | remove => cases h; exact finish_leftByAxisCommand ..
  case setspeed => exact execSetspeed_leftByAxisCommand h
  case setdir =>
    exact commandOnAxis_leftByAxisCommand
      (drivesPinsByEvents_ok fun _ _ hw => (hw.modify (Motor.pin_congr rfl rfl rfl)).setPin .dir _) h
  case enable => exact commandOnAxis_leftByAxisCommand (drivesPinsByEvents_ok fun _ _ hw => hw.setPin .en _) h
  case limen | setlim =>
    exact commandOnAxis_leftByAxisCommand
      (drivesPinsByEvents_ok fun _ _ hw => hw.modify (Motor.pin_congr rfl rfl rfl)) h
  case move => exact commandOnAxis_leftByAxisCommand (moveWork_drivesPinsByEvents _ _ _) h
  case moveto => exact commandOnAxis_leftByAxisCommand (movetoWork_drivesPinsByEvents _ _) h
  case runspeed => exact commandOnAxis_leftByAxisCommand (runspeedWork_drivesPinsByEvents _) h
  case stop => exact commandOnAxis_leftByAxisCommand (stopWork_drivesPinsByEvents _) h
  case poll => exact commandOnAxis_leftByAxisCommand (pollWork_drivesPinsByEvents _ _) h

/-! ### The frame of a command on one axis -/

theorem eventsOf_commit_self (s : State) (a : Axis) (w : Work) :
    eventsOf a (s.commit a w).trace = eventsOf a s.trace ++ w.events := by
  simp

theorem eventsOf_commit_ne (s : State) {a b : Axis} (w : Work) (h : b ≠ a) :
    eventsOf b (s.commit a w).trace = eventsOf b s.trace := by
  simp [eventsOf_other h]

/-- Settles O52: the frame of committed work, whatever the registry and the result. -/
theorem commandsTouchOnlyTheirAxis : Obligations.CommandsTouchOnlyTheirAxis := by
  unfold Obligations.CommandsTouchOnlyTheirAxis
  intro i a s t ha h
  obtain ⟨w, reg, code, -, rfl⟩ := exec_eq_next_of_axis ha h
  exact ⟨fun b hb => ⟨s.commit_ax_ne w hb, eventsOf_commit_ne s w hb⟩, rfl, _, rfl⟩

/-! ### The latches follow the trace -/

theorem reset_latchesFollowTrace : State.reset.LatchesFollowTrace := by
  intro a r
  match a with
  | 0 | 1 | 2 | 3 => cases r <;> rfl

/-- The latches and the trace are all that the property speaks of. -/
theorem State.LatchesFollowTrace.congr {s t : State} (hs : s.LatchesFollowTrace) (hax : ∀ a, t.ax a = s.ax a)
    (htrace : t.trace = s.trace) : t.LatchesFollowTrace := by
  intro a r
  rw [hax, htrace, hs a r]

theorem State.LatchesFollowTrace.commit {s : State} {a : Axis} {w : Work} (hs : s.LatchesFollowTrace)
    (hw : w.PinsFollow (s.ax a)) : (s.commit a w).LatchesFollowTrace := by
  intro b r
  rw [lastLevel_eq_levelAfter]
  by_cases hb : b = a
  · subst hb
    rw [State.commit_ax_self, eventsOf_commit_self, levelAfter_append, ← lastLevel_eq_levelAfter, ← hs b r]
    exact hw r
  · rw [State.commit_ax_ne _ _ hb, eventsOf_commit_ne _ _ hb, ← lastLevel_eq_levelAfter]
    exact hs b r

theorem pollAxis_latchesFollowTrace (a : Axis) (s t : State) (hs : s.LatchesFollowTrace) (h : pollAxis a s = .next t) :
    t.LatchesFollowTrace := by
  obtain ⟨w, hw, rfl⟩ := pollAxis_eq_next.1 h
  exact hs.commit (pollWork_drivesPinsByEvents _ _ (Work.pinsFollow_start _) hw)

theorem execPollall_latchesFollowTrace {s t : State} (hs : s.LatchesFollowTrace) (h : execPollall s = .next t) :
    t.LatchesFollowTrace := by
  obtain ⟨u, hu, rfl⟩ := execPollall_eq_next.1 h
  have hgap : ∀ s : State, s.LatchesFollowTrace → (gap s).LatchesFollowTrace :=
    fun s hs => hs.congr (gap_ax s) (gap_trace s)
  have serviced : u.LatchesFollowTrace :=
    serviceAll_induct pollAxis_latchesFollowTrace hgap _ { s with draws := s.draws + 1 } u hs hu
  exact serviced.congr (fun _ => rfl) rfl

/-- Every command keeps the latches on the trace: a command on an axis by its work, POLLALL by its handlers. -/
theorem exec_latchesFollowTrace {i : Instr} {s t : State} (hs : s.LatchesFollowTrace) (h : exec i s = .next t) :
    t.LatchesFollowTrace := by
  cases ha : axisOf i with
  | some a =>
    obtain ⟨w, reg, code, hw, rfl⟩ := exec_eq_next_of_axis ha h
    exact (hs.commit hw).congr (fun _ => rfl) rfl
  | none =>
    cases i <;> cases ha
    exact execPollall_latchesFollowTrace hs h

/-- Settles O50: it holds at reset, only commands write latches or trace, and every command keeps it. -/
theorem latchesFollowTheTrace : Obligations.LatchesFollowTheTrace := by
  unfold Obligations.LatchesFollowTheTrace
  refine ⟨reset_latchesFollowTrace, fun s t hs h => ?_⟩
  obtain ⟨-, rfl⟩ | ⟨e, rest, -, ⟨-, rfl⟩ | ⟨latch, evs, -, rfl⟩ | ⟨a0, a1, a2, rfl | ⟨w, rfl⟩ | ⟨i, hi⟩⟩⟩ := step_cases h
  · exact hs.congr (tick_ax s) (tick_trace s)
  · exact hs.congr (fun _ => rfl) rfl
  · exact hs.congr (fun _ => rfl) rfl
  · exact hs.congr (fun _ => rfl) rfl
  · exact hs.congr (fun _ => rfl) rfl
  · exact exec_latchesFollowTrace (s := { s with input := rest, arg0 := a0, arg1 := a1, arg2 := a2 })
      (hs.congr (fun _ => rfl) rfl) hi

end Sys2Proof.Machine

/-! The statements of 10_state: reset (R51), which command writes which field (R44), the invariant of every step (R47 to R49),
how a position moves (R45), and the parameters nothing can show (R32). What a command makes of one record is said once, in
`AxisEffect`; the fields, the invariant and the position are read off its cases. -/

namespace Sys2Proof.Machine

/-! ### Reset -/

/-- Settles O46: every field of the reset state is the spec's value by definition. -/
theorem resetHoldsTheSpecifiedValues : Obligations.ResetHoldsTheSpecifiedValues := by
  unfold Obligations.ResetHoldsTheSpecifiedValues
  refine ⟨rfl, rfl, rfl, rfl, rfl, rfl, rfl, rfl, rfl, rfl, fun a => ?_⟩
  match a with
  | 0 | 1 | 2 | 3 => decide

theorem reset_motor_inv (tw : TimeWidth) : Motor.reset.Inv tw :=
  ⟨fun _ => ⟨rfl, rfl⟩, rfl, by decide, by decide, wrap_zero tw⟩

/-- Settles O47: each of the four records is `Motor.reset`, and the time is 0. -/
theorem resetSatisfiesTheInvariant : Obligations.ResetSatisfiesTheInvariant := by
  unfold Obligations.ResetSatisfiesTheInvariant
  intro p
  refine ⟨fun a => ?_, Nat.zero_lt_succ _, wrap_zero _, fun _ => rfl, .inl rfl⟩
  match a with
  | 0 | 1 | 2 | 3 => exact reset_motor_inv _

/-! ### The records that motion commands leave -/

theorem countWord_toNat (w : Word) : countWord w.toNat = w := by simp [countWord]

/-- The first delay of a ramp, on an ordered profile or not (41_motion R115). -/
theorem countWord_accelDelay_zero (m : Motor) :
    countWord (accelDelay m.numbers 0) =
      if m.accelSteps ≠ 0 ∧ m.minStepDelay.toNat ≤ m.maxStepDelay.toNat then m.maxStepDelay else m.minStepDelay := by
  have hn := numbers_n_eq_zero m
  by_cases h0 : m.accelSteps = 0
  · rw [accelDelay, if_pos (hn.2 h0), if_neg (fun h => h.1 h0)]
    exact countWord_toNat _
  · have hmax : accelDelay m.numbers 0 = max m.minStepDelay.toNat m.maxStepDelay.toNat := by
      rw [accelDelay, if_neg (mt hn.1 h0)]
      simp [Motor.numbers]
    rw [hmax]
    by_cases hle : m.minStepDelay.toNat ≤ m.maxStepDelay.toNat
    · rw [if_pos ⟨h0, hle⟩, Nat.max_eq_right hle, countWord_toNat]
    · rw [if_neg (fun h => hle h.2), Nat.max_eq_left (Nat.le_of_not_le hle), countWord_toNat]

theorem startMove_motor (now : Time) (steps : Nat) (d : Direction) (target : Int) (w : Work) :
    (startMove now steps d target w.motor.numbers w).motor = w.motor.started steps d (positionWord target) now := by
  by_cases hs : 2 * w.motor.accelSteps.toNat < steps
  · have hs' : 2 * w.motor.numbers.n < steps := hs
    simp only [startMove, Motor.started, Work.modify_motor, Work.setPin_motor, Motor.latch_dir, Motor.latch_pwm,
      Motor.latch_en, hs, hs', if_true, true_and, countWord_accelDelay_zero, level_eq_dirLevel]
  · have hs' : ¬ 2 * w.motor.numbers.n < steps := hs
    have hd : countWord w.motor.numbers.dmin = w.motor.minStepDelay := countWord_toNat _
    simp only [startMove, Motor.started, Work.modify_motor, Work.setPin_motor, Motor.latch_dir, Motor.latch_pwm,
      Motor.latch_en, hs, hs', if_false, false_and, hd, level_eq_dirLevel]

theorem profile_eq_ok {m : Motor} {p : Profile} : m.profile = .ok p ↔ m.speedValid = true ∧ p = m.numbers := by
  cases hv : m.speedValid with
  | false => simp [Motor.profile, hv]
  | true => rw [profile_of_valid hv]; simp [eq_comm]

/-- What MOVE makes of the record when it does not fault (41_motion R115, R116). -/
theorem moveWork_motor {now : Time} {steps : Nat} {d : Direction} {w w' : Work} (h : moveWork now steps d w = .ok w') :
    w'.motor = w.motor.halted ∨ ∃ target, w'.motor = w.motor.started steps d target now := by
  simp only [moveWork] at h
  split at h
  · cases h; exact .inl rfl
  split at h
  · split at h
    · next hp =>
      obtain ⟨-, rfl⟩ := profile_eq_ok.1 hp
      cases h; exact .inr ⟨_, startMove_motor ..⟩
    · cases h
  · cases h

/-- What MOVETO makes of the record when it does not fault (41_motion R117). -/
theorem movetoWork_motor {now : Time} {pos : Int} {w w' : Work} (h : movetoWork now pos w = .ok w') :
    w'.motor = w.motor.halted ∨ ∃ steps d target, w'.motor = w.motor.started steps d target now := by
  simp only [movetoWork] at h
  split at h
  · cases h; exact .inl rfl
  split at h <;> exact (moveWork_motor h).imp_right fun ⟨target, ht⟩ => ⟨_, _, target, ht⟩

/-- The record of an axis turned to direction `d`, its pin with it (41_motion R120, 43_config R166). -/
def Motor.turned (m : Motor) (d : Direction) : Motor := { m with direction := d, pinDir := d.level }

/-- Work that has turned its axis to direction `d` and driven DIR (41_motion R120). -/
def Work.turned (w : Work) (d : Direction) : Work := (w.modify fun m => { m with direction := d }).setPin .dir d.level

theorem runspeedWork_eq (v : Int) (w : Work) :
    runspeedWork v w =
      if v = 0 then .ok w.halt
      else if w.motor.position.toInt = (speedDirection v).sentinel then .ok (w.turned (speedDirection v)).halt
      else .ok <| (w.turned (speedDirection v)).modify fun m =>
        { m with
          stepDelay := countWord (1000000 / v.natAbs)
          target := positionWord (speedDirection v).sentinel
          state := .running } := rfl

/-- What RUNSPEED makes of the record (41_motion R120). -/
theorem runspeedWork_motor {v : Int} {w w' : Work} (h : runspeedWork v w = .ok w') :
    w'.motor = w.motor.halted ∨ ∃ d, w'.motor = (w.motor.turned d).halted ∨
      ∃ delay target, w'.motor = { w.motor.turned d with stepDelay := delay, target := target, state := .running } := by
  rw [runspeedWork_eq] at h
  split at h
  · cases h; exact .inl rfl
  split at h
  · cases h; exact .inr ⟨_, .inl rfl⟩
  · cases h; exact .inr ⟨_, .inr ⟨_, _, rfl⟩⟩

/-- What STOP makes of the record when it does not fault (41_motion R123, R124). -/
theorem stopWork_motor {immediate : Bool} {w w' : Work} (h : stopWork immediate w = .ok w') :
    w'.motor = w.motor ∨ w'.motor = w.motor.halted ∨
      ∃ target, w'.motor = { w.motor with target := target, state := .decelerating } := by
  unfold stopWork at h
  split at h
  · cases h; exact .inr (.inl rfl)
  simp only [softStopWork] at h
  split at h
  · cases h; exact .inl rfl
  split at h
  · cases h
  split at h
  · cases h; exact .inr (.inl rfl)
  split at h
  · cases h; exact .inr (.inr ⟨_, rfl⟩)
  · cases h

/-! ### What a command makes of one record -/

/-- The commands that stop an axis or set it moving (41_motion). -/
def IsMotion (a : Axis) (i : Instr) : Prop :=
  ((∃ d, i = .move a d) ∨ i = .moveto a) ∨ i = .runspeed a ∨ ∃ f, i = .stop a f

/-- `AxisEffect p now a m i m'`: the command `i`, run at the time `now` under the parameters `p`, can make `m'` of the record
`m` of axis `a`. -/
inductive AxisEffect (p : Params) (now : Time) (a : Axis) (m : Motor) : Instr → Motor → Prop where
  | kept (i : Instr) : AxisEffect p now a m i m
  | init : AxisEffect p now a m (.init a) (initWork ⟨m, []⟩).motor
  | setspeed {maxSpeed startSpeed : Nat} (accel : Nat) (accepted : speedsRejected maxSpeed startSpeed = false) :
      AxisEffect p now a m (.setspeed a)
        { m with
          minStepDelay := countWord (1000000 / maxSpeed)
          maxStepDelay := countWord (1000000 / startSpeed)
          accelSteps := countWord (profileLength maxSpeed startSpeed accel)
          speedValid := true }
  | setdir (d : Direction) : AxisEffect p now a m (.setdir a d) (m.turned d)
  | enable (on : Bool) : AxisEffect p now a m (.enable a on) { m with pinEn := on }
  | limen (on : Bool) : AxisEffect p now a m (.limen a on) { m with limitEnabled := on }
  | setlim (cw ccw : Bool) : AxisEffect p now a m (.setlim a cw ccw) { m with cwLimit := cw, ccwLimit := ccw }
  | halt {i : Instr} (motion : IsMotion a i) : AxisEffect p now a m i m.halted
  | start {i : Instr} (moves : (∃ d, i = .move a d) ∨ i = .moveto a) (steps : Nat) (d : Direction) (target : Word) :
      AxisEffect p now a m i (m.started steps d target now)
  | turnAndHalt (d : Direction) : AxisEffect p now a m (.runspeed a) (m.turned d).halted
  | run (d : Direction) (delay target : Word) :
      AxisEffect p now a m (.runspeed a) { m.turned d with stepDelay := delay, target := target, state := .running }
  | runOut (f : Bool) (target : Word) :
      AxisEffect p now a m (.stop a f) { m with target := target, state := .decelerating }
  | poll {i : Instr} (service : i = .poll a ∨ i = .pollall) {w : Work} (handled : pollWork p now ⟨m, []⟩ = .ok w) :
      AxisEffect p now a m i w.motor

theorem commandOnAxis_effect {i : Instr} {a : Axis} {f : Work → Except Fault Work} {s t : State}
    (hf : ∀ w, f ⟨s.ax a, []⟩ = .ok w → AxisEffect s.params s.now a (s.ax a) i w.motor)
    (h : commandOnAxis i a f s = .next t) : AxisEffect s.params s.now a (s.ax a) i (t.ax a) := by
  obtain ⟨w, hw, rfl⟩ := commandOnAxis_eq_next.1 h
  rw [afterCommand_ax_self]
  exact hf w hw

theorem execSetspeed_effect {a : Axis} {s t : State} (h : execSetspeed a s = .next t) :
    AxisEffect s.params s.now a (s.ax a) (.setspeed a) (t.ax a) := by
  unfold execSetspeed at h
  split at h
  · cases h; exact .kept _
  · next accepted =>
    refine commandOnAxis_effect (fun w hw => ?_) h
    unfold setSpeedWork at hw
    split at hw
    · cases hw; exact .setspeed _ (Bool.eq_false_iff.2 accepted)
    · cases hw

/-- What a command makes of the record of the axis it names. -/
theorem exec_effect_self {i : Instr} {a : Axis} {s t : State} (ha : axisOf i = some a) (h : exec i s = .next t) :
    AxisEffect s.params s.now a (s.ax a) i (t.ax a) := by
  cases i <;> cases ha <;> simp only [exec] at h
  case init => exact commandOnAxis_effect (fun w hw => by cases hw; exact .init) h
  case add | remove => cases h; exact .kept _
  case setspeed => exact execSetspeed_effect h
  case setdir d => exact commandOnAxis_effect (fun w hw => by cases hw; exact .setdir d) h
  case enable on => exact commandOnAxis_effect (fun w hw => by cases hw; exact .enable on) h
  case limen on => exact commandOnAxis_effect (fun w hw => by cases hw; exact .limen on) h
  case setlim cw ccw => exact commandOnAxis_effect (fun w hw => by cases hw; exact .setlim cw ccw) h
  case move d =>
    refine commandOnAxis_effect (fun w hw => ?_) h
    obtain hm | ⟨target, hm⟩ := moveWork_motor hw <;> rw [hm]
    · exact .halt (.inl (.inl ⟨d, rfl⟩))
    · exact .start (.inl ⟨d, rfl⟩) ..
  case moveto =>
    refine commandOnAxis_effect (fun w hw => ?_) h
    obtain hm | ⟨steps, d, target, hm⟩ := movetoWork_motor hw <;> rw [hm]
    · exact .halt (.inl (.inr rfl))
    · exact .start (.inr rfl) ..
  case runspeed =>
    refine commandOnAxis_effect (fun w hw => ?_) h
    obtain hm | ⟨d, hm | ⟨delay, target, hm⟩⟩ := runspeedWork_motor hw <;> rw [hm]
    · exact .halt (.inr (.inl rfl))
    · exact .turnAndHalt d
    · exact .run d delay target
  case stop f =>
    refine commandOnAxis_effect (fun w hw => ?_) h
    obtain hm | hm | ⟨target, hm⟩ := stopWork_motor hw <;> rw [hm]
    · exact .kept _
    · exact .halt (.inr (.inr ⟨f, rfl⟩))
    · exact .runOut f target
  case poll => exact commandOnAxis_effect (fun w hw => .poll (.inl rfl) hw) h

/-- What a command makes of the record of any axis; only POLLALL sees other times than the one at its start. -/
theorem exec_effect {i : Instr} {s t : State} (h : exec i s = .next t) (a : Axis) :
    ∃ now, (i ≠ .pollall → now = s.now) ∧ AxisEffect s.params now a (s.ax a) i (t.ax a) := by
  cases hi : axisOf i with
  | some b =>
    refine ⟨s.now, fun _ => rfl, ?_⟩
    by_cases hab : a = b
    · subst hab; exact exec_effect_self hi h
    · rw [((commandsTouchOnlyTheirAxis i b s t hi h).1 a hab).1]; exact .kept i
  | none =>
    cases i <;> cases hi
    obtain ⟨-, ⟨-, hax⟩ | ⟨-, now, w, hw, hax⟩⟩ := execPollall_ax h a <;> rw [hax]
    · exact ⟨s.now, fun h => absurd rfl h, .kept _⟩
    · exact ⟨now, fun h => absurd rfl h, .poll (.inr rfl) hw⟩

/-! ### What a command makes of the rest of the state -/

/-- What a command leaves outside the axes (60_exceptions R190, 44_registry): the work of one axis ended with OK, a written
registry, a rejected SETSPEED, or a POLLALL. -/
theorem exec_cases {i : Instr} {s t : State} (h : exec i s = .next t) :
    (∃ a m evs, t = s.afterCommand i a m evs codeOk) ∨
    (∃ b reg, (i = .add b ∨ i = .remove b) ∧ t = finish i codeOk { s with registered := reg }) ∨
    (∃ a, i = .setspeed a ∧ t = finish i codeInvalidArg s) ∨
    (i = .pollall ∧ execPollall s = .next t) := by
  have work : ∀ {a : Axis} {f : Work → Except Fault Work}, commandOnAxis i a f s = .next t →
      ∃ a m evs, t = s.afterCommand i a m evs codeOk := fun h =>
    let ⟨w, _, ht⟩ := commandOnAxis_eq_next.1 h
    ⟨_, w.motor, w.events, ht⟩
  cases i <;> simp only [exec] at h
  case add b => cases h; exact .inr (.inl ⟨b, _, .inl rfl, rfl⟩)
  case remove b => cases h; exact .inr (.inl ⟨b, _, .inr rfl, rfl⟩)
  case setspeed a =>
    unfold execSetspeed at h
    split at h
    · cases h; exact .inr (.inr (.inl ⟨a, rfl, rfl⟩))
    · exact .inl (work h)
  case pollall => exact .inr (.inr (.inr ⟨rfl, h⟩))
  all_goals exact .inl (work h)

/-- The fields outside the axes that no handler of POLLALL and no gap writes. -/
theorem execPollall_frame {s t : State} (h : execPollall s = .next t) :
    t.registered = s.registered ∧ t.arg0 = s.arg0 ∧ t.arg1 = s.arg1 ∧ t.arg2 = s.arg2 := by
  obtain ⟨u, hu, rfl⟩ := execPollall_eq_next.1 h
  refine serviceAll_induct
    (P := fun u => u.registered = s.registered ∧ u.arg0 = s.arg0 ∧ u.arg1 = s.arg1 ∧ u.arg2 = s.arg2)
    (fun a v v' hv hpoll => ?_) (fun v hv => ?_) _ { s with draws := s.draws + 1 } u ⟨rfl, rfl, rfl, rfl⟩ hu
  · obtain ⟨w, -, rfl⟩ := pollAxis_eq_next.1 hpoll
    exact hv
  · simpa using hv

theorem exec_arguments {i : Instr} {s t : State} (h : exec i s = .next t) :
    t.arg0 = s.arg0 ∧ t.arg1 = s.arg1 ∧ t.arg2 = s.arg2 := by
  obtain ⟨a, m, evs, rfl⟩ | ⟨b, reg, -, rfl⟩ | ⟨a, -, rfl⟩ | ⟨-, hall⟩ := exec_cases h
  · exact ⟨rfl, rfl, rfl⟩
  · exact ⟨rfl, rfl, rfl⟩
  · exact ⟨rfl, rfl, rfl⟩
  · exact (execPollall_frame hall).2

theorem exec_registered {i : Instr} {s t : State} (h : exec i s = .next t) :
    t.registered = s.registered ∨ ∃ b, i = .add b ∨ i = .remove b := by
  obtain ⟨a, m, evs, rfl⟩ | ⟨b, reg, hi, -⟩ | ⟨a, -, rfl⟩ | ⟨-, hall⟩ := exec_cases h
  · exact .inl rfl
  · exact .inr ⟨b, hi⟩
  · exact .inl rfl
  · exact .inl (execPollall_frame hall).1

theorem exec_params {i : Instr} {s t : State} (h : exec i s = .next t) : t.params = s.params := by
  obtain ⟨a, m, evs, rfl⟩ | ⟨b, reg, -, rfl⟩ | ⟨a, -, rfl⟩ | ⟨-, hall⟩ := exec_cases h
  · rfl
  · rfl
  · rfl
  · exact (execPollall_ax hall 0).1

/-! ### Which command writes which field (10_state R44) -/

/-- Settles O51: the registry and the arguments by `exec_cases`, the fields of an axis by the cases of `AxisEffect`. -/
theorem commandsWriteOnlyTheirFields : Obligations.CommandsWriteOnlyTheirFields := by
  unfold Obligations.CommandsWriteOnlyTheirFields
  intro i s t a h
  refine ⟨exec_arguments h, exec_registered h, ?_⟩
  obtain ⟨now, -, effect⟩ := exec_effect h a
  generalize s.ax a = m at effect
  generalize t.ax a = m' at effect
  cases effect with
  | kept => simp
  | init => simp [initWork]
  | setspeed => simp
  | setdir => simp [Motor.turned]
  | enable => simp
  | limen => simp
  | setlim => simp
  | halt motion => obtain hi | rfl | ⟨f, rfl⟩ := motion <;> simp [Motor.halted, *]
  | start moves => obtain ⟨d, rfl⟩ | rfl := moves <;> simp [Motor.started]
  | turnAndHalt => simp [Motor.turned, Motor.halted]
  | run => simp [Motor.turned]
  | runOut => simp
  | poll service handled =>
    have frame := (pollWork_frame handled).1
    rw [frame]
    simp [service]

/-! ### The invariant -/

section inv
variable {tw : TimeWidth} {m : Motor}

theorem Motor.Inv.halted (hm : m.Inv tw) : m.halted.Inv tw := by
  obtain ⟨-, -, ordered, -, stamp⟩ := hm
  exact ⟨fun _ => ⟨rfl, rfl⟩, rfl, ordered, fun h => (nomatch h), stamp⟩

theorem Motor.Inv.turned (hm : m.Inv tw) (d : Direction) : (m.turned d).Inv tw := hm

/-- An axis set moving in no acceleration keeps the invariant, whatever its new delay and target. -/
theorem Motor.Inv.cruising (hm : m.Inv tw) {st : Lifecycle} (hst : st = .running ∨ st = .decelerating)
    (delay target : Word) :
    { m with stepDelay := delay, target := target, state := st }.Inv tw := by
  obtain ⟨-, pwm, ordered, -, stamp⟩ := hm
  refine ⟨fun h => ?_, pwm, ordered, fun h => ?_, stamp⟩ <;> obtain rfl | rfl := hst <;> cases h

theorem Motor.Inv.started (hm : m.Inv tw) (steps : Nat) (d : Direction) (target : Word) {now : Time}
    (hnow : tw.wrap now = now) : (m.started steps d target now).Inv tw := by
  obtain ⟨-, -, ordered, -, -⟩ := hm
  refine ⟨fun h => ?_, rfl, ordered, fun _ => Nat.zero_lt_succ _, hnow⟩
  simp only [Motor.started] at h
  split at h <;> cases h

theorem init_motor_inv (tw : TimeWidth) (m : Motor) : (initWork ⟨m, []⟩).motor.Inv tw :=
  ⟨fun _ => ⟨rfl, rfl⟩, rfl, fun h => (nomatch h), fun h => (nomatch h), wrap_zero tw⟩

/-- A period of a positive speed, in microseconds, fits its register. -/
theorem countWord_period_toNat (v : Nat) : (countWord (1000000 / v)).toNat = 1000000 / v := by
  have := Nat.div_le_self 1000000 v
  rw [countWord, BitVec.toNat_ofNat, Nat.mod_eq_of_lt (by omega)]

/-- An accepted SETSPEED orders the profile: the maximum speed is no less than the start speed (43_config R163). -/
theorem accepted_periods_ordered {maxSpeed startSpeed : Nat} (accepted : speedsRejected maxSpeed startSpeed = false) :
    (countWord (1000000 / maxSpeed)).toNat ≤ (countWord (1000000 / startSpeed)).toNat := by
  simp only [speedsRejected, Bool.or_eq_false_iff, decide_eq_false_iff_not] at accepted
  obtain ⟨⟨-, hstart⟩, hle⟩ := accepted
  rw [countWord_period_toNat, countWord_period_toNat]
  exact Nat.div_le_div_left (Nat.le_of_not_lt hle) (Nat.pos_of_ne_zero hstart)

end inv

/-- A per-state rule of an active axis answers a record with the invariant: no rule stops the axis, and one that stays
Accelerating has counted less than `accel_steps` (42_poll R145 to R147). -/
theorem stepRule_inv {tw : TimeWidth} {hold : Bool} {m m' : Motor} (h : stepRule hold m = .ok m')
    (active : m.state ≠ .idle) (pwm : m.pinPwm = m.pulseState)
    (ordered : m.speedValid = true → m.minStepDelay.toNat ≤ m.maxStepDelay.toNat)
    (stamp : tw.wrap m.lastStepTime = m.lastStepTime) : m'.Inv tw := by
  have hn : m.numbers.n ≤ 2 ^ 32 - 1 := Nat.le_pred_of_lt m.accelSteps.isLt
  obtain ⟨-, ⟨hs, -, rfl⟩ | ⟨hs, rfl⟩ | ⟨hs, -, rfl⟩ | ⟨hs, -⟩⟩ := stepRule_cases h
  · simp only [accelStep]
    split
    · exact ⟨fun h => (nomatch h), pwm, ordered, fun h => (nomatch h), stamp⟩
    split
    · exact ⟨fun h => (nomatch h), pwm, ordered, fun h => (nomatch h), stamp⟩
    · next hcount =>
      exact ⟨fun h => absurd h active, pwm, ordered, fun _ => Nat.lt_of_lt_of_le (Nat.lt_of_not_le hcount) hn, stamp⟩
  · simp only [runStep]
    split <;> split <;>
      exact ⟨fun h => by simp [hs] at h, pwm, ordered, fun h => by simp [hs] at h, stamp⟩
  · exact ⟨fun h => absurd h active, pwm, ordered, fun h => by simp [decelStep, hs] at h, stamp⟩
  · exact absurd hs active

theorem completeStep_inv {tw : TimeWidth} {hold : Bool} {m m' : Motor} (h : completeStep hold m = .ok m')
    (active : m.state ≠ .idle) (low : m.pulseState = false) (pwm : m.pinPwm = false)
    (ordered : m.speedValid = true → m.minStepDelay.toNat ≤ m.maxStepDelay.toNat)
    (stamp : tw.wrap m.lastStepTime = m.lastStepTime) : m'.Inv tw := by
  obtain ⟨-, ⟨hreach, rfl⟩ | ⟨-, hrule⟩⟩ := completeStep_cases h
  · refine ⟨fun _ => ⟨low, ?_⟩, pwm.trans low.symm, ordered, fun h => (nomatch h), stamp⟩
    rw [hreach, positionWord_self]
  · exact stepRule_inv hrule active (pwm.trans low.symm) ordered stamp

theorem limitStop_inv {tw : TimeWidth} {w : Work} (hm : w.motor.Inv tw) : (limitStop w).motor.Inv tw := by
  obtain ⟨-, pwm, ordered, acc, stamp⟩ := hm.halted
  unfold limitStop
  split
  · exact hm.halted
  · exact ⟨fun _ => ⟨rfl, rfl⟩, pwm, ordered, acc, stamp⟩

theorem pollWork_inv {p : Params} {t : Time} {w w' : Work} (hm : w.motor.Inv p.timeWidth) (ht : p.timeWidth.wrap t = t)
    (h : pollWork p t w = .ok w') : w'.motor.Inv p.timeWidth := by
  obtain ⟨-, rfl⟩ | ⟨-, -, rfl⟩ | ⟨-, -, -, rfl⟩ | ⟨active, -, -, -, rfl⟩ | ⟨active, -, -, -, m, hstep, rfl⟩ :=
    pollWork_cases h
  · exact hm
  · exact limitStop_inv hm
  · exact hm
  · obtain ⟨-, -, ordered, acc, -⟩ := hm
    exact ⟨fun h => absurd h active, rfl, ordered, acc, ht⟩
  · obtain ⟨-, -, ordered, -, -⟩ := hm
    exact completeStep_inv hstep active rfl rfl ordered ht

/-- Every command keeps the invariant of an axis. -/
theorem AxisEffect.inv {p : Params} {now : Time} {a : Axis} {i : Instr} {m m' : Motor} (h : AxisEffect p now a m i m')
    (hm : m.Inv p.timeWidth) (hnow : p.timeWidth.wrap now = now) : m'.Inv p.timeWidth := by
  cases h with
  | kept => exact hm
  | init => exact init_motor_inv _ _
  | setspeed accel accepted =>
    obtain ⟨idle, pwm, -, acc, stamp⟩ := hm
    exact ⟨idle, pwm, fun _ => accepted_periods_ordered accepted, acc, stamp⟩
  | setdir d => exact hm.turned d
  | enable | limen | setlim => exact hm
  | halt => exact hm.halted
  | start _ steps d target => exact hm.started steps d target hnow
  | turnAndHalt d => exact (hm.turned d).halted
  | run d delay target => exact (hm.turned d).cruising (.inl rfl) delay target
  | runOut f target => exact hm.cruising (.inr rfl) m.stepDelay target
  | poll _ handled => exact pollWork_inv hm hnow handled

theorem tick_inv {s : State} (hs : s.Inv) : (tick s).Inv := by
  obtain ⟨axes, -, -, latch, code⟩ := hs
  exact ⟨axes, Nat.mod_lt _ (by decide), wrap_wrap _ _, latch, code⟩

theorem gap_inv {s : State} (hs : s.Inv) : (gap s).Inv := by
  obtain ⟨k, hk⟩ := gap_eq s
  rw [hk]
  exact ticks_induct (P := State.Inv) (fun _ => tick_inv) k _ hs

theorem pollAxis_inv {a : Axis} {s t : State} (hs : s.Inv) (h : pollAxis a s = .next t) : t.Inv := by
  obtain ⟨w, hw, rfl⟩ := pollAxis_eq_next.1 h
  obtain ⟨axes, frac, time, latch, code⟩ := hs
  refine ⟨fun b => ?_, frac, time, latch, code⟩
  by_cases hb : b = a
  · subst hb
    rw [State.commit_ax_self]
    exact pollWork_inv (axes b) time hw
  · rw [State.commit_ax_ne _ _ hb]
    exact axes b

theorem execPollall_inv {s t : State} (hs : s.Inv) (h : execPollall s = .next t) : t.Inv := by
  obtain ⟨u, hu, rfl⟩ := execPollall_eq_next.1 h
  obtain ⟨axes, frac, time, latch, -⟩ : u.Inv :=
    serviceAll_induct (fun _ _ _ => pollAxis_inv) (fun _ => gap_inv) _ { s with draws := s.draws + 1 } u hs hu
  exact ⟨axes, frac, time, latch, .inl rfl⟩

/-- Every command keeps the invariant. -/
theorem exec_inv {i : Instr} {s t : State} (hs : s.Inv) (h : exec i s = .next t) : t.Inv := by
  by_cases hi : i = .pollall
  · subst hi; exact execPollall_inv hs h
  have axes : ∀ a, (t.ax a).Inv s.params.timeWidth := by
    intro a
    obtain ⟨now, hnow, effect⟩ := exec_effect h a
    obtain ⟨axes, -, time, -, -⟩ := hs
    rw [hnow hi] at effect
    exact effect.inv (axes a) time
  obtain ⟨-, frac, time, latch, -⟩ := hs
  obtain ⟨a, m, evs, rfl⟩ | ⟨b, reg, -, rfl⟩ | ⟨a, -, rfl⟩ | ⟨hall, -⟩ := exec_cases h
  · exact ⟨axes, frac, time, latch, .inl rfl⟩
  · exact ⟨axes, frac, time, latch, .inl rfl⟩
  · exact ⟨axes, frac, time, latch, .inr (.inl rfl)⟩
  · exact absurd hall hi

/-- Settles O48: a TICK keeps the time in range, a read loads the latch only with TW = 64, and every command keeps the
invariant of each axis. -/
theorem everyStepKeepsTheInvariant : Obligations.EveryStepKeepsTheInvariant := by
  unfold Obligations.EveryStepKeepsTheInvariant
  intro s t hs h
  have ⟨axes, frac, time, noLatch, code⟩ := hs
  obtain ⟨-, rfl⟩ | ⟨e, rest, -, ⟨-, rfl⟩ | ⟨latch, evs, hlatch, rfl⟩ | ⟨a0, a1, a2, rfl | ⟨w, rfl⟩ | ⟨i, hi⟩⟩⟩ :=
    step_cases h
  · exact ⟨tick_inv hs, rfl⟩
  · exact ⟨tick_inv (s := { s with input := rest }) hs, rfl⟩
  · refine ⟨⟨axes, frac, time, fun htw => ?_, code⟩, rfl⟩
    obtain rfl | hw64 := hlatch
    · exact noLatch htw
    · cases htw.symm.trans hw64
  · exact ⟨hs, rfl⟩
  · exact ⟨⟨axes, frac, time, noLatch, .inr (.inr rfl)⟩, rfl⟩
  · have written : { s with input := rest, arg0 := a0, arg1 := a1, arg2 := a2 }.Inv := hs
    exact ⟨exec_inv written hi, (exec_params hi).trans rfl⟩

/-! ### Which step runs a command -/

theorem axisRegAt_ne_cmd (a : Axis) (n : Nat) : axisRegAt a n ≠ .cmd := by
  unfold axisRegAt
  split <;> exact fun h => nomatch h

/-- CMD is one register (20_memory R61). -/
theorem eq_cmdAddr_of_regAt {addr : Nat} (h : regAt addr = .cmd) : addr = 0x04 := by
  unfold regAt at h
  split at h
  · split at h <;> cases h
    rfl
  · exact absurd h (axisRegAt_ne_cmd _ _)
  · exact absurd h (axisRegAt_ne_cmd _ _)
  · exact absurd h (axisRegAt_ne_cmd _ _)
  · exact absurd h (axisRegAt_ne_cmd _ _)
  · cases h

/-- A byte shifted in from below (20_memory R65): its bits, then those of the word. -/
theorem getLsbD_shiftIn (x : Word) (b : Byte) {i : Nat} (hi : i < 32) :
    ((x <<< 8) ||| b.setWidth 32).getLsbD i = if i < 8 then b.getLsbD i else x.getLsbD (i - 8) := by
  by_cases h : i < 8
  · simp [h, hi]
  · simp [h, hi, BitVec.getLsbD_of_ge b i (Nat.le_of_not_lt h), Nat.lt_of_le_of_lt (Nat.sub_le _ _) hi]

/-- The bytes of a word access, put together as the byte bus does (20_memory R65). -/
theorem bytesWord_four (b0 b1 b2 b3 : Byte) : bytesWord [b0, b1, b2, b3] = b3 ++ b2 ++ b1 ++ b0 := by
  apply BitVec.eq_of_getLsbD_eq
  intro i hi
  have h1 : i - 8 < 32 := by omega
  have h2 : i - 8 - 8 < 32 := by omega
  have h3 : i - 8 - 8 - 8 < 8 ∧ i - 8 - 8 - 8 < 32 := by omega
  simp only [bytesWord, BitVec.getLsbD_append, getLsbD_shiftIn, hi, h1, h2, h3, if_true]

/-- All that executing a command word can do when it answers a next state. -/
theorem runWord_cases {w : Word} {s t : State} (h : runWord exec w s = .next t) :
    t = illegalWord w s ∨ ∃ i, decode w = .ok i ∧ exec i s = .next t := by
  unfold runWord at h
  split at h
  · exact .inr ⟨_, ‹_›, h⟩
  · cases h; exact .inl rfl

/-- A register write leaves the axes alone unless it is the write of a legal word to CMD. -/
theorem regWrite_axes {addr : Nat} {w : Word} {s t : State} (h : regWrite (runWord exec) addr w s = .next t) :
    t.axes = s.axes ∨ ∃ i, addr = 0x04 ∧ decode w = .ok i ∧ exec i s = .next t := by
  rcases regWrite_cases (runWord exec) addr w s with ⟨-, hr⟩ | ⟨-, hr⟩ | ⟨-, hr⟩ | ⟨hcmd, hr⟩ | hr <;> rw [hr] at h
  case inr.inr.inr.inl =>
    obtain rfl | ⟨i, hi, ht⟩ := runWord_cases h
    · exact .inl rfl
    · exact .inr ⟨i, eq_cmdAddr_of_regAt hcmd, hi, ht⟩
  all_goals cases h; exact .inl rfl

/-- A step leaves the axes alone unless its event writes a legal word to CMD (20_memory R63 to R65). -/
theorem step_axes {s t : State} (h : step s = .next t) :
    t.axes = s.axes ∨ ∃ i u, s.RunsNext i ∧ exec i u = .next t ∧ u.axes = s.axes := by
  unfold step stepWith at h
  split at h
  · cases h; exact .inl rfl
  next e rest hin =>
  cases e with
  | tick => cases h; exact .inl rfl
  | cmd w a0 a1 a2 =>
    obtain rfl | ⟨i, hi, ht⟩ := runWord_cases h
    · exact .inl rfl
    · exact .inr ⟨i, _, ⟨_, rest, w, hin, rfl, hi⟩, ht, rfl⟩
  | regWrite addr w =>
    obtain hax | ⟨i, rfl, hi, ht⟩ := regWrite_axes h
    · exact .inl hax
    · exact .inr ⟨i, _, ⟨_, rest, w, hin, rfl, hi⟩, ht, rfl⟩
  | regRead addr => cases h; exact .inl (by simp only [regRead, readEffect_frame])
  | busWrite byteAddr bytes =>
    simp only [runEvent, busWrite, Event.wellFormed, Bool.and_eq_true, decide_eq_true_eq] at h
    split at h
    · next aligned =>
      obtain ⟨haddr, hlen⟩ := aligned
      obtain ⟨b0, b1, b2, b3, rfl⟩ := List.length_eq_four.1 hlen
      obtain hax | ⟨i, h4, hi, ht⟩ := regWrite_axes h
      · exact .inl hax
      · have hcmd : byteAddr = 0x10 := by omega
        rw [bytesWord_four] at hi
        exact .inr ⟨i, _, ⟨_, rest, _, hin, if_pos hcmd, hi⟩, ht, rfl⟩
    · cases h
  | busRead byteAddr count =>
    simp only [runEvent, busRead] at h
    split at h
    · cases h; exact .inl (by simp only [readEffect_frame])
    · cases h

/-! ### How a position moves (10_state R45) -/

/-- What one service can do to a position: nothing, the home stop, or one step in the current direction. -/
theorem pollWork_position {p : Params} {now : Time} {w w' : Work} (h : pollWork p now w = .ok w') :
    w'.motor.position = w.motor.position ∨
    (w.motor.state ≠ .idle ∧ w.motor.AtLimit ∧ w.motor.direction = .ccw ∧
      w'.motor.position = 0 ∧ w'.motor.state = .idle) ∨
    (w.motor.state ≠ .idle ∧ ¬ w.motor.AtLimit ∧ w.motor.pulseState = true ∧ w'.motor.pulseState = false ∧
      w'.motor.position.toInt = w.motor.position.toInt + sign w.motor.direction) := by
  obtain ⟨-, rfl⟩ | ⟨active, limit, rfl⟩ | ⟨-, -, -, rfl⟩ | ⟨-, -, -, -, rfl⟩ |
    ⟨active, noLimit, -, high, m, hstep, rfl⟩ := pollWork_cases h
  · exact .inl rfl
  · cases hd : w.motor.direction with
    | cw => exact .inl (by simp [limitStop, hd])
    | ccw =>
      refine .inr (.inl ⟨active, (limitHit_iff _).1 limit, rfl, ?_, ?_⟩) <;> simp [limitStop, hd]
  · exact .inl rfl
  · exact .inl rfl
  · have noStop : ¬ w.motor.AtLimit := fun hl => by simp [(limitHit_iff _).2 hl] at noLimit
    refine .inr (.inr ⟨active, noStop, high, ?_⟩)
    obtain ⟨inRange, ⟨-, rfl⟩ | ⟨-, hrule⟩⟩ := completeStep_cases hstep
    · exact ⟨rfl, positionWord_toInt inRange⟩
    · rw [stepRule_frame hrule]
      exact ⟨rfl, positionWord_toInt inRange⟩

/-- Only a service and INIT write a position. -/
theorem AxisEffect.position {p : Params} {now : Time} {a : Axis} {i : Instr} {m m' : Motor}
    (h : AxisEffect p now a m i m') :
    m'.position = m.position ∨ (i = .init a ∧ m'.position = 0) ∨
    ((i = .poll a ∨ i = .pollall) ∧ ∃ w, pollWork p now ⟨m, []⟩ = .ok w ∧ m' = w.motor) := by
  cases h with
  | init => exact .inr (.inl ⟨rfl, rfl⟩)
  | poll service handled => exact .inr (.inr ⟨service, _, handled, rfl⟩)
  | _ => exact .inl rfl

/-- Settles O49: the step runs a command, and only INIT and the handler of POLL write a position. -/
theorem positionMovesByOneOrToZero : Obligations.PositionMovesByOneOrToZero := by
  unfold Obligations.PositionMovesByOneOrToZero
  intro s t a h
  obtain hax | ⟨i, u, runs, hexec, hu⟩ := step_axes h
  · exact .inl (by rw [State.ax, State.ax, hax])
  have hua : u.ax a = s.ax a := by rw [State.ax, State.ax, hu]
  obtain ⟨now, -, effect⟩ := exec_effect hexec a
  rw [hua] at effect
  obtain hpos | ⟨rfl, hzero⟩ | ⟨service, w, handled, hw⟩ := effect.position
  · exact .inl hpos
  · exact .inr ⟨_, runs, .inr (.inr ⟨rfl, hzero⟩)⟩
  · rw [hw]
    obtain hpos | homed | stepped := pollWork_position handled
    · exact .inl hpos
    · exact .inr ⟨i, runs, .inr (.inl ⟨service, homed⟩)⟩
    · exact .inr ⟨i, runs, .inl ⟨service, stepped⟩⟩

/-! ### What cannot be observed: work on one axis (10_state R32) -/

theorem Motor.blankUnset_of_valid {m : Motor} (h : m.speedValid = true) : m.blankUnset = m := if_pos h

/-- The record with its profile dropped, the stored speed parameters kept. -/
def Motor.unset (m : Motor) : Motor := { m with speedValid := false }

theorem Motor.unset_of_unset {m : Motor} (h : m.speedValid = false) : m.unset = m := by
  cases m; cases h; rfl

@[simp] theorem Motor.blankUnset_blankUnset (m : Motor) : m.blankUnset.blankUnset = m.blankUnset := by
  cases h : m.speedValid with
  | true => rw [blankUnset_of_valid h, blankUnset_of_valid h]
  | false => rw [← unset_of_unset h]; rfl

/-- Work whose record has its unset speed parameters blanked. -/
def Work.blankUnset (w : Work) : Work := ⟨w.motor.blankUnset, w.events⟩

/-- Blanking unset speed parameters before the work changes neither how it ends nor, blanked again, what it leaves. -/
def Work.Blind (f : Work → Except Fault Work) : Prop :=
  ∀ w : Work, (f w.blankUnset).map Work.blankUnset = (f w).map Work.blankUnset

/-- Only a record without a profile has anything to blank. -/
theorem Work.blind_of_unset {f : Work → Except Fault Work}
    (h : ∀ (m : Motor) (evs : List (PinRole × Level)),
      (f ⟨m.unset.blankUnset, evs⟩).map blankUnset = (f ⟨m.unset, evs⟩).map blankUnset) : Blind f := by
  intro ⟨m, evs⟩
  cases hv : m.speedValid with
  | true => rw [blankUnset, Motor.blankUnset_of_valid hv]
  | false => rw [← Motor.unset_of_unset hv]; exact h m evs

theorem profile_unset (m : Motor) : m.unset.profile = .error .unsetParameter := rfl

theorem profile_unset_blankUnset (m : Motor) : m.unset.blankUnset.profile = .error .unsetParameter := rfl

/-- MOVE reads the parameters of no record without a profile: it halts or faults (41_motion R111). -/
theorem moveWork_blind (now : Time) (steps : Nat) (d : Direction) : Work.Blind (moveWork now steps d) := by
  refine Work.blind_of_unset fun m evs => ?_
  have position : m.unset.blankUnset.position = m.unset.position := rfl
  simp only [moveWork, profile_unset, profile_unset_blankUnset, position]
  split
  · rfl
  · split <;> rfl

theorem movetoWork_blind (now : Time) (pos : Int) : Work.Blind (movetoWork now pos) := by
  refine Work.blind_of_unset fun m evs => ?_
  have position : m.unset.blankUnset.position = m.unset.position := rfl
  simp only [movetoWork, position]
  split
  · rfl
  · split <;> exact moveWork_blind _ _ _ ⟨m.unset, evs⟩

theorem runspeedWork_blind (v : Int) : Work.Blind (runspeedWork v) := by
  refine Work.blind_of_unset fun m evs => ?_
  have position : m.unset.blankUnset.position = m.unset.position := rfl
  simp only [runspeedWork_eq, position]
  split
  · rfl
  · split <;> rfl

theorem softStopWork_blind : Work.Blind softStopWork := by
  refine Work.blind_of_unset fun m evs => ?_
  have state : m.unset.blankUnset.state = m.unset.state := rfl
  simp only [softStopWork, profile_unset, profile_unset_blankUnset, state]
  split <;> rfl

theorem stopWork_blind (immediate : Bool) : Work.Blind (stopWork immediate) := by
  cases immediate with
  | true => exact Work.blind_of_unset fun _ _ => rfl
  | false => exact softStopWork_blind

theorem setSpeedWork_blind (maxSpeed startSpeed accel : Nat) : Work.Blind (setSpeedWork maxSpeed startSpeed accel) := by
  refine Work.blind_of_unset fun m evs => ?_
  simp only [setSpeedWork]
  split <;> rfl

/-- A step of a record without a profile: it reaches the target or faults (41_motion R111, 42_poll R153). -/
theorem completeStep_unset (hold : Bool) (m : Motor) :
    completeStep hold m.unset =
      if ¬ Representable m.landing then .error .positionOverflow
      else if m.landing = m.target.toInt then .ok { m.unset with position := positionWord m.landing, state := .idle }
      else .error .unsetParameter := by
  split
  next overflow => exact completeStep_overflow overflow
  next inRange =>
  split
  next reached => exact completeStep_reached reached
  next short => exact (completeStep_rule (m := m.unset) (not_not.1 inRange) short).trans (stepRule_unset rfl)

theorem completeStep_blind (hold : Bool) (m : Motor) :
    (completeStep hold m.unset.blankUnset).map Motor.blankUnset = (completeStep hold m.unset).map Motor.blankUnset := by
  have blanked := completeStep_unset hold m.unset.blankUnset
  have landing : m.unset.blankUnset.landing = m.landing := rfl
  have target : m.unset.blankUnset.target = m.target := rfl
  rw [landing, target] at blanked
  rw [completeStep_unset]
  refine (congrArg _ blanked).trans ?_
  split
  · rfl
  · split <;> rfl

/-- The two halves of a phase edge (42_poll R136 to R139). -/
theorem phaseEdge_eq (hold : Bool) (t : Time) (w : Work) :
    phaseEdge hold t w =
      if w.motor.pulseState then
        (completeStep hold (w.motor.lowered t)).map fun m => ⟨m, w.events ++ [(.pwm, false)]⟩
      else .ok ⟨{ w.motor with lastStepTime := t, pulseState := true, pinPwm := true }, w.events ++ [(.pwm, true)]⟩ := by
  cases hp : w.motor.pulseState with
  | false => simp [phaseEdge, hp, Work.setPin, Work.modify]
  | true =>
    simp only [phaseEdge, hp, Motor.lowered, Work.setPin_motor, Work.setPin_events, Work.modify_motor,
      Work.modify_events, Motor.latch_pwm, Bool.not_true, Bool.false_eq_true, if_false, if_true]
    generalize completeStep hold _ = stepped
    cases stepped <;> rfl

theorem phaseEdge_blind (hold : Bool) (t : Time) : Work.Blind (phaseEdge hold t) := by
  refine Work.blind_of_unset fun m evs => ?_
  have blanks : ∀ c : Except Fault Motor, (c.map fun m => Work.mk m (evs ++ [(.pwm, false)])).map Work.blankUnset =
      (c.map Motor.blankUnset).map fun m => ⟨m, evs ++ [(.pwm, false)]⟩ := fun c => by cases c <;> rfl
  have pulse : m.unset.blankUnset.pulseState = m.unset.pulseState := rfl
  rw [phaseEdge_eq, phaseEdge_eq, pulse]
  split
  · rw [blanks, blanks]
    exact congrArg _ (completeStep_blind hold (m.lowered t))
  · rfl

theorem limitStop_blind : Work.Blind fun w => .ok (limitStop w) := by
  refine Work.blind_of_unset fun m evs => ?_
  have direction : m.unset.blankUnset.direction = m.unset.direction := rfl
  simp only [limitStop, direction]
  split <;> rfl

/-- The handler of POLL reads the parameters only where a completed step has a profile (42_poll R130, R139). -/
theorem pollWork_blind (p : Params) (t : Time) : Work.Blind (pollWork p t) := by
  refine Work.blind_of_unset fun m evs => ?_
  have state : m.unset.blankUnset.state = m.unset.state := rfl
  have limitHit : m.unset.blankUnset.limitHit = m.unset.limitHit := rfl
  have edgeDue : m.unset.blankUnset.edgeDue p.timeWidth t = m.unset.edgeDue p.timeWidth t := rfl
  simp only [pollWork, state, limitHit, edgeDue]
  split
  · rfl
  split
  · exact limitStop_blind ⟨m.unset, evs⟩
  split
  · exact phaseEdge_blind _ _ ⟨m.unset, evs⟩
  · rfl

/-- INIT drops the profile and keeps the stored parameters, which are then blanked (43_config R171, log entry 20). -/
theorem initWork_blind : Work.Blind fun w => .ok (initWork w) := Work.blind_of_unset fun _ _ => rfl

/-! ### What cannot be observed: states -/

@[simp] theorem State.blankUnset_ax (s : State) (a : Axis) : s.blankUnset.ax a = (s.ax a).blankUnset := by
  match a with
  | 0 | 1 | 2 | 3 => rfl

@[simp] theorem State.blankUnset_blankUnset (s : State) : s.blankUnset.blankUnset = s.blankUnset := by
  simp [State.blankUnset]

theorem State.blankUnset_commit (s : State) (a : Axis) (w : Work) :
    (s.commit a w).blankUnset = s.blankUnset.commit a w.blankUnset := by
  match a with
  | 0 | 1 | 2 | 3 => rfl

/-- Two outcomes that agree but for the parameters of missing profiles. -/
def Alike (o o' : Out) : Prop := mapNext State.blankUnset o = mapNext State.blankUnset o'

/-- Blanking unset speed parameters before `F` changes nothing that can be observed of its outcome. -/
def Blind (F : State → Out) : Prop := ∀ s, Alike (F s.blankUnset) (F s)

theorem blind_next {h : State → State} (hh : ∀ s, h s.blankUnset = (h s).blankUnset) : Blind fun s => .next (h s) := by
  intro s
  simp only [Alike, mapNext, hh, State.blankUnset_blankUnset]

theorem onAxis_alike {f : Work → Except Fault Work} (hf : Work.Blind f) (a : Axis) (s : State) :
    Alike (onAxis a f s.blankUnset) (onAxis a f s) := by
  have commits : ∀ u : State, mapNext State.blankUnset (onAxis a f u) =
      match (f ⟨u.ax a, []⟩).map Work.blankUnset with
      | .ok w => .next (u.blankUnset.commit a w)
      | .error e => .fault e := by
    intro u
    unfold onAxis
    cases f ⟨u.ax a, []⟩ with
    | ok w => exact congrArg Host.Outcome.next (u.blankUnset_commit a w)
    | error e => rfl
  have same : (f ⟨s.blankUnset.ax a, []⟩).map Work.blankUnset = (f ⟨s.ax a, []⟩).map Work.blankUnset := by
    rw [State.blankUnset_ax]; exact hf ⟨s.ax a, []⟩
  rw [Alike, commits, commits, same, State.blankUnset_blankUnset]

theorem andThen_alike {o o' : Out} {g : State → Out} (ho : Alike o o') (hg : Blind g) :
    Alike (andThen o g) (andThen o' g) := by
  have blanks : ∀ o : Out, mapNext State.blankUnset (andThen o g) =
      mapNext State.blankUnset (andThen (mapNext State.blankUnset o) g) := by
    intro o
    cases o with
    | next s => exact (hg s).symm
    | fault e => rfl
    | refused r => rfl
  rw [Alike, blanks o, ho, ← blanks o']

theorem commandOnAxis_alike {f : Work → Except Fault Work} (hf : Work.Blind f) (i : Instr) (a : Axis) (s : State) :
    Alike (commandOnAxis i a f s.blankUnset) (commandOnAxis i a f s) :=
  andThen_alike (onAxis_alike hf a s) (blind_next fun _ => rfl)

theorem execSetspeed_blind (a : Axis) : Blind (execSetspeed a) := by
  intro s
  have operands : operandMaxSpeed s.blankUnset = operandMaxSpeed s ∧
      operandStartSpeed s.blankUnset = operandStartSpeed s ∧ operandAccel s.blankUnset = operandAccel s := ⟨rfl, rfl, rfl⟩
  simp only [execSetspeed, operands]
  split
  · exact blind_next (h := finish (.setspeed a) codeInvalidArg) (fun _ => rfl) s
  · exact commandOnAxis_alike (setSpeedWork_blind _ _ _) _ a s

theorem pollAxis_blind (a : Axis) : Blind (pollAxis a) := fun s => onAxis_alike (pollWork_blind s.params s.now) a s

theorem ticks_blankUnset (k : Nat) (s : State) : ticks k s.blankUnset = (ticks k s).blankUnset := by
  induction k generalizing s with
  | zero => rfl
  | succ k ih => exact ih (tick s)

theorem gap_blankUnset (s : State) : gap s.blankUnset = (gap s).blankUnset := by
  have gaps : s.blankUnset.gapTicks = s.gapTicks := rfl
  unfold gap
  rw [gaps]
  split
  · rfl
  next n rest _ => exact ticks_blankUnset n { s with gapTicks := rest }

theorem serviceAll_blind (l : List Axis) : Blind (serviceAll l) := by
  induction l with
  | nil => exact blind_next (h := id) fun _ => rfl
  | cons a l ih =>
    cases l with
    | nil => exact pollAxis_blind a
    | cons b l =>
      refine fun s => andThen_alike (pollAxis_blind a s) fun u => ?_
      rw [gap_blankUnset]
      exact ih (gap u)

theorem execPollall_blind : Blind execPollall := fun s =>
  andThen_alike (serviceAll_blind _ { s with draws := s.draws + 1 }) (blind_next fun _ => rfl)

theorem execAdd_blind (a : Axis) : Blind (execAdd a) := blind_next fun _ => rfl

theorem execRemove_blind (a : Axis) : Blind (execRemove a) := blind_next fun _ => rfl

/-- No command depends on the parameters of a missing profile. -/
theorem exec_blind (i : Instr) : Blind (exec i) := by
  intro s
  cases i with
  | init a => exact commandOnAxis_alike initWork_blind _ a s
  | add a => exact execAdd_blind a s
  | remove a => exact execRemove_blind a s
  | setspeed a => exact execSetspeed_blind a s
  | setdir a d => simp only [exec, execSetdir]; exact commandOnAxis_alike (Work.blind_of_unset fun _ _ => rfl) _ a s
  | enable a on => simp only [exec, execEnable]; exact commandOnAxis_alike (Work.blind_of_unset fun _ _ => rfl) _ a s
  | limen a on => simp only [exec, execLimen]; exact commandOnAxis_alike (Work.blind_of_unset fun _ _ => rfl) _ a s
  | setlim a cw ccw => simp only [exec, execSetlim]; exact commandOnAxis_alike (Work.blind_of_unset fun _ _ => rfl) _ a s
  | move a d => exact commandOnAxis_alike (moveWork_blind _ _ _) _ a s
  | moveto a => exact commandOnAxis_alike (movetoWork_blind _ _) _ a s
  | runspeed a => exact commandOnAxis_alike (runspeedWork_blind _) _ a s
  | stop a immediate => exact commandOnAxis_alike (stopWork_blind _) _ a s
  | poll a => exact commandOnAxis_alike (pollWork_blind _ _) _ a s
  | pollall => exact execPollall_blind s

theorem runWord_blind (w : Word) : Blind (runWord exec w) := by
  unfold runWord
  cases decode w with
  | ok i => exact exec_blind i
  | error e => exact blind_next fun _ => rfl

theorem regWrite_blind (addr : Nat) (w : Word) : Blind (regWrite (runWord exec) addr w) := by
  unfold regWrite
  cases regAt addr
  case cmd => exact runWord_blind w
  all_goals exact blind_next fun _ => rfl

/-- A read of a speed parameter without a profile is a free value (20_memory R62), and no other register of an axis holds
one. -/
theorem axisRegValue_blankUnset (s : State) (a : Axis) (r : AxisReg) :
    axisRegValue s.blankUnset a r = axisRegValue s a r := by
  have blanked := s.blankUnset_ax a
  cases hv : (s.ax a).speedValid with
  | true =>
    rw [Motor.blankUnset_of_valid hv] at blanked
    cases r <;> simp only [axisRegValue, blanked] <;> rfl
  | false =>
    have dropped : s.ax a = (s.ax a).unset := (Motor.unset_of_unset hv).symm
    cases r <;> simp only [axisRegValue, blanked] <;> rw [dropped] <;> rfl

theorem regValue_blankUnset (r : Reg) (s : State) : regValue s.blankUnset r = regValue s r := by
  cases r with
  | axis a r => exact axisRegValue_blankUnset s a r
  | _ => rfl

theorem loadLatch_blankUnset (r : Reg) (s : State) : loadLatch r s.blankUnset = (loadLatch r s).blankUnset := by
  have params : s.blankUnset.params = s.params := rfl
  unfold loadLatch
  rw [params]
  split <;> rfl

/-- A read of register `r`, logged as the event `log` makes of the value (20_memory R62, R65). -/
def readLogged (r : Reg) (log : Word → ReadEvent) (s : State) : State :=
  let t := readEffect r s
  { t with reads := t.reads ++ [log (regValue s r)] }

theorem readLogged_blankUnset (r : Reg) (log : Word → ReadEvent) (s : State) :
    readLogged r log s.blankUnset = (readLogged r log s).blankUnset := by
  simp only [readLogged, readEffect, regValue_blankUnset, loadLatch_blankUnset]
  rfl

theorem busRead_blind (byteAddr count : Nat) : Blind (busRead byteAddr count) := by
  intro s
  unfold busRead
  split
  · exact blind_next (readLogged_blankUnset (regAt (byteAddr / 4)) fun v => .bytes byteAddr (wordBytes v)) s
  · rfl

theorem busWrite_blind (byteAddr : Nat) (bytes : List Byte) : Blind (busWrite exec byteAddr bytes) := by
  intro s
  unfold busWrite
  split
  · exact regWrite_blind _ _ s
  · rfl

theorem runEvent_blind (e : Event) : Blind (runEvent exec e) := by
  cases e with
  | tick => exact blind_next fun _ => rfl
  | cmd w a0 a1 a2 => exact fun s => runWord_blind w { s with arg0 := a0, arg1 := a1, arg2 := a2 }
  | regWrite addr w => exact regWrite_blind addr w
  | regRead addr => exact blind_next (readLogged_blankUnset (regAt addr) (.register addr))
  | busWrite byteAddr bytes => exact busWrite_blind byteAddr bytes
  | busRead byteAddr count => exact busRead_blind byteAddr count

/-- Settles O54: every event, the commands it may run included, is blind to the parameters of a missing profile. -/
theorem unsetParametersAreUnobservable : Obligations.UnsetParametersAreUnobservable := by
  unfold Obligations.UnsetParametersAreUnobservable
  intro s
  have input : s.blankUnset.input = s.input := rfl
  unfold step stepWith
  rw [input]
  split
  · exact blind_next (h := tick) (fun _ => rfl) s
  next e rest _ => exact runEvent_blind e { s with input := rest }

end Sys2Proof.Machine

/-! The statements of 20_memory: writes (R63), `Cmd` (R64), the byte bus (R65, R66), the register map (R61, R68), and reads
with their latch (R62, R76). A step whose next event is a host access is said once per access; the map is said once from an
address to its register, and back only for the registers that a write or the latch depends on. -/

namespace Sys2Proof.Machine

/-! ### Steps that are host accesses -/

section accesses
variable (s : State) (rest : List Event)

theorem step_of_input_regWrite (addr : Nat) (v : Word) :
    step { s with input := .regWrite addr v :: rest } = regWrite (runWord exec) addr v { s with input := rest } := rfl

theorem step_of_input_cmd (w a0 a1 a2 : Word) :
    step { s with input := .cmd w a0 a1 a2 :: rest } =
      runWord exec w { s with input := rest, arg0 := a0, arg1 := a1, arg2 := a2 } := rfl

theorem step_of_input_regRead (addr : Nat) :
    step { s with input := .regRead addr :: rest } =
      .next (readLogged (regAt addr) (.register addr) { s with input := rest }) := rfl

/-- An aligned word write on the byte bus is the register write of the word that the bytes spell (20_memory R65). -/
theorem step_of_input_busWrite (n : Nat) (b0 b1 b2 b3 : Byte) :
    step { s with input := .busWrite (4 * n) [b0, b1, b2, b3] :: rest } =
      step { s with input := .regWrite n (b3 ++ b2 ++ b1 ++ b0) :: rest } := by
  have aligned : Event.wellFormed (.busWrite (4 * n) [b0, b1, b2, b3]) = true := by simp [Event.wellFormed]
  have register : 4 * n / 4 = n := Nat.mul_div_cancel_left n (by decide)
  rw [step_of_input_regWrite, ← bytesWord_four]
  refine (if_pos aligned).trans ?_
  rw [register]

/-- An aligned word read on the byte bus is the register read, logged as bytes (20_memory R65). -/
theorem step_of_input_busRead (n : Nat) :
    step { s with input := .busRead (4 * n) 4 :: rest } =
      .next (readLogged (regAt n) (fun v => .bytes (4 * n) (wordBytes v)) { s with input := rest }) := by
  have aligned : Event.wellFormed (.busRead (4 * n) 4) = true := by simp [Event.wellFormed]
  have register : 4 * n / 4 = n := Nat.mul_div_cancel_left n (by decide)
  refine (if_pos aligned).trans ?_
  rw [register]
  rfl

/-- An access that is not one aligned word is refused (20_memory R66). -/
theorem step_of_input_busWrite_refused {byteAddr : Nat} {bytes : List Byte}
    (h : ¬ (byteAddr % 4 = 0 ∧ bytes.length = 4)) :
    step { s with input := .busWrite byteAddr bytes :: rest } = .refused .unalignedBusAccess :=
  if_neg (by simpa [Event.wellFormed] using h)

theorem step_of_input_busRead_refused {byteAddr count : Nat} (h : ¬ (byteAddr % 4 = 0 ∧ count = 4)) :
    step { s with input := .busRead byteAddr count :: rest } = .refused .unalignedBusAccess :=
  if_neg (by simpa [Event.wellFormed] using h)

end accesses

theorem runWord_of_ok {w : Word} {i : Instr} (h : decode w = .ok i) (s : State) : runWord exec w s = exec i s := by
  rw [runWord, h]

theorem runWord_of_error {w : Word} {e : DecodeError} (h : decode w = .error e) (s : State) :
    runWord exec w s = .next { s with result := ⟨2, w.setWidth 14⟩ } := by
  rw [runWord, h]
  rfl

/-- A command word, legal or not, leaves the argument registers alone. -/
theorem runWord_arguments {w : Word} {s t : State} (h : runWord exec w s = .next t) :
    t.arg0 = s.arg0 ∧ t.arg1 = s.arg1 ∧ t.arg2 = s.arg2 := by
  obtain rfl | ⟨i, -, hi⟩ := runWord_cases h
  · exact ⟨rfl, rfl, rfl⟩
  · exact exec_arguments hi

/-! ### `Cmd` (20_memory R64) -/

/-- A run goes on from the next state of its first step. -/
theorem run_succ_of_next {M : Host.Core} {k : Nat} {s t : M.State} {o : Host.Outcome M.State M.Fault M.Refusal}
    (hstep : M.step s = .next t) (hrun : M.run k t = o) : M.run (k + 1) s = o := by
  rw [Host.Core.run, hstep]
  exact hrun

theorem run_one {M : Host.Core} (s : M.State) : M.run 1 s = M.step s := by
  rw [Host.Core.run]
  cases M.step s <;> rfl

/-- Settles O5: the first three writes answer next states, and the fourth runs the word on what they leave. -/
theorem cmdIsFourRegisterWrites : Obligations.CmdIsFourRegisterWrites := by
  unfold Obligations.CmdIsFourRegisterWrites
  intro w a0 a1 a2 s rest
  refine ⟨Eq.symm ?_, fun t h => runWord_arguments h⟩
  refine run_succ_of_next (M := Sys2Proof.core) (k := 3)
    (t := { s with arg0 := a0, input := .regWrite 0x06 a1 :: .regWrite 0x07 a2 :: .regWrite 0x04 w :: rest }) rfl ?_
  refine run_succ_of_next (k := 2)
    (t := { s with arg0 := a0, arg1 := a1, input := .regWrite 0x07 a2 :: .regWrite 0x04 w :: rest }) rfl ?_
  refine run_succ_of_next (k := 1)
    (t := { s with arg0 := a0, arg1 := a1, arg2 := a2, input := .regWrite 0x04 w :: rest }) rfl ?_
  exact run_one _

/-! ### The register map (20_memory R61, R68) -/

/-- The block of an axis (20_memory R61). -/
theorem regAt_axisBlock (a : Axis) {k : Nat} (hk : k < 16) : regAt (0x10 + 0x10 * a.val + k) = axisRegAt a k := by
  have block : (0x10 + 0x10 * a.val + k) / 16 = a.val + 1 := by omega
  have offset : (0x10 + 0x10 * a.val + k) % 16 = k := by omega
  unfold regAt
  rw [block, offset]
  match a with
  | 0 | 1 | 2 | 3 => rfl

/-- An axis uses ten addresses of its block (20_memory R68). -/
theorem axisRegAt_reserved (a : Axis) {k : Nat} (hk : 10 ≤ k) : axisRegAt a k = .reserved := by
  obtain ⟨j, rfl⟩ := Nat.exists_eq_add_of_le' hk
  rfl

/-- Above the blocks of the axes the map lists nothing (20_memory R68). -/
theorem regAt_reserved_of_le {addr : Nat} (h : 0x50 ≤ addr) : regAt addr = .reserved := by
  obtain ⟨j, hj⟩ := Nat.exists_eq_add_of_le' (show 5 ≤ addr / 16 by omega)
  unfold regAt
  rw [hj]
  rfl

/-- From 0x09 up the map lists registers of axes only (20_memory R61). -/
theorem regAt_of_nine_le {addr : Nat} (h : 9 ≤ addr) : regAt addr = .reserved ∨ ∃ a r, regAt addr = .axis a r := by
  by_cases low : addr < 0x10
  · left
    interval_cases addr <;> rfl
  by_cases high : 0x50 ≤ addr
  · exact .inl (regAt_reserved_of_le high)
  obtain ⟨a, k, hk, rfl⟩ : ∃ (a : Axis) (k : Nat), k < 16 ∧ addr = 0x10 + 0x10 * a.val + k :=
    ⟨⟨addr / 16 - 1, by omega⟩, addr % 16, by omega, by simp only; omega⟩
  rw [regAt_axisBlock a hk]
  rcases Nat.lt_or_ge k 10 with used | unused
  · right
    interval_cases k <;> exact ⟨a, _, rfl⟩
  · exact .inl (axisRegAt_reserved a unused)

/-! ### Writes (20_memory R63) -/

/-- A register that is neither an argument nor CMD ignores what is written to it. -/
theorem regWrite_ignored {addr : Nat} (h : addr ∉ [0x04, 0x05, 0x06, 0x07]) (run : Word → State → Out) (v : Word)
    (s : State) : regWrite run addr v s = .next s := by
  by_cases low : addr < 9
  · have readOnly : addr = 0x00 ∨ addr = 0x01 ∨ addr = 0x02 ∨ addr = 0x03 ∨ addr = 0x08 := by
      simp only [List.mem_cons, List.not_mem_nil, or_false, not_or] at h
      omega
    obtain rfl | rfl | rfl | rfl | rfl := readOnly <;> rfl
  · unfold regWrite
    obtain hr | ⟨a, r, hr⟩ := regAt_of_nine_le (Nat.le_of_not_lt low) <;> rw [hr]

/-- Settles O43: the map sends the four written addresses to the arguments and CMD, and no other address there. -/
theorem writesReachTheArgumentRegistersAndTheCommandPort :
    Obligations.WritesReachTheArgumentRegistersAndTheCommandPort := by
  unfold Obligations.WritesReachTheArgumentRegistersAndTheCommandPort
  intro s v rest
  exact ⟨rfl, rfl, rfl, fun i hi => runWord_of_ok hi _, fun e he => runWord_of_error he _,
    fun addr h => regWrite_ignored h _ v _⟩

/-! ### The byte bus (20_memory R65) -/

/-- The four bytes of a word spell it. -/
theorem bytes_append_eq (w : Word) :
    (w.extractLsb' 24 8 ++ w.extractLsb' 16 8 ++ w.extractLsb' 8 8 ++ w.extractLsb' 0 8 : Word) = w := by
  have upper : w.extractLsb' 24 8 ++ w.extractLsb' 16 8 = w.extractLsb' 16 16 :=
    BitVec.extractLsb'_append_extractLsb'_eq_extractLsb' rfl
  have upper3 : w.extractLsb' 16 16 ++ w.extractLsb' 8 8 = w.extractLsb' 8 24 :=
    BitVec.extractLsb'_append_extractLsb'_eq_extractLsb' rfl
  rw [upper, upper3]
  exact (BitVec.extractLsb'_append_extractLsb'_eq_extractLsb' rfl).trans BitVec.extractLsb'_eq_self

/-- A word numbered as the opcode table numbers it, in all 32 bits, is itself. -/
theorem tableWord_toNat (w : Word) : tableWord 32 w.toNat = w := by
  rw [tableWord, Nat.mod_eq_of_lt w.isLt, BitVec.ofNat_toNat, BitVec.setWidth_eq]

/-- Settles O4: each way of writing CMD runs the word, and a legal word is run as its command. -/
theorem stepRunsTheWrittenCommand : Obligations.StepRunsTheWrittenCommand := by
  unfold Obligations.StepRunsTheWrittenCommand
  intro w i s rest hw
  have write : ∀ rest, step { s with input := .regWrite 0x04 w :: rest } = exec i { s with input := rest } :=
    fun rest => runWord_of_ok hw _
  refine ⟨write rest, fun a0 a1 a2 => runWord_of_ok hw _, ?_, ?_⟩
  · exact (step_of_input_busWrite s rest 4 _ _ _ _).trans (by rw [bytes_append_eq]; exact write rest)
  · rw [State.withFetchWord, tableWord_toNat]
    exact write s.input

/-! ### Reads (20_memory R62) -/

/-- A read of a register sees none of the model's schedule. -/
theorem regValue_input (s : State) (rest : List Event) (r : Reg) :
    regValue { s with input := rest } r = regValue s r := by
  cases r with
  | axis a r => cases r <;> rfl
  | _ => rfl

/-- What a read leaves in the latch. -/
theorem loadLatch_timeHiLatch (r : Reg) (s : State) :
    (loadLatch r s).timeHiLatch =
      if r = .timeUs ∧ s.params.timeWidth = .w64 then timeHigh s.timeUs else s.timeHiLatch := by
  unfold loadLatch
  split
  next w64 => rw [if_pos ⟨rfl, w64⟩]
  next other => rw [if_neg fun ⟨hr, w64⟩ => other hr w64]

/-- All that a read does: the latch, the draw counter and the log. -/
theorem readLogged_eq (r : Reg) (log : Word → ReadEvent) (s : State) :
    readLogged r log s =
      { s with
        timeHiLatch := if r = .timeUs ∧ s.params.timeWidth = .w64 then timeHigh s.timeUs else s.timeHiLatch
        reads := s.reads ++ [log (regValue s r)]
        draws := s.draws + 1 } := by
  rw [readLogged, readEffect_frame, loadLatch_timeHiLatch]

theorem readLogged_reads (r : Reg) (log : Word → ReadEvent) (s : State) :
    (readLogged r log s).reads = s.reads ++ [log (regValue s r)] := by
  rw [readLogged_eq]

/-- A read returns the content of the register at its address, and nothing else. -/
theorem State.returns_iff {s : State} {addr : Nat} {v : Word} : s.Returns addr v ↔ v = regValue s (regAt addr) := by
  have reads : (readLogged (regAt addr) (.register addr) s).reads = _ := readLogged_reads ..
  unfold State.Returns
  rw [step_of_input_regRead]
  constructor
  · rintro ⟨t, ht, hv⟩
    cases ht
    rw [reads] at hv
    simpa using hv.symm
  · rintro rfl
    exact ⟨_, rfl, reads⟩

theorem State.returns_regValue (s : State) (addr : Nat) : s.Returns addr (regValue s (regAt addr)) :=
  State.returns_iff.2 rfl

/-- What a read returns at an offset of the block of an axis. -/
theorem State.returns_axisBlock (s : State) (a : Axis) {k : Nat} (hk : k < 16) :
    s.Returns (0x10 + 0x10 * a.val + k) (regValue s (axisRegAt a k)) := by
  rw [State.returns_iff, regAt_axisBlock a hk]

/-- Settles O45: an aligned word access is the register access; bytes read are those of the value the register returns. -/
theorem byteBusIsLittleEndianAndWordOnly : Obligations.ByteBusIsLittleEndianAndWordOnly := by
  unfold Obligations.ByteBusIsLittleEndianAndWordOnly
  intro s rest
  refine ⟨step_of_input_busWrite s rest, ?_, fun _ _ => step_of_input_busWrite_refused s rest,
    fun _ _ => step_of_input_busRead_refused s rest⟩
  intro n v hv
  obtain rfl := State.returns_iff.1 hv
  refine ⟨_, step_of_input_busRead s rest n, ?_⟩
  rw [readLogged_reads, regValue_input]
  rfl

/-! ### What the packed registers hold (20_memory R61) -/

/-- The registry word, bit by bit. -/
theorem registryWord_fields (s : State) :
    (∀ b : Axis, (regValue s .registry).getLsbD b.val = s.isRegistered b) ∧
      (regValue s .registry).extractLsb' 4 28 = 0 := by
  have register : regValue s .registry = s.registered.setWidth 32 := rfl
  rw [register]
  constructor
  · intro b
    have hb : b.val < 32 := by omega
    simp [State.isRegistered, hb]
  · ext i
    simp

/-- RESULT, field by field. -/
theorem Result.word_fields (r : Result) :
    r.word.extractLsb' 0 8 = r.code ∧ r.word.extractLsb' 8 8 = 0 ∧ r.word.extractLsb' 16 14 = r.cmd ∧
      r.word.extractLsb' 30 2 = 0 := by
  have field : ∀ start len, r.word.extractLsb' start len =
      BitVec.extractLsb' start len (0#2 ++ r.cmd ++ 0#8 ++ r.code) := fun _ _ => rfl
  simp only [field, BitVec.extractLsb'_append_eq_ite]
  simp

/-- AXSTAT, bit by bit. -/
theorem Motor.status_getLsbD (m : Motor) (registered : Bool) (i : Nat) :
    (m.status registered).getLsbD i =
      [m.state.code.getLsbD 0, m.state.code.getLsbD 1, m.direction.code, m.pulseState, m.limitEnabled, m.cwLimit,
        m.ccwLimit, registered, m.pinPwm, m.pinDir, m.pinEn, m.speedValid].getD i false := by
  change BitVec.getLsbD (w := 20 + 1 + 1 + 1 + 1 + 1 + 1 + 1 + 1 + 1 + 1 + 2) _ i = _
  match i with
  | 0 | 1 | 2 | 3 | 4 | 5 | 6 | 7 | 8 | 9 | 10 | 11 | _ + 12 =>
    simp only [Motor.status, BitVec.getLsbD_append]
    simp

theorem Motor.status_state (m : Motor) (registered : Bool) : (m.status registered).extractLsb' 0 2 = m.state.code := by
  apply BitVec.eq_of_getLsbD_eq
  intro i hi
  rw [BitVec.getLsbD_extractLsb', Motor.status_getLsbD]
  interval_cases i <;> rfl

theorem Motor.status_unused (m : Motor) (registered : Bool) : (m.status registered).extractLsb' 12 20 = 0 := by
  apply BitVec.eq_of_getLsbD_eq
  intro i hi
  rw [BitVec.getLsbD_extractLsb', Motor.status_getLsbD, List.getD_eq_default _ _ (by simp)]
  simp

theorem direction_code_eq (d : Direction) : d.code = decide (d = .ccw) := by cases d <;> rfl

theorem timeLow_eq (t : Time) : timeLow t = t.extractLsb' 0 32 := BitVec.setWidth_eq_extractLsb' (by decide)

theorem timeHigh_append_timeLow (t : Time) : (timeHigh t ++ timeLow t : Time) = t := by
  rw [timeLow_eq]
  exact (BitVec.extractLsb'_append_extractLsb'_eq_extractLsb' rfl).trans BitVec.extractLsb'_eq_self

theorem speedRegValue_of_valid {m : Motor} (h : m.speedValid = true) (draw : Nat) (field : Word) :
    speedRegValue draw m field = field := if_pos h

theorem speedRegValue_of_unset {m : Motor} (h : m.speedValid = false) (draw : Nat) (field : Word) :
    speedRegValue draw m field = Config.unsetRead draw := by
  rw [speedRegValue, h]
  rfl

/-- The upper half of the time exists with TW = 64 only (20_memory R76). -/
theorem regValue_timeUsHi (s : State) :
    regValue s .timeUsHi = if s.params.timeWidth = .w32 then 0 else s.timeHiLatch := by
  rw [regValue]
  cases s.params.timeWidth <;> rfl

theorem State.returns_timeUsHi (s : State) :
    s.Returns 0x01 (if s.params.timeWidth = .w32 then 0 else s.timeHiLatch) :=
  State.returns_iff.2 (regValue_timeUsHi s).symm

/-- The upper half of a time stamp exists with TW = 64 only (20_memory R61). -/
theorem axisRegValue_lastStepTimeHi (s : State) (a : Axis) :
    axisRegValue s a .lastStepTimeHi = if s.params.timeWidth = .w32 then 0 else timeHigh (s.ax a).lastStepTime := by
  rw [axisRegValue]
  cases s.params.timeWidth <;> rfl

/-- Settles O41: each address is sent to its register by the map, and each register to its fields. -/
theorem registerMapContents : Obligations.RegisterMapContents := by
  unfold Obligations.RegisterMapContents
  intro s a m base is32
  refine ⟨?time, s.returns_timeUsHi, s.returns_regValue 0x02, ⟨_, s.returns_regValue 0x03, registryWord_fields s⟩,
    s.returns_regValue 0x04, s.returns_regValue 0x05, s.returns_regValue 0x06, s.returns_regValue 0x07,
    ⟨_, s.returns_regValue 0x08, s.result.word_fields⟩,
    ⟨_, s.returns_axisBlock a (k := 0) (by decide), ?axstat⟩,
    s.returns_axisBlock a (k := 1) (by decide), s.returns_axisBlock a (k := 2) (by decide),
    s.returns_axisBlock a (k := 3) (by decide), ?speed, s.returns_axisBlock a (k := 7) (by decide), ?stamp, ?stampHi,
    ?reserved⟩
  case time => exact State.returns_iff.2 (timeLow_eq _).symm
  case axstat =>
    have bit := m.status_getLsbD (s.isRegistered a)
    refine ⟨(m.status_state _).trans ?_, (bit 2).trans (direction_code_eq _), bit 3, bit 4, bit 5, bit 6, bit 7,
      bit 8, bit 9, bit 10, bit 11, m.status_unused _⟩
    cases m.state <;> rfl
  case speed =>
    intro valid
    have field := speedRegValue_of_valid valid s.draws
    exact ⟨field m.minStepDelay ▸ s.returns_axisBlock a (k := 4) (by decide),
      field m.maxStepDelay ▸ s.returns_axisBlock a (k := 5) (by decide),
      field m.accelSteps ▸ s.returns_axisBlock a (k := 6) (by decide)⟩
  case stamp => exact timeLow_eq m.lastStepTime ▸ s.returns_axisBlock a (k := 8) (by decide)
  case stampHi => exact axisRegValue_lastStepTimeHi s a ▸ s.returns_axisBlock a (k := 9) (by decide)
  case reserved =>
    intro addr unlisted
    have reserved : regAt addr = .reserved := by
      obtain ⟨hlo, hhi⟩ | ⟨hlo, hhi⟩ | high := unlisted
      · interval_cases addr <;> rfl
      · obtain ⟨k, rfl⟩ := Nat.exists_eq_add_of_le (Nat.le_trans (Nat.le_add_right base 0xA) hlo)
        rw [regAt_axisBlock a (by omega), axisRegAt_reserved a (by omega)]
      · exact regAt_reserved_of_le high
    rw [State.returns_iff, reserved]
    rfl

/-! ### Reads and the latch (20_memory R62, R76) -/

/-- TIME_US is one register (20_memory R61). -/
theorem regAt_eq_timeUs {addr : Nat} : regAt addr = .timeUs ↔ addr = 0 := by
  refine ⟨fun h => ?_, fun h => h ▸ rfl⟩
  by_cases low : addr < 9
  · interval_cases addr
    · rfl
    all_goals cases h
  · obtain hr | ⟨a, r, hr⟩ := regAt_of_nine_le (Nat.le_of_not_lt low) <;> cases hr.symm.trans h

/-- A speed-parameter register without a profile reads as a free value (20_memory R62). -/
theorem State.returns_speedReg_of_unset {s : State} {a : Axis} {k : Nat} (unset : (s.ax a).speedValid = false)
    (lo : 4 ≤ k) (hi : k ≤ 6) : s.Returns (0x10 + 0x10 * a.val + k) (Config.unsetRead s.draws) := by
  have free : regValue s (axisRegAt a k) = Config.unsetRead s.draws := by
    interval_cases k <;> exact speedRegValue_of_unset unset ..
  exact free ▸ s.returns_axisBlock a (Nat.lt_of_le_of_lt hi (by decide))

/-- Settles O42: the frame of a read, and the free value of a speed parameter without a profile. -/
theorem readsChangeNothingButTheLatch : Obligations.ReadsChangeNothingButTheLatch := by
  unfold Obligations.ReadsChangeNothingButTheLatch
  intro s addr rest
  constructor
  · refine ⟨regValue s (regAt addr), ?_⟩
    simp only [step_of_input_regRead, readLogged_eq, regValue_input, regAt_eq_timeUs]
    rfl
  · intro a unset haddr
    obtain ⟨k, lo, hi, rfl⟩ : ∃ k, 4 ≤ k ∧ k ≤ 6 ∧ addr = 0x10 + 0x10 * a.val + k := by
      simp only [List.mem_cons, List.not_mem_nil, or_false] at haddr
      exact ⟨addr - (0x10 + 0x10 * a.val), by omega, by omega, by omega⟩
    exact State.returns_speedReg_of_unset unset lo hi

/-- With TW = 64 a read of TIME_US_HI returns the latch. -/
theorem State.returns_timeUsHi_of_w64 {s : State} (h : s.params.timeWidth = .w64) : s.Returns 0x01 s.timeHiLatch := by
  simpa [h] using s.returns_timeUsHi

/-- Settles O44: the read of TIME_US latches the upper half, and no TICK writes the latch. -/
theorem timeReadsThroughTheLatchAreConsistent : Obligations.TimeReadsThroughTheLatchAreConsistent := by
  unfold Obligations.TimeReadsThroughTheLatchAreConsistent
  refine ⟨rfl, fun s t rest k => ⟨fun w32 => ?_, fun w64 h => ?_⟩⟩
  · simpa [w32] using s.returns_timeUsHi
  · rw [step_of_input_regRead, readLogged_eq, Host.Outcome.next.injEq] at h
    have latched : (ticks k t).timeHiLatch = timeHigh s.timeUs := by
      rw [ticks_timeHiLatch, ← h]
      exact if_pos ⟨rfl, w64⟩
    have width : (ticks k t).params.timeWidth = .w64 := by rw [ticks_params, ← h]; exact w64
    refine ⟨timeLow s.timeUs, timeHigh s.timeUs, ?_, ?_, timeHigh_append_timeLow s.timeUs⟩
    · rw [← h]
      rfl
    · exact latched ▸ State.returns_timeUsHi_of_w64 width

end Sys2Proof.Machine

/-! The statements of 30_encoding: the worked encodings (R91), the decoder against the encoder (R83), and the illegal words
(R86). A word is taken apart into its six fields once; the masks of the opcode map are read as conditions on these fields, so
that no later proof looks at single bits. -/

namespace Sys2Proof

/-! ### The fields of a word (30_encoding R81) -/

/-- The reserved field `z1`, bits 11:10. -/
def z1Field (w : Word) : BitVec 2 := w.extractLsb' 10 2

/-- The reserved field `z2`, bits 31:14. -/
def z2Field (w : Word) : BitVec 18 := w.extractLsb' 14 18

/-- A word from all its fields, the reserved ones included. -/
def ofFields (z2 : BitVec 18) (g f : Bool) (z1 axis : BitVec 2) (op : BitVec 8) : Word :=
  z2 ++ BitVec.ofBool g ++ BitVec.ofBool f ++ z1 ++ axis ++ op

theorem ofBool_getLsbD {n : Nat} (x : BitVec n) (i : Nat) : BitVec.ofBool (x.getLsbD i) = x.extractLsb' i 1 := by
  ext j hj
  obtain rfl : j = 0 := by omega
  simp

theorem ofFields_fields (w : Word) :
    ofFields (z2Field w) (gField w) (fField w) (z1Field w) (BitVec.ofFin (axisField w)) (opField w) = w := by
  simp only [ofFields, z2Field, gField, fField, z1Field, axisField, opField, ofBool_getLsbD, BitVec.ofFin_toFin,
    BitVec.extractLsb'_append_extractLsb'_eq_extractLsb']
  exact BitVec.extractLsb'_eq_self

theorem ofFin_eq_zero {a : Axis} : BitVec.ofFin (w := 2) a = 0#2 ↔ a = 0 := by
  revert a
  decide

theorem append_eq_append {m n : Nat} {x x' : BitVec m} {y y' : BitVec n} : x ++ y = x' ++ y' ↔ x = x' ∧ y = y' := by
  refine ⟨fun h => ⟨?_, ?_⟩, fun ⟨hx, hy⟩ => hx ▸ hy ▸ rfl⟩
  · simpa [BitVec.extractLsb'_append_eq_left] using congrArg (·.extractLsb' n m) h
  · simpa [BitVec.extractLsb'_append_eq_right] using congrArg (·.extractLsb' 0 n) h

theorem ofBool_eq_ofBool {b c : Bool} : BitVec.ofBool b = BitVec.ofBool c ↔ b = c := by
  cases b <;> cases c <;> decide

section ofFields
variable {z2 z2' : BitVec 18} {g g' f f' : Bool} {z1 z1' axis axis' : BitVec 2} {op op' : BitVec 8}

theorem ofFields_inj :
    ofFields z2 g f z1 axis op = ofFields z2' g' f' z1' axis' op' ↔
      z2 = z2' ∧ g = g' ∧ f = f' ∧ z1 = z1' ∧ axis = axis' ∧ op = op' := by
  refine append_eq_append.trans ?_
  simp only [append_eq_append, ofBool_eq_ofBool, and_assoc]

theorem ofFields_and :
    ofFields z2 g f z1 axis op &&& ofFields z2' g' f' z1' axis' op' =
      ofFields (z2 &&& z2') (g && g') (f && f') (z1 &&& z1') (axis &&& axis') (op &&& op') := by
  refine BitVec.and_append.trans ?_
  simp only [BitVec.and_append, BitVec.ofBool_and_ofBool]
  rfl

end ofFields

/-- A word has given fields, and its reserved bits are 0. -/
theorem eq_fieldWord_iff {w : Word} {op : BitVec 8} {a : Axis} {f g : Bool} :
    w = fieldWord op a f g ↔
      z2Field w = 0 ∧ gField w = g ∧ fField w = f ∧ z1Field w = 0 ∧ axisField w = a ∧ opField w = op := by
  conv_lhs => rw [← ofFields_fields w]
  exact ofFields_inj.trans (by simp only [BitVec.ofFin.injEq]; rfl)

section fieldWord
variable (op : BitVec 8) (a : Axis) (f g : Bool)

/-- The fields of a command word are those it was made of. -/
theorem fields_fieldWord :
    let w := fieldWord op a f g
    z2Field w = 0 ∧ gField w = g ∧ fField w = f ∧ z1Field w = 0 ∧ axisField w = a ∧ opField w = op :=
  eq_fieldWord_iff.1 rfl

@[simp] theorem opField_fieldWord : opField (fieldWord op a f g) = op := by
  obtain ⟨-, -, -, -, -, hop⟩ := fields_fieldWord op a f g
  exact hop

@[simp] theorem axisField_fieldWord : axisField (fieldWord op a f g) = a := by
  obtain ⟨-, -, -, -, ha, -⟩ := fields_fieldWord op a f g
  exact ha

@[simp] theorem fField_fieldWord : fField (fieldWord op a f g) = f := by
  obtain ⟨-, -, hf, -, -, -⟩ := fields_fieldWord op a f g
  exact hf

@[simp] theorem gField_fieldWord : gField (fieldWord op a f g) = g := by
  obtain ⟨-, hg, -, -, -, -⟩ := fields_fieldWord op a f g
  exact hg

end fieldWord

/-! ### The formats (30_encoding R82) -/

/-- Whether the format of an opcode uses the axis: not POLLALL. -/
def usesAxis (op : BitVec 8) : Bool := decide (op.toNat ≠ 14)

/-- Whether the format of an opcode uses the first flag: SETDIR, ENABLE, LIMEN, SETLIM, MOVE and STOP. -/
def usesF (op : BitVec 8) : Bool := decide (op.toNat ∈ [5, 6, 7, 8, 9, 12])

/-- Whether the format of an opcode uses the second flag: SETLIM. -/
def usesG (op : BitVec 8) : Bool := decide (op.toNat = 8)

/-- The mask of a format: 1 in every bit of `op`, of the reserved fields, and of the fields the format of `op` does not use. -/
def formatMask (op : BitVec 8) : Word :=
  ofFields (BitVec.allOnes 18) (!usesG op) (!usesF op) (BitVec.allOnes 2) (bif usesAxis op then 0 else BitVec.allOnes 2)
    (BitVec.allOnes 8)

/-- The command word with opcode `op` whose other fields are those of `w` that the format of `op` uses. -/
def usedFields (op : BitVec 8) (w : Word) : Word :=
  fieldWord op (bif usesAxis op then axisField w else 0) (usesF op && fField w) (usesG op && gField w)

/-- A word is made of used fields: the reserved bits are 0, and so is each field that is not used. -/
theorem eq_usedFields_iff {op : BitVec 8} {w : Word} :
    w = usedFields op w ↔
      z2Field w = 0 ∧ (gField w = true → usesG op = true) ∧ (fField w = true → usesF op = true) ∧ z1Field w = 0 ∧
        (usesAxis op = false → axisField w = 0) ∧ opField w = op := by
  rw [usedFields, eq_fieldWord_iff]
  cases usesAxis op <;> simp

/-- The mask check of R83. -/
theorem and_formatMask_eq_iff {op : BitVec 8} {w : Word} :
    w &&& formatMask op = fieldWord op 0 false false ↔ w = usedFields op w := by
  rw [eq_usedFields_iff]
  conv_lhs => rw [← ofFields_fields w, formatMask, ofFields_and]
  refine ofFields_inj.trans ?_
  cases usesAxis op <;> simp [ofFin_eq_zero, -BitVec.reduceAllOnes]

/-! ### The rows of the opcode map (30_encoding R85) -/

/-- The opcode of a row. -/
def OpcodeRow.op (r : OpcodeRow) : BitVec 8 := opField r.pattern

theorem row_mask : ∀ r ∈ opcodeMap, r.mask = formatMask r.op := by decide

theorem row_pattern : ∀ r ∈ opcodeMap, r.pattern = fieldWord r.op 0 false false := by decide

@[simp] theorem Direction.code_ofCode (b : Bool) : (Direction.ofCode b).code = b := by cases b <;> rfl

@[simp] theorem Direction.ofCode_code (d : Direction) : Direction.ofCode d.code = d := by cases d <;> rfl

/-- The command a row builds is encoded with the fields that the row's format uses. -/
theorem encode_build (w : Word) : ∀ r ∈ opcodeMap, encode (r.build w) = usedFields r.op w := by
  simp only [opcodeMap, List.forall_mem_cons, encode, Direction.code_ofCode]
  exact ⟨rfl, rfl, rfl, rfl, rfl, rfl, rfl, rfl, rfl, rfl, rfl, rfl, rfl, rfl, nofun⟩

/-- A word passes the mask check of a row exactly when it is the encoding of the command the row builds from it. -/
theorem mask_check_iff_eq_encode {r : OpcodeRow} (hr : r ∈ opcodeMap) (w : Word) :
    w &&& r.mask = r.pattern ↔ w = encode (r.build w) := by
  rw [row_mask r hr, row_pattern r hr, and_formatMask_eq_iff, encode_build w r hr]

theorem mem_of_findRow {w : Word} {r : OpcodeRow} (h : findRow w = some r) : r ∈ opcodeMap :=
  List.mem_of_find?_eq_some h

theorem op_of_findRow {w : Word} {r : OpcodeRow} (h : findRow w = some r) : r.op = opField w := by
  simpa [OpcodeRow.op] using List.find?_some h

theorem encode_build_of_findRow {w : Word} {r : OpcodeRow} (h : findRow w = some r) :
    encode (r.build w) = usedFields (opField w) w :=
  op_of_findRow h ▸ encode_build w r (mem_of_findRow h)

/-- The opcodes are 1 to 14. -/
theorem findRow_eq_none_iff {w : Word} : findRow w = none ↔ (opField w).toNat = 0 ∨ 14 < (opField w).toNat := by
  have opcodes : opcodeMap.map OpcodeRow.op = [1, 2, 3, 4, 5, 6, 7, 8, 9, 10, 11, 12, 13, 14] := by decide
  have absent : findRow w = none ↔ opField w ∉ opcodeMap.map OpcodeRow.op := by
    simp [findRow, OpcodeRow.op]
  rw [absent, opcodes]
  simp
  bv_omega

/-- From the encoding of a command the decoder finds the command's row, and the row builds the command. -/
theorem findRow_encode (i : Instr) : ∃ r, findRow (encode i) = some r ∧ r.build (encode i) = i := by
  have row (op a f g) : findRow (fieldWord op a f g) = opcodeMap.find? (·.op == op) := by
    rw [findRow, opField_fieldWord]
    rfl
  cases i <;> exact ⟨_, (row ..).trans rfl, by simp [encode]⟩

/-! ### The decoder (30_encoding R83) -/

theorem decode_eq_ok_iff_findRow {w : Word} {i : Instr} :
    decode w = .ok i ↔ ∃ r, findRow w = some r ∧ w = encode (r.build w) ∧ r.build w = i := by
  unfold decode
  cases h : findRow w with
  | none => simp
  | some r => simp [ite_eq_iff, mask_check_iff_eq_encode (mem_of_findRow h)]

/-- Settles O2: the row found builds from the word the one command that the word can encode. -/
theorem decodeAndEncodeAgree : Obligations.DecodeAndEncodeAgree := by
  unfold Obligations.DecodeAndEncodeAgree
  intro w i
  rw [decode_eq_ok_iff_findRow]
  constructor
  · rintro ⟨r, -, hw, rfl⟩
    exact hw
  · rintro rfl
    obtain ⟨r, hr, hi⟩ := findRow_encode i
    exact ⟨r, hr, by rw [hi], hi⟩

/-- A word decodes to a command exactly when its opcode is in the map and it is made of the fields that opcode uses. -/
theorem exists_decode_eq_ok_iff {w : Word} :
    (∃ i, decode w = .ok i) ↔ findRow w ≠ none ∧ w = usedFields (opField w) w := by
  simp only [decode_eq_ok_iff_findRow]
  constructor
  · rintro ⟨-, r, hr, hw, -⟩
    exact ⟨by simp [hr], hw.trans (encode_build_of_findRow hr)⟩
  · rintro ⟨found, hw⟩
    obtain ⟨r, hr⟩ := Option.ne_none_iff_exists'.1 found
    exact ⟨_, r, hr, hw.trans (encode_build_of_findRow hr).symm, rfl⟩

theorem axisField_eq_zero_iff {w : Word} : axisField w = 0 ↔ w.extractLsb' 8 2 = 0 :=
  (ofFin_eq_zero (a := axisField w)).symm

theorem exists_decode_eq_error_iff {w : Word} : (∃ e, decode w = .error e) ↔ ¬ ∃ i, decode w = .ok i := by
  cases decode w <;> simp

/-- Settles O3: a word is illegal exactly when its opcode is not in the map or a field that its format does not use is set;
the step that writes it to CMD only writes the result. -/
theorem illegalWordsWriteOnlyTheResult : Obligations.IllegalWordsWriteOnlyTheResult := by
  unfold Obligations.IllegalWordsWriteOnlyTheResult
  intro w
  refine ⟨?_, fun s rest e illegal => Machine.runWord_of_error illegal _⟩
  rw [exists_decode_eq_error_iff, exists_decode_eq_ok_iff, Ne, findRow_eq_none_iff, eq_usedFields_iff, axisField_eq_zero_iff]
  simp only [usesG, usesF, usesAxis, decide_eq_true_eq, decide_eq_false_iff_not, not_not, and_true]
  simp only [opField, fField, gField, z1Field, z2Field]
  tauto

/-- Settles O1: the assembler and the decoder, evaluated on the words of R91. -/
theorem workedEncodingsAssembleAndDecode : Obligations.WorkedEncodingsAssembleAndDecode := by
  unfold Obligations.WorkedEncodingsAssembleAndDecode
  decide

end Sys2Proof

/-! The statements of 40_timebase: TICK (R100, R101), time from reset (R102), elapsed time (R103 to R105). The last two
rest on one fact, that TICKs add up: one by `i` and one by `j` microseconds are one by `i + j`, so that `k` TICKs are one
by `k * TICK_US`. -/

namespace Sys2Proof.Machine

/-! ### One TICK -/

@[simp] theorem tickBy_params (i : Nat) (s : State) : (tickBy i s).params = s.params := rfl

theorem tickBy_usFrac (i : Nat) (s : State) : (tickBy i s).usFrac = (s.usFrac + i) % 1000 := rfl

theorem tickBy_msTick (i : Nat) (s : State) :
    (tickBy i s).msTick = s.msTick + BitVec.ofNat 32 ((s.usFrac + i) / 1000) := rfl

theorem tickBy_msTick_toNat (i : Nat) (s : State) :
    (tickBy i s).msTick.toNat = (s.msTick.toNat + (s.usFrac + i) / 1000) % 2 ^ 32 := by
  rw [tickBy_msTick, BitVec.toNat_add, BitVec.toNat_ofNat, Nat.add_mod_mod]

/-- What is known of TICK for every TICK_US holds of every increment. -/
theorem tickBy_timeUs_toNat (i : Nat) (s : State) :
    (tickBy i s).timeUs.toNat = (s.timeUs.toNat + i) % 2 ^ s.params.timeWidth.bits :=
  tick_timeUs_toNat { s with params := { s.params with tickUs := i } }

/-- Settles O6: a TICK is one by TICK_US, and `k` and `r` are the quotient and the remainder that it takes. -/
theorem tickAdvancesTheTimeBase : Obligations.TickAdvancesTheTimeBase := by
  unfold Obligations.TickAdvancesTheTimeBase
  intro s rest
  refine ⟨_, step_of_input_tick s rest, tick_timeUs_toNat _, fun k r split hr => ?_, rfl⟩
  have quotient : (s.usFrac + s.params.tickUs) / 1000 = k := by omega
  have remainder : (s.usFrac + s.params.tickUs) % 1000 = r := by omega
  exact ⟨remainder, quotient ▸ tickBy_msTick_toNat _ _⟩

/-! ### TICKs add up -/

theorem tickBy_tickBy (i j : Nat) (s : State) : tickBy j (tickBy i s) = tickBy (i + j) s := by
  have time : (tickBy j (tickBy i s)).timeUs = (tickBy (i + j) s).timeUs := by
    apply BitVec.eq_of_toNat_eq
    rw [tickBy_timeUs_toNat, tickBy_timeUs_toNat, tickBy_timeUs_toNat, tickBy_params, Nat.mod_add_mod, Nat.add_assoc]
  have fraction : (tickBy j (tickBy i s)).usFrac = (tickBy (i + j) s).usFrac := by
    rw [tickBy_usFrac, tickBy_usFrac, tickBy_usFrac, Nat.mod_add_mod, Nat.add_assoc]
  have carried : (s.usFrac + i) / 1000 + ((s.usFrac + i) % 1000 + j) / 1000 = (s.usFrac + (i + j)) / 1000 := by omega
  have millis : (tickBy j (tickBy i s)).msTick = (tickBy (i + j) s).msTick := by
    rw [tickBy_msTick, tickBy_msTick, tickBy_msTick, tickBy_usFrac, BitVec.add_assoc, ← BitVec.ofNat_add, carried]
  calc tickBy j (tickBy i s)
    _ = { s with
          timeUs := (tickBy j (tickBy i s)).timeUs
          usFrac := (tickBy j (tickBy i s)).usFrac
          msTick := (tickBy j (tickBy i s)).msTick } := rfl
    _ = tickBy (i + j) s := by rw [time, fraction, millis]; rfl

theorem ticks_succ_eq_tickBy (k : Nat) (s : State) : ticks (k + 1) s = tickBy ((k + 1) * s.params.tickUs) s := by
  induction k generalizing s with
  | zero => rw [Nat.zero_add, Nat.one_mul]; rfl
  | succ k ih =>
    calc ticks (k + 1) (tick s)
      _ = tickBy ((k + 1) * s.params.tickUs) (tickBy s.params.tickUs s) := ih (tick s)
      _ = tickBy ((k + 1 + 1) * s.params.tickUs) s := by rw [tickBy_tickBy, Nat.succ_mul (k + 1), Nat.add_comm]

/-- A state whose time and fraction are in range is left alone by a TICK of no microseconds. -/
theorem tickBy_zero {s : State} (time : s.params.timeWidth.wrap s.timeUs = s.timeUs) (fraction : s.usFrac < 1000) :
    tickBy 0 s = s := by
  simp [tickBy, time, Nat.mod_eq_of_lt fraction, Nat.div_eq_of_lt fraction]

theorem ticks_eq_tickBy (k : Nat) {s : State} (time : s.params.timeWidth.wrap s.timeUs = s.timeUs)
    (fraction : s.usFrac < 1000) : ticks k s = tickBy (k * s.params.tickUs) s := by
  cases k with
  | zero => rw [Nat.zero_mul, tickBy_zero time fraction]; rfl
  | succ k => exact ticks_succ_eq_tickBy k s

/-- Settles O8: the TICKs are one by `k * TICK_US`, on a time base that is 0. -/
theorem ticksFromResetCountMicrosAndMillis : Obligations.TicksFromResetCountMicrosAndMillis := by
  unfold Obligations.TicksFromResetCountMicrosAndMillis
  intro p k t
  have one : t = tickBy (k * p.tickUs) { State.reset with params := p } :=
    ticks_eq_tickBy k (wrap_zero p.timeWidth) (Nat.zero_lt_succ _)
  rw [one, tickBy_timeUs_toNat, tickBy_msTick_toNat, tickBy_usFrac]
  simp [State.reset]

/-! ### Elapsed time -/

/-- R103: the subtraction modulo 2^64 and the reduction to TW bits are one reduction of the exact difference. -/
theorem elapsed_eq_emod (tw : TimeWidth) (now t0 : Time) :
    (elapsed tw now t0 : Int) = ((now.toNat : Int) - t0.toNat) % 2 ^ tw.bits := by
  rw [elapsed, wrap_toNat, BitVec.toNat_sub, mod_mod_bits]
  cases tw <;> simp only [TimeWidth.bits] <;> omega

/-- R105, from every state: the wraps in between do not show modulo 2^TW. -/
theorem ticks_now_toNat_mod (k : Nat) (s : State) :
    (ticks k s).now.toNat % 2 ^ s.params.timeWidth.bits =
      (s.now.toNat + k * s.params.tickUs) % 2 ^ s.params.timeWidth.bits := by
  cases k with
  | zero => rw [Nat.zero_mul]; rfl
  | succ k => rw [ticks_succ_eq_tickBy, State.now, tickBy_timeUs_toNat, Nat.mod_mod]; rfl

theorem ticks_now_toNat_lt (k : Nat) {s : State} (h : s.timeUs.toNat < 2 ^ s.params.timeWidth.bits) :
    (ticks k s).now.toNat < 2 ^ s.params.timeWidth.bits := by
  have kept := ticks_induct (P := fun t => t.timeUs.toNat < 2 ^ t.params.timeWidth.bits)
    (fun t _ => tick_timeUs_toNat t ▸ Nat.mod_lt _ (Nat.two_pow_pos _)) k s h
  rwa [ticks_params] at kept

theorem ticks_now_toNat (k : Nat) {s : State} (h : s.timeUs.toNat < 2 ^ s.params.timeWidth.bits) :
    (ticks k s).now.toNat = (s.now.toNat + k * s.params.tickUs) % 2 ^ s.params.timeWidth.bits := by
  rw [← ticks_now_toNat_mod, Nat.mod_eq_of_lt (ticks_now_toNat_lt k h)]

/-- R104, from every state: the microseconds added since the snapshot, modulo 2^TW. -/
theorem elapsed_ticks (k : Nat) (s : State) :
    (elapsed s.params.timeWidth (ticks k s).now s.now : Int) =
      (k * s.params.tickUs : Int) % 2 ^ s.params.timeWidth.bits := by
  have time : ((ticks k s).now.toNat : Int) % 2 ^ s.params.timeWidth.bits =
      (s.now.toNat + k * s.params.tickUs) % 2 ^ s.params.timeWidth.bits := mod_cast ticks_now_toNat_mod k s
  rw [elapsed_eq_emod, Int.sub_emod, time, ← Int.sub_emod, add_sub_cancel_left]

/-- Settles O9: the elapsed time is a residue of the exact difference, and the time after the TICKs is a residue of the
snapshot plus `k * TICK_US`. -/
theorem elapsedCountsTicksAcrossWrap : Obligations.ElapsedCountsTicksAcrossWrap := by
  unfold Obligations.ElapsedCountsTicksAcrossWrap
  intro s k
  exact ⟨elapsed_eq_emod _ s.now, elapsed_ticks k s, fun fits => mod_cast ticks_now_toNat k (mod_cast fits)⟩

end Sys2Proof.Machine

/-! The statements of 41_motion: MOVE (R115, R116), MOVETO (R117), RUNSPEED (R120), STOP (R123, R124), the unset speed
parameters (R111), what gates no command (R126, R127), and the transition table (R128). The work of each motion command
is said once, as an equation whose branches are the command's outcomes; every statement is read off these equations. -/

namespace Sys2Proof.Machine

/-! ### The work of MOVE and MOVETO -/

theorem startMove_eq (now : Time) (steps : Nat) (d : Direction) (target : Int) (w : Work) :
    startMove now steps d target w.motor.numbers w =
      ⟨w.motor.started steps d (positionWord target) now, w.events ++ startEvents d⟩ := by
  have events : (startMove now steps d target w.motor.numbers w).events = w.events ++ startEvents d := by
    simp [startMove, startEvents, level_eq_dirLevel]
  rw [← startMove_motor, ← events]

theorem profile_eq (m : Motor) : m.profile = if m.speedValid then .ok m.numbers else .error .unsetParameter := rfl

/-- The outcomes of MOVE, in the order they are tested (41_motion R115, 60_exceptions R197). -/
theorem moveWork_eq (now : Time) (steps : Nat) (d : Direction) (w : Work) :
    moveWork now steps d w =
      if steps = 0 then .ok w.halt
      else if Representable (w.motor.position.toInt + sign d * steps) then
        if w.motor.speedValid then
          .ok ⟨w.motor.started steps d (positionWord (w.motor.position.toInt + sign d * steps)) now,
            w.events ++ startEvents d⟩
        else .error .unsetParameter
      else .error .targetOverflow := by
  simp only [moveWork, inPositionRange_iff, sgn_eq_sign, profile_eq]
  cases w.motor.speedValid with
  | false => rfl
  | true => simp only [if_true, startMove_eq]

theorem sign_speedDirection_mul_natAbs (x : Int) : sign (speedDirection x) * x.natAbs = x := by
  unfold speedDirection
  split
  next positive => rw [sign, if_pos rfl]; omega
  next => rw [sign, if_neg (by decide)]; omega

/-- MOVETO is a MOVE over the distance to its operand, in the direction of the distance. -/
theorem movetoWork_eq_moveWork (now : Time) (pos : Int) (w : Work) :
    movetoWork now pos w =
      moveWork now (pos - w.motor.position.toInt).natAbs (speedDirection (pos - w.motor.position.toInt)) w := by
  simp only [movetoWork, speedDirection]
  split
  next zero => rw [zero]; rfl
  next => split <;> rfl

/-- The outcomes of MOVETO: the target is the operand, so there is no overflow (41_motion R117). -/
theorem movetoWork_eq (now : Time) (pos : Word) (w : Work) :
    movetoWork now pos.toInt w =
      if pos.toInt - w.motor.position.toInt = 0 then .ok w.halt
      else if w.motor.speedValid then
        .ok ⟨w.motor.started (pos.toInt - w.motor.position.toInt).natAbs
            (speedDirection (pos.toInt - w.motor.position.toInt)) pos now,
          w.events ++ startEvents (speedDirection (pos.toInt - w.motor.position.toInt))⟩
      else .error .unsetParameter := by
  rw [movetoWork_eq_moveWork, moveWork_eq, sign_speedDirection_mul_natAbs, add_sub_cancel, positionWord_self,
    if_pos (toInt_representable pos)]
  simp only [Int.natAbs_eq_zero]

/-! ### The work of RUNSPEED -/

/-- The sentinel of a run at speed `v`, as the target stores it (41_motion R120). -/
def sentinelWord (v : Int) : Word := if 0 < v then 0x7FFFFFFF else 0x80000000

theorem positionWord_sentinel (v : Int) : positionWord (speedDirection v).sentinel = sentinelWord v := by
  unfold speedDirection sentinelWord
  split <;> rfl

theorem toInt_sentinelWord (v : Int) : (sentinelWord v).toInt = (speedDirection v).sentinel := by
  unfold speedDirection sentinelWord
  split <;> rfl

theorem toInt_eq_sentinel_iff (p : Word) (v : Int) : p.toInt = (speedDirection v).sentinel ↔ p = sentinelWord v := by
  rw [← toInt_sentinelWord, BitVec.toInt_inj]

/-- The outcomes of RUNSPEED, the sentinel as a word (41_motion R120). -/
theorem runspeedWork_eq_words (v : Int) (w : Work) :
    runspeedWork v w =
      if v = 0 then .ok w.halt
      else if w.motor.position = sentinelWord v then .ok (w.turned (speedDirection v)).halt
      else .ok <| (w.turned (speedDirection v)).modify fun m =>
        { m with stepDelay := countWord (1000000 / v.natAbs), target := sentinelWord v, state := .running } := by
  simp only [runspeedWork_eq, toInt_eq_sentinel_iff, positionWord_sentinel]

/-! ### The work of STOP -/

/-- The outcomes of STOP DECEL, in the order they are tested (41_motion R124). -/
theorem softStopWork_eq (w : Work) :
    softStopWork w =
      if w.motor.state = .idle then .ok w
      else if w.motor.speedValid then
        if w.motor.accelSteps = 0 then .ok w.halt
        else if Representable (w.motor.position.toInt + sign w.motor.direction * w.motor.accelSteps.toNat) then
          .ok <| w.modify fun m =>
            { m with
              target := positionWord (w.motor.position.toInt + sign w.motor.direction * w.motor.accelSteps.toNat)
              state := .decelerating }
        else .error .targetOverflow
      else .error .unsetParameter := by
  simp only [softStopWork, inPositionRange_iff, sgn_eq_sign, profile_eq]
  cases w.motor.speedValid with
  | false => rfl
  | true => simp only [if_true, numbers_n_eq_zero]; rfl

/-! ### The outcomes of the motion commands -/

theorem exec_move (a : Axis) (d : Direction) (s : State) :
    exec (.move a d) s = commandOnAxis (.move a d) a (moveWork s.timeUs s.arg0.toNat d) s := rfl

theorem exec_moveto (a : Axis) (s : State) :
    exec (.moveto a) s = commandOnAxis (.moveto a) a (movetoWork s.timeUs s.arg0.toInt) s := rfl

theorem exec_runspeed (a : Axis) (s : State) :
    exec (.runspeed a) s = commandOnAxis (.runspeed a) a (runspeedWork s.arg0.toInt) s := rfl

theorem exec_stop_immediate (a : Axis) (s : State) :
    exec (.stop a true) s = commandOnAxis (.stop a true) a (fun w => .ok w.halt) s := rfl

theorem exec_stop_decel (a : Axis) (s : State) :
    exec (.stop a false) s = commandOnAxis (.stop a false) a softStopWork s := rfl

/-- Settles O10: each clause is one branch of `moveWork_eq`. -/
theorem moveStartsHaltsOrFaults : Obligations.MoveStartsHaltsOrFaults := by
  unfold Obligations.MoveStartsHaltsOrFaults
  intro a d s m steps target
  have work := moveWork_eq s.timeUs steps d ⟨m, []⟩
  rw [exec_move]
  refine ⟨fun zero => ?_, fun far overflow => ?_, fun far fits unset => ?_, fun far fits valid => ?_⟩
  · rw [if_pos zero] at work
    exact commandOnAxis_of_ok work
  · rw [if_neg far, if_neg overflow] at work
    exact commandOnAxis_of_error work
  · rw [if_neg far, if_pos fits, if_neg (Bool.eq_false_iff.1 unset)] at work
    exact commandOnAxis_of_error work
  · rw [if_neg far, if_pos fits, if_pos valid] at work
    exact commandOnAxis_of_ok work

/-- Settles O11: each clause is one branch of `movetoWork_eq`. -/
theorem movetoActsAsTheEquivalentMove : Obligations.MovetoActsAsTheEquivalentMove := by
  unfold Obligations.MovetoActsAsTheEquivalentMove
  intro a s m distance d
  have work := movetoWork_eq s.timeUs s.arg0 ⟨m, []⟩
  rw [exec_moveto]
  refine ⟨fun zero => ?_, fun far unset => ?_, fun far valid => ?_⟩
  · rw [if_pos zero] at work
    exact commandOnAxis_of_ok work
  · rw [if_neg far, if_neg (Bool.eq_false_iff.1 unset)] at work
    exact commandOnAxis_of_error work
  · rw [if_neg far, if_pos valid] at work
    exact commandOnAxis_of_ok work

theorem Work.turned_start (m : Motor) (d : Direction) :
    Work.turned ⟨m, []⟩ d = ⟨{ m with direction := d, pinDir := dirLevel d }, [(.dir, dirLevel d)]⟩ := by
  rw [← level_eq_dirLevel]; rfl

/-- Settles O12: each clause is one branch of `runspeedWork_eq_words`. -/
theorem runspeedStartsAContinuousRun : Obligations.RunspeedStartsAContinuousRun := by
  unfold Obligations.RunspeedStartsAContinuousRun
  intro a s m v
  have work := runspeedWork_eq_words v ⟨m, []⟩
  rw [Work.turned_start] at work
  rw [exec_runspeed]
  refine ⟨fun zero => ?_, fun moving =>
    ⟨fun (there : m.position = sentinelWord v) => ?_, fun (elsewhere : m.position ≠ sentinelWord v) => ?_⟩⟩
  · rw [if_pos zero] at work
    exact commandOnAxis_of_ok work
  · rw [if_neg moving, if_pos there] at work
    exact commandOnAxis_of_ok work
  · rw [if_neg moving, if_neg elsewhere] at work
    exact commandOnAxis_of_ok work

/-- Settles O13: STOP IMM is `halt`. -/
theorem immediateStopHalts : Obligations.ImmediateStopHalts := by
  unfold Obligations.ImmediateStopHalts
  intro a s
  rw [exec_stop_immediate]
  exact commandOnAxis_of_ok (f := fun w => .ok w.halt) rfl

/-- Settles O14: each clause is one branch of `softStopWork_eq`. -/
theorem softStopRunsOutTheRamp : Obligations.SoftStopRunsOutTheRamp := by
  unfold Obligations.SoftStopRunsOutTheRamp
  intro a s m target
  have work := softStopWork_eq ⟨m, []⟩
  rw [exec_stop_decel]
  refine ⟨fun idle => ?_, fun active unset => ?_, fun active valid flat => ?_, fun active valid ramp overflow => ?_,
    fun active valid ramp fits => ?_⟩
  · rw [if_pos idle] at work
    exact commandOnAxis_of_ok work
  · rw [if_neg active, if_neg (Bool.eq_false_iff.1 unset)] at work
    exact commandOnAxis_of_error work
  · rw [if_neg active, if_pos valid, if_pos flat] at work
    exact commandOnAxis_of_ok work
  · rw [if_neg active, if_pos valid, if_neg ramp, if_neg overflow] at work
    exact commandOnAxis_of_error work
  · rw [if_neg active, if_pos valid, if_neg ramp, if_pos fits] at work
    exact commandOnAxis_of_ok work

/-! ### Unset speed parameters (41_motion R111) -/

/-- A step that completes short of its target reads the parameters. -/
theorem pollWork_unset {a : Axis} {s : State} (unset : (s.ax a).speedValid = false) (completes : s.StepCompletes a) :
    pollWork s.params s.now ⟨s.ax a, []⟩ = .error .unsetParameter := by
  obtain ⟨⟨active, free, due⟩, high, fits, short⟩ := completes
  have fall := pollWork_fall (w := ⟨s.ax a, []⟩) active (Bool.eq_false_iff.2 (mt (limitHit_iff _).1 free))
    ((edgeDue_iff s a).2 due) high
  have step : completeStep s.params.runspeedHold ((s.ax a).lowered s.now) = .error .unsetParameter :=
    (completeStep_rule (m := (s.ax a).lowered s.now) fits short).trans (stepRule_unset unset)
  rw [fall, step]

theorem registeredAxes_singleton {a : Axis} {s : State} (only : ∀ b, s.isRegistered b = decide (b = a)) :
    s.registeredAxes = [a] := by
  have same : s.isRegistered = fun b => decide (b = a) := funext only
  rw [State.registeredAxes, same]
  clear only same
  revert a
  decide

/-- POLLALL with one axis registered is the handler of that axis. -/
theorem execPollall_singleton {a : Axis} {s : State} (only : ∀ b, s.isRegistered b = decide (b = a)) :
    execPollall s = andThen (pollAxis a { s with draws := s.draws + 1 }) fun t => .next (finish .pollall codeOk t) := by
  rw [execPollall, registeredAxes_singleton only]
  rfl

/-- Settles O15: the motion commands by the fault clauses of O10, O11 and O14, the services by the handler's fault. -/
theorem unsetSpeedParametersFault : Obligations.UnsetSpeedParametersFault := by
  unfold Obligations.UnsetSpeedParametersFault
  intro a s unset
  refine ⟨fun d far fits => ?_, fun elsewhere => ?_, fun active => ?_, fun completes => ?_, fun completes only => ?_⟩
  · obtain ⟨-, -, fault, -⟩ := moveStartsHaltsOrFaults a d s
    exact fault (mt (BitVec.toNat_inj (y := 0)).1 far) fits unset
  · obtain ⟨-, fault, -⟩ := movetoActsAsTheEquivalentMove a s
    exact fault (sub_ne_zero.2 (mt BitVec.toInt_inj.1 elsewhere)) unset
  · obtain ⟨-, fault, -⟩ := softStopRunsOutTheRamp a s
    exact fault active unset
  · exact commandOnAxis_of_error (pollWork_unset unset completes)
  · have fault : pollAxis a { s with draws := s.draws + 1 } = .fault .unsetParameter :=
      onAxis_of_error (pollWork_unset unset completes)
    exact (execPollall_singleton only).trans (by rw [fault]; rfl)

/-! ### The limit detector (41_motion R126) -/

/-- The record with its limit detector replaced. -/
def Motor.withLimits (en cw ccw : Bool) (m : Motor) : Motor :=
  { m with limitEnabled := en, cwLimit := cw, ccwLimit := ccw }

/-- Work that commutes with replacing the limit detector. -/
def Work.LimitBlind (f : Work → Except Fault Work) : Prop :=
  ∀ (en cw ccw : Bool) (w : Work), f (w.modify (.withLimits en cw ccw)) = (f w).map (.modify (.withLimits en cw ccw))

theorem moveWork_limitBlind (now : Time) (steps : Nat) (d : Direction) : Work.LimitBlind (moveWork now steps d) := by
  intro en cw ccw w
  have position : (w.modify (.withLimits en cw ccw)).motor.position = w.motor.position := rfl
  have valid : (w.modify (.withLimits en cw ccw)).motor.speedValid = w.motor.speedValid := rfl
  simp only [moveWork_eq, position, valid]
  split_ifs <;> rfl

theorem movetoWork_limitBlind (now : Time) (pos : Int) : Work.LimitBlind (movetoWork now pos) := by
  intro en cw ccw w
  rw [movetoWork_eq_moveWork, movetoWork_eq_moveWork]
  exact moveWork_limitBlind _ _ _ en cw ccw w

theorem runspeedWork_limitBlind (v : Int) : Work.LimitBlind (runspeedWork v) := by
  intro en cw ccw w
  have position : (w.modify (.withLimits en cw ccw)).motor.position = w.motor.position := rfl
  simp only [runspeedWork_eq, position]
  split_ifs <;> rfl

theorem stopWork_limitBlind (immediate : Bool) : Work.LimitBlind (stopWork immediate) := by
  intro en cw ccw w
  cases immediate with
  | true => rfl
  | false =>
    have motor : (w.modify (.withLimits en cw ccw)).motor = w.motor.withLimits en cw ccw := rfl
    simp only [stopWork, Bool.false_eq_true, if_false, softStopWork_eq, motor, Motor.withLimits]
    split_ifs <;> rfl

/-- A command whose work commutes with replacing the limit detector does so itself. -/
theorem commandOnAxis_limitBlind {f : Work → Except Fault Work} (hf : Work.LimitBlind f) (i : Instr) (a : Axis)
    (en cw ccw : Bool) (s : State) :
    commandOnAxis i a f (s.setAx a ((s.ax a).withLimits en cw ccw)) =
      mapNext (fun t => t.setAx a ((t.ax a).withLimits en cw ccw)) (commandOnAxis i a f s) := by
  have limited : f ⟨(s.setAx a ((s.ax a).withLimits en cw ccw)).ax a, []⟩ =
      (f ⟨s.ax a, []⟩).map (.modify (.withLimits en cw ccw)) := by
    rw [State.setAx_ax_self]; exact hf en cw ccw ⟨s.ax a, []⟩
  cases hw : f ⟨s.ax a, []⟩ with
  | ok w =>
    rw [hw] at limited
    rw [commandOnAxis_of_ok hw, commandOnAxis_of_ok limited]
    simp [mapNext, State.afterCommand, State.setAx, State.ax]
  | error e =>
    rw [hw] at limited
    rw [commandOnAxis_of_error hw, commandOnAxis_of_error limited]
    rfl

/-- Settles O16: the work of each motion command commutes with replacing the limit detector. -/
theorem limitFlagsDoNotGateMotionCommands : Obligations.LimitFlagsDoNotGateMotionCommands := by
  unfold Obligations.LimitFlagsDoNotGateMotionCommands
  rintro a i en cw ccw s (⟨d, rfl⟩ | rfl | rfl | ⟨immediate, rfl⟩)
  · exact commandOnAxis_limitBlind (moveWork_limitBlind _ _ _) _ a en cw ccw s
  · exact commandOnAxis_limitBlind (movetoWork_limitBlind _ _) _ a en cw ccw s
  · exact commandOnAxis_limitBlind (runspeedWork_limitBlind _) _ a en cw ccw s
  · exact commandOnAxis_limitBlind (stopWork_limitBlind _) _ a en cw ccw s

/-! ### The registry (41_motion R127) -/

/-- Work on one axis sees nothing of the registry. -/
theorem commandOnAxis_registered (i : Instr) (a : Axis) (f : Work → Except Fault Work) (r : BitVec 4) (s : State) :
    commandOnAxis i a f { s with registered := r } =
      mapNext (fun t => { t with registered := r }) (commandOnAxis i a f s) := by
  cases hw : f ⟨s.ax a, []⟩ with
  | ok w =>
    rw [commandOnAxis_of_ok hw]
    exact commandOnAxis_of_ok hw
  | error e =>
    rw [commandOnAxis_of_error hw]
    exact commandOnAxis_of_error hw

theorem execSetspeed_registered (a : Axis) (r : BitVec 4) (s : State) :
    execSetspeed a { s with registered := r } = mapNext (fun t => { t with registered := r }) (execSetspeed a s) := by
  by_cases rejected : speedsRejected (operandMaxSpeed s) (operandStartSpeed s) = true
  · rw [execSetspeed, execSetspeed, if_pos rejected]
    exact if_pos rejected
  · rw [execSetspeed, execSetspeed, if_neg rejected, ← commandOnAxis_registered]
    exact if_neg rejected

/-- Settles O17: every command in question is work on one axis, or a SETSPEED, which may also be rejected. -/
theorem registrationDoesNotGateCommands : Obligations.RegistrationDoesNotGateCommands := by
  unfold Obligations.RegistrationDoesNotGateCommands
  intro i r s notAll notAdd notRemove
  cases i with
  | add a => exact absurd rfl (notAdd a)
  | remove a => exact absurd rfl (notRemove a)
  | pollall => exact absurd rfl notAll
  | setspeed a => exact execSetspeed_registered a r s
  | init a | setdir a | enable a | limen a | setlim a =>
    simp only [exec, execInit, execSetdir, execEnable, execLimen, execSetlim, commandOnAxis_registered]
  | move a | moveto a | runspeed a | stop a | poll a => exact commandOnAxis_registered _ a _ r s

/-! ### The transition table (41_motion R128) -/

/-- The state a move over a distance starts in: Idle for 0, else by `2 * accel_steps` (41_motion R115, R116). -/
def Motor.startState (m : Motor) (distance : Nat) : Lifecycle :=
  if distance = 0 then .idle else if 2 * m.accelSteps.toNat < distance then .accelerating else .running

theorem moveWork_state {now : Time} {steps : Nat} {d : Direction} {w w' : Work} (h : moveWork now steps d w = .ok w') :
    w'.motor.state = w.motor.startState steps := by
  rw [moveWork_eq] at h
  unfold Motor.startState
  split_ifs at h with zero fits valid
  · cases h; rw [if_pos zero]; rfl
  · cases h; rw [if_neg zero]; rfl

theorem movetoWork_state {now : Time} {pos : Int} {w w' : Work} (h : movetoWork now pos w = .ok w') :
    w'.motor.state = w.motor.startState (pos - w.motor.position.toInt).natAbs :=
  moveWork_state (movetoWork_eq_moveWork now pos w ▸ h)

theorem runspeedWork_state {v : Int} {w w' : Work} (h : runspeedWork v w = .ok w') :
    w'.motor.state = if v = 0 ∨ w.motor.position = sentinelWord v then .idle else .running := by
  rw [runspeedWork_eq_words] at h
  split_ifs at h with zero there
  · cases h; rw [if_pos (.inl zero)]; rfl
  · cases h; rw [if_pos (.inr there)]; rfl
  · cases h; rw [if_neg (not_or.2 ⟨zero, there⟩)]; rfl

theorem softStopWork_state {w w' : Work} (h : softStopWork w = .ok w') :
    w'.motor.state = if w.motor.state = .idle ∨ w.motor.accelSteps = 0 then .idle else .decelerating := by
  rw [softStopWork_eq] at h
  split_ifs at h with idle valid flat fits
  · cases h; rw [if_pos (.inl idle), idle]
  · cases h; rw [if_pos (.inr flat)]; rfl
  · cases h; rw [if_neg (not_or.2 ⟨idle, flat⟩)]; rfl

/-- What is known of the state that work leaves holds of the axis after the command. -/
theorem commandOnAxis_state {i : Instr} {a : Axis} {f : Work → Except Fault Work} {s t : State} {x : Lifecycle}
    (hf : ∀ w, f ⟨s.ax a, []⟩ = .ok w → w.motor.state = x) (h : commandOnAxis i a f s = .next t) :
    (t.ax a).state = x := by
  obtain ⟨w, hw, rfl⟩ := commandOnAxis_eq_next.1 h
  rw [afterCommand_ax_self]
  exact hf w hw

/-- The commands that can change the lifecycle state of an axis (10_state R44). -/
theorem exec_state {i : Instr} {s t : State} (h : exec i s = .next t) (a : Axis) :
    (t.ax a).state = (s.ax a).state ∨ (i = .poll a ∨ i = .pollall) ∨ IsMotion a i ∨ i = .init a := by
  obtain ⟨-, -, -, -, -, -, -, -, -, -, -, -, -, state, -⟩ := commandsWriteOnlyTheirFields i s t a h
  simpa only [IsMotion, or_assoc] using state

/-- A speed is 0, or its run is at the sentinel of its sign: the rows of R128 for RUNSPEED. -/
theorem runspeed_halts_iff (arg position : Word) :
    (arg.toInt = 0 ∨ position = sentinelWord arg.toInt) ↔
      (arg = 0 ∨ (0 < arg.toInt ∧ position = 0x7FFFFFFF) ∨ (arg.toInt < 0 ∧ position = 0x80000000)) := by
  have zero : arg.toInt = 0 ↔ arg = 0 := BitVec.toInt_inj (y := 0)
  rw [← zero, sentinelWord]
  split <;> grind

/-- Settles O18: the row of each motion command is the state its work leaves, the configuration commands leave the state
alone by O51, and INIT writes Idle. -/
theorem commandsFollowTheTransitionTable : Obligations.CommandsFollowTheTransitionTable := by
  unfold Obligations.CommandsFollowTheTransitionTable
  intro a s t m after n startState
  refine ⟨fun d => commandOnAxis_state fun w => moveWork_state, commandOnAxis_state fun w => movetoWork_state,
    fun h => ?_, fun h => ?_, fun h => ?_, fun i config h => ?_, fun h => ?_⟩
  · rw [← if_congr (runspeed_halts_iff s.arg0 m.position) rfl rfl]
    exact commandOnAxis_state (fun w => runspeedWork_state) h
  · exact commandOnAxis_state (fun w hw => by cases hw; rfl) (exec_stop_immediate a s ▸ h)
  · have flat : n = 0 ↔ m.accelSteps = 0 := numbers_n_eq_zero m
    rw [if_congr (or_congr_right flat) rfl rfl]
    exact commandOnAxis_state (fun w => softStopWork_state) (exec_stop_decel a s ▸ h)
  · refine (exec_state h a).resolve_right ?_
    obtain rfl | ⟨d, rfl⟩ | ⟨on, rfl⟩ | ⟨cw, ccw, rfl⟩ | ⟨on, rfl⟩ | rfl | rfl := config <;> simp [IsMotion]
  · exact commandOnAxis_state (f := fun w => .ok (initWork w)) (fun w hw => by cases hw; rfl) h

end Sys2Proof.Machine

/-! The statements of 42_poll: the services of one axis (R131 to R142, R153), the per-step rules (R145 to R147, R149), the
ramps (R144, R147, R148), what no POLL or POLLALL does (R140, R151), and the course of a MOVE (R150). What a due edge does
and what each per-step rule answers is said once, as an equation; the statements about POLL are read off these. -/

namespace Sys2Proof.Machine

/-! ### POLL of one axis -/

theorem exec_poll (a : Axis) (s : State) :
    exec (.poll a) s = commandOnAxis (.poll a) a (pollWork s.params s.timeUs) s := rfl

theorem limitHit_eq_false {m : Motor} (free : ¬ m.AtLimit) : m.limitHit = false :=
  Bool.eq_false_iff.2 (mt (limitHit_iff m).1 free)

/-- A POLL whose handler does nothing writes the result alone. -/
theorem exec_poll_of_unchanged {a : Axis} {s : State} (h : pollWork s.params s.timeUs ⟨s.ax a, []⟩ = .ok ⟨s.ax a, []⟩) :
    exec (.poll a) s = .next { s with result := ⟨0, (encode (.poll a)).setWidth 14⟩ } := by
  rw [exec_poll, commandOnAxis_of_ok h, afterCommand_unchanged]

/-- Settles O19: the handler of an Idle axis does nothing. -/
theorem pollOfAnIdleAxisDoesNothing : Obligations.PollOfAnIdleAxisDoesNothing := by
  unfold Obligations.PollOfAnIdleAxisDoesNothing
  intro a s idle
  exact exec_poll_of_unchanged (pollWork_idle idle)

/-- The limit stop of work that has emitted nothing yet (42_poll R133). -/
theorem limitStop_start (m : Motor) :
    limitStop ⟨m, []⟩ =
      ⟨if m.direction = .ccw then { m.halted with position := 0, target := 0 } else m.halted, [(.pwm, false)]⟩ := by
  unfold limitStop
  cases hd : m.direction <;> simp [Work.halt, Work.setPin, Work.modify, Motor.halted]

/-- Settles O20: the limit test comes before the time test and the edge. -/
theorem pollAtALimitHaltsAndHomes : Obligations.PollAtALimitHaltsAndHomes := by
  unfold Obligations.PollAtALimitHaltsAndHomes
  intro a s active limit
  have work : pollWork s.params s.timeUs ⟨s.ax a, []⟩ = .ok (limitStop ⟨s.ax a, []⟩) :=
    pollWork_limit active ((limitHit_iff _).2 limit)
  rw [limitStop_start] at work
  rw [exec_poll, commandOnAxis_of_ok work]

/-! ### A due edge -/

/-- Settles O22: a due edge with the pulse low is the rising branch of the handler. -/
theorem pollRaisesThePulse : Obligations.PollRaisesThePulse := by
  unfold Obligations.PollRaisesThePulse
  rintro a s ⟨active, free, due⟩ low
  exact commandOnAxis_of_ok
    (pollWork_rise (w := ⟨s.ax a, []⟩) active (limitHit_eq_false free) ((edgeDue_iff s a).2 due) low)

section fall
variable {a : Axis} {s : State} (edge : s.EdgeAt a) (high : (s.ax a).pulseState = true)
include edge high

/-- A due edge with the pulse high is the completed step of the lowered record. -/
theorem pollWork_due_fall :
    pollWork s.params s.timeUs ⟨s.ax a, []⟩ =
      (completeStep s.params.runspeedHold ((s.ax a).lowered s.timeUs)).map fun m => ⟨m, [(.pwm, false)]⟩ := by
  obtain ⟨active, free, due⟩ := edge
  have work := pollWork_fall (w := ⟨s.ax a, []⟩) active (limitHit_eq_false free) ((edgeDue_iff s a).2 due) high
  rw [State.now] at work
  rw [work]
  cases completeStep s.params.runspeedHold ((s.ax a).lowered s.timeUs) <;> rfl

theorem exec_poll_fall {m : Motor} (step : completeStep s.params.runspeedHold ((s.ax a).lowered s.timeUs) = .ok m) :
    exec (.poll a) s = .next (s.afterCommand (.poll a) a m [(.pwm, false)] 0) := by
  have work := pollWork_due_fall edge high
  rw [step] at work
  exact commandOnAxis_of_ok work

theorem exec_poll_fall_fault {e : Fault}
    (step : completeStep s.params.runspeedHold ((s.ax a).lowered s.timeUs) = .error e) :
    exec (.poll a) s = .fault e := by
  have work := pollWork_due_fall edge high
  rw [step] at work
  exact commandOnAxis_of_error work

end fall

/-- Settles O23: at the target no per-step rule is applied. -/
theorem pollReachesTheTarget : Obligations.PollReachesTheTarget := by
  unfold Obligations.PollReachesTheTarget
  intro a s edge high reached
  exact exec_poll_fall edge high (completeStep_reached (m := (s.ax a).lowered s.timeUs) reached)

/-- Settles O28: the position range is tested first. -/
theorem positionOverflowFaults : Obligations.PositionOverflowFaults := by
  unfold Obligations.PositionOverflowFaults
  intro a s edge high overflow
  exact exec_poll_fall_fault edge high (completeStep_overflow (m := (s.ax a).lowered s.timeUs) overflow)

/-- The fields that completing a step does not write. -/
theorem completeStep_frame {hold : Bool} {m m' : Motor} (h : completeStep hold m = .ok m') :
    m' = { m with
      position := m'.position, accelCount := m'.accelCount, stepDelay := m'.stepDelay, state := m'.state } := by
  obtain ⟨-, ⟨-, rfl⟩ | ⟨-, hrule⟩⟩ := completeStep_cases h
  · rfl
  · have kept := stepRule_frame hrule
    rw [kept]

/-- A completed step lands where the direction takes it. -/
theorem completeStep_position {hold : Bool} {m m' : Motor} (h : completeStep hold m = .ok m') :
    m'.position.toInt = m.landing := by
  obtain ⟨fits, ⟨-, rfl⟩ | ⟨-, rule⟩⟩ := completeStep_cases h
  · exact positionWord_toInt fits
  · rw [stepRule_frame rule]
    exact positionWord_toInt fits

/-- An edge at time `t` makes `m'` of the record `m`: a rising edge, or a falling one with its step (42_poll R136 to
R139). -/
def Motor.EdgeTo (hold : Bool) (t : Time) (m m' : Motor) : Prop :=
  (m.pulseState = false ∧ m' = { m with lastStepTime := t, pulseState := true, pinPwm := true }) ∨
  (m.pulseState = true ∧ completeStep hold (m.lowered t) = .ok m')

theorem Motor.EdgeTo.snapshot {hold : Bool} {t : Time} {m m' : Motor} (h : m.EdgeTo hold t m') :
    m'.pulseState = !m.pulseState ∧ m'.lastStepTime = t := by
  obtain ⟨low, rfl⟩ | ⟨high, step⟩ := h
  · rw [low]; exact ⟨rfl, rfl⟩
  · rw [completeStep_frame step, high]; exact ⟨rfl, rfl⟩

/-- A service that no limit stops does nothing, before half the step period, or makes one edge (42_poll R135 to R137). -/
theorem pollWork_free {p : Params} {t : Time} {m : Motor} {w : Work} (h : pollWork p t ⟨m, []⟩ = .ok w)
    (free : ¬ m.AtLimit) :
    ((m.state = .idle ∨ m.edgeDue p.timeWidth t = false) ∧ w = ⟨m, []⟩) ∨
    (m.state ≠ .idle ∧ m.EdgeTo p.runspeedHold t w.motor ∧ w.events = [(.pwm, !m.pulseState)]) := by
  obtain ⟨idle, rfl⟩ | ⟨-, limit, -⟩ | ⟨-, -, early, rfl⟩ | ⟨active, -, -, low, rfl⟩ |
    ⟨active, -, -, high, m', step, rfl⟩ := pollWork_cases h
  · exact .inl ⟨.inl idle, rfl⟩
  · exact absurd ((limitHit_iff _).1 limit) free
  · exact .inl ⟨.inr early, rfl⟩
  · exact .inr ⟨active, .inl ⟨low, rfl⟩, by rw [show m.pulseState = false from low]; rfl⟩
  · exact .inr ⟨active, .inr ⟨high, step⟩, by rw [show m.pulseState = true from high]; rfl⟩

/-- Settles O21: before the edge is due the handler does nothing, and from then on every answer is an edge. -/
theorem pollMakesOneEdgeExactlyWhenDue : Obligations.PollMakesOneEdgeExactlyWhenDue := by
  unfold Obligations.PollMakesOneEdgeExactlyWhenDue
  refine fun a s active free => ⟨fun early => ?_, fun due t h => ?_⟩
  · have notDue := mt (edgeDue_iff s a).1 (Nat.not_le.2 early)
    exact exec_poll_of_unchanged (pollWork_early active (limitHit_eq_false free) (Bool.eq_false_iff.2 notDue))
  · rw [exec_poll] at h
    obtain ⟨w, work, rfl⟩ := commandOnAxis_eq_next.1 h
    obtain ⟨idle | early, -⟩ | ⟨-, edge, events⟩ := pollWork_free work free
    · exact absurd idle active
    · exact absurd ((edgeDue_iff s a).2 due) (Bool.eq_false_iff.1 early)
    · obtain ⟨toggle, stamp⟩ := edge.snapshot
      rw [afterCommand_ax_self, afterCommand_trace, events]
      exact ⟨toggle, stamp, rfl⟩

/-! ### The per-step rules -/

section rules
variable {hold : Bool} {m : Motor} (valid : m.speedValid = true)
include valid

theorem stepRule_accelerating (h : m.state = .accelerating) :
    stepRule hold m = m.numbers.guardRamp (m.accelCount + 1).toNat (accelStep m.numbers m) := by
  rw [stepRule, profile_of_valid valid, h]

theorem stepRule_running (h : m.state = .running) : stepRule hold m = .ok (runStep hold m.numbers m) := by
  rw [stepRule, profile_of_valid valid, h]

theorem stepRule_decelerating (h : m.state = .decelerating) :
    stepRule hold m = m.numbers.guardRamp (m.numbers.n - m.remaining) (decelStep m.numbers m) := by
  rw [stepRule, profile_of_valid valid, h]

/-- Inside the arithmetic domain a ramp step is not guarded (42_poll R149). -/
theorem stepRule_accelerating_ok (h : m.state = .accelerating) (domain : m.RampInDomain) :
    stepRule hold m = .ok (accelStep m.numbers m) := by
  rw [stepRule_accelerating valid h, guardRamp_eq_ok, inDomain_iff, numbers_n_eq_zero]
  exact ⟨domain.1 h, rfl⟩

theorem stepRule_decelerating_ok (h : m.state = .decelerating) (domain : m.RampInDomain) :
    stepRule hold m = .ok (decelStep m.numbers m) := by
  rw [stepRule_decelerating valid h, guardRamp_eq_ok, inDomain_of_le (Nat.sub_le _ _)]
  exact ⟨domain.2 h, rfl⟩

end rules

theorem remaining_stepped {m : Motor} (fits : Representable m.landing) (t : Time) :
    (m.stepped t).remaining = m.distanceLeft := by
  have position : (m.stepped t).position.toInt = m.landing := positionWord_toInt fits
  rw [Motor.remaining, position]
  rfl

section completes
variable {a : Axis} {s : State} (completes : s.StepCompletes a)
include completes

/-- Completing a step short of the target is applying the per-step rule to the record whose step is counted. -/
theorem completeStep_lowered :
    completeStep s.params.runspeedHold ((s.ax a).lowered s.timeUs) =
      stepRule s.params.runspeedHold ((s.ax a).stepped s.timeUs) := by
  obtain ⟨-, -, fits, short⟩ := completes
  exact completeStep_rule (m := (s.ax a).lowered s.timeUs) fits short

theorem exec_poll_rule {m : Motor} (rule : stepRule s.params.runspeedHold ((s.ax a).stepped s.timeUs) = .ok m) :
    exec (.poll a) s = .next (s.afterCommand (.poll a) a m [(.pwm, false)] 0) :=
  have ⟨edge, high, _⟩ := completes
  exec_poll_fall edge high ((completeStep_lowered completes).trans rule)

theorem exec_poll_rule_fault {e : Fault}
    (rule : stepRule s.params.runspeedHold ((s.ax a).stepped s.timeUs) = .error e) : exec (.poll a) s = .fault e :=
  have ⟨edge, high, _⟩ := completes
  exec_poll_fall_fault edge high ((completeStep_lowered completes).trans rule)

/-- What the axis is left with when the POLL answers a next state is the record the rule makes. -/
theorem stepRule_of_exec_poll {t : State} (h : exec (.poll a) s = .next t) :
    stepRule s.params.runspeedHold ((s.ax a).stepped s.timeUs) = .ok (t.ax a) := by
  cases rule : stepRule s.params.runspeedHold ((s.ax a).stepped s.timeUs) with
  | error e => rw [exec_poll_rule_fault completes rule] at h; cases h
  | ok m =>
    rw [exec_poll_rule completes rule] at h
    cases h
    rw [afterCommand_ax_self]

end completes

/-! ### The completed step, by lifecycle state -/

theorem accelStep_eq (p : Profile) (m : Motor) :
    accelStep p m = { m with
      accelCount := m.accelCount + 1
      stepDelay := countWord (accelDelay p (m.accelCount + 1).toNat)
      state :=
        if m.remaining ≤ p.n then .decelerating else if p.n ≤ (m.accelCount + 1).toNat then .running else m.state } := by
  simp only [accelStep]
  split_ifs <;> rfl

theorem targetIsSentinel_iff (m : Motor) :
    m.targetIsSentinel = true ↔ m.target = 0x7FFFFFFF ∨ m.target = 0x80000000 := by
  rw [Motor.targetIsSentinel, Bool.or_eq_true, decide_eq_true_eq, decide_eq_true_eq, ← BitVec.toInt_inj,
    ← BitVec.toInt_inj]
  rfl

/-- The rule of a Running axis on its own profile, the sentinels as words (42_poll R146). -/
theorem runStep_eq (hold : Bool) (m : Motor) :
    runStep hold m.numbers m = { m with
      stepDelay :=
        if hold = true ∧ (m.target = 0x7FFFFFFF ∨ m.target = 0x80000000) then m.stepDelay else m.minStepDelay
      state := if m.remaining ≤ m.numbers.n then .decelerating else m.state } := by
  have cruise : countWord m.numbers.dmin = m.minStepDelay := countWord_toNat _
  have held : (m.targetIsSentinel && hold) = true ↔ hold = true ∧ (m.target = 0x7FFFFFFF ∨ m.target = 0x80000000) := by
    rw [Bool.and_eq_true, targetIsSentinel_iff, and_comm]
  have distance (delay : Word) : ({ m with stepDelay := delay } : Motor).remaining = m.remaining := rfl
  simp only [runStep, cruise, held, apply_ite Motor.remaining, distance, ite_self]
  split_ifs <;> rfl

/-- A count below `2^32 - 1` does not wrap when it gains 1 (log entry 17). -/
theorem accelCount_succ_toNat {c : Word} (h : c.toNat < 2 ^ 32 - 1) : (c + 1).toNat = c.toNat + 1 := by
  bv_omega

/-- Settles O24: the rule of an Accelerating axis inside its arithmetic domain, where its count does not wrap. -/
theorem pollStepsWhileAccelerating : Obligations.PollStepsWhileAccelerating := by
  unfold Obligations.PollStepsWhileAccelerating
  intro a s completes valid state room domain m count dmin dmax n
  have ⟨_, _, fits, _⟩ := completes
  have rule := stepRule_accelerating_ok (hold := s.params.runspeedHold) (m := m.stepped s.timeUs) valid state domain
  have gained : m.accelCount + 1 = BitVec.ofNat 32 count := by simp [count, BitVec.ofNat_add]
  have counted : (m.accelCount + 1).toNat = count := accelCount_succ_toNat room
  have fields : accelStep (m.stepped s.timeUs).numbers (m.stepped s.timeUs) = { m.stepped s.timeUs with
      accelCount := m.accelCount + 1
      stepDelay := countWord (accelDelay m.numbers (m.accelCount + 1).toNat)
      state := if m.distanceLeft ≤ n then .decelerating else if n ≤ (m.accelCount + 1).toNat then .running
        else m.state } := by
    rw [accelStep_eq, remaining_stepped fits]; rfl
  rw [exec_poll_rule completes rule, fields, counted, gained, state]
  rfl

/-- Settles O25: the rule of a Running axis calls no ramp function. -/
theorem pollStepsWhileRunning : Obligations.PollStepsWhileRunning := by
  unfold Obligations.PollStepsWhileRunning
  intro a s completes valid state m
  have ⟨_, _, fits, _⟩ := completes
  have rule := stepRule_running (hold := s.params.runspeedHold) (m := m.stepped s.timeUs) valid state
  have stays : (m.stepped s.timeUs).state = .running := state
  rw [exec_poll_rule completes rule, runStep_eq, remaining_stepped fits, stays]
  rfl

/-- Settles O26: the rule of a Decelerating axis inside its arithmetic domain. -/
theorem pollStepsWhileDecelerating : Obligations.PollStepsWhileDecelerating := by
  unfold Obligations.PollStepsWhileDecelerating
  intro a s completes valid state premise m dmin dmax n
  have ⟨_, _, fits, _⟩ := completes
  have domain : m.RampInDomain := ⟨fun h => by simp [m, state] at h, fun _ => premise⟩
  have rule := stepRule_decelerating_ok (hold := s.params.runspeedHold) (m := m.stepped s.timeUs) valid state domain
  rw [exec_poll_rule completes rule, decelStep, remaining_stepped fits]
  rfl

/-- Settles O27: in both clauses the ramp that the rule calls is outside its arithmetic domain. -/
theorem rampStepsOutsideThePremiseFault : Obligations.RampStepsOutsideThePremiseFault := by
  unfold Obligations.RampStepsOutsideThePremiseFault
  intro a s completes valid m span n
  have fault (outside : ¬ m.RampInDomain) : exec (.poll a) s = .fault .arithmeticDomain :=
    exec_poll_rule_fault completes (stepRule_domain (m := m.stepped s.timeUs) valid outside)
  have flat (h : m.accelSteps = 0) : n = 0 := by simp [n, h]
  refine ⟨fun ramping premise => fault fun ⟨accelerating, decelerating⟩ => ?_,
    fun state ramp room product => fault fun ⟨accelerating, _⟩ => ?_⟩
  · obtain state | state := ramping
    · obtain noRamp | inside := accelerating state
      · simp [flat noRamp] at premise
      · have grows := Nat.mul_le_mul_left span (Nat.le_max_left n (m.accelCount + 1).toNat)
        exact absurd inside (Nat.not_lt.2 (premise.trans grows))
    · exact absurd (decelerating state) (Nat.not_lt.2 premise)
  · obtain noRamp | inside := accelerating state
    · exact ramp (flat noRamp)
    · rw [← accelCount_succ_toNat room] at product
      have grows := Nat.mul_le_mul_left span (Nat.le_max_right n (m.accelCount + 1).toNat)
      exact absurd inside (Nat.not_lt.2 (product.trans grows))

/-! ### The ramps (42_poll R144, R147) -/

section ramp
variable {p : Profile}

theorem accelDelay_of_ne (hn : p.n ≠ 0) (k : Nat) : accelDelay p k = max p.dmin (p.dmax - (p.dmax - p.dmin) * k / p.n) :=
  if_neg hn

theorem decelDelay_of_ne (hn : p.n ≠ 0) (rem : Nat) :
    decelDelay p rem = min p.dmax (p.dmin + (p.dmax - p.dmin) * (p.n - rem) / p.n) := if_neg hn

/-- A part of the ramp's length moves the delay by no more than the profile's span. -/
theorem ramp_le_span {k : Nat} (h : k ≤ p.n) : (p.dmax - p.dmin) * k / p.n ≤ p.dmax - p.dmin :=
  Nat.div_le_of_le_mul ((Nat.mul_le_mul_left _ h).trans_eq (Nat.mul_comm _ _))

theorem span_le_ramp (hn : p.n ≠ 0) {k : Nat} (h : p.n ≤ k) : p.dmax - p.dmin ≤ (p.dmax - p.dmin) * k / p.n :=
  (Nat.le_div_iff_mul_le (Nat.pos_of_ne_zero hn)).2 (Nat.mul_le_mul_left _ h)

end ramp

theorem accelDelay_flat {p : Profile} (flat : p.n = 0) (k : Nat) : accelDelay p k = p.dmin := if_pos flat

theorem decelDelay_flat {p : Profile} (flat : p.n = 0) (rem : Nat) : decelDelay p rem = p.dmin := if_pos flat

/-- From `N` steps on the acceleration ramp is over. -/
theorem accelDelay_of_le {p : Profile} {k : Nat} (h : p.n ≤ k) : accelDelay p k = p.dmin := by
  by_cases hn : p.n = 0
  · exact accelDelay_flat hn k
  · have := span_le_ramp hn h
    rw [accelDelay_of_ne hn]
    omega

/-- Down to `N` steps before the target the deceleration ramp has not begun. -/
theorem decelDelay_of_le {p : Profile} (ordered : p.dmin ≤ p.dmax) {rem : Nat} (h : p.n ≤ rem) :
    decelDelay p rem = p.dmin := by
  by_cases hn : p.n = 0
  · exact decelDelay_flat hn rem
  · rw [decelDelay_of_ne hn, Nat.sub_eq_zero_of_le h, Nat.mul_zero, Nat.zero_div, Nat.add_zero, Nat.min_eq_right ordered]

theorem accelDelay_bounds {p : Profile} (ordered : p.dmin ≤ p.dmax) (k : Nat) :
    p.dmin ≤ accelDelay p k ∧ accelDelay p k ≤ p.dmax := by
  unfold accelDelay
  split
  · exact ⟨le_rfl, ordered⟩
  · exact ⟨Nat.le_max_left _ _, Nat.max_le.2 ⟨ordered, Nat.sub_le _ _⟩⟩

theorem decelDelay_bounds {p : Profile} (ordered : p.dmin ≤ p.dmax) (rem : Nat) :
    p.dmin ≤ decelDelay p rem ∧ decelDelay p rem ≤ p.dmax := by
  unfold decelDelay
  split
  · exact ⟨le_rfl, ordered⟩
  · exact ⟨Nat.le_min.2 ⟨ordered, Nat.le_add_right _ _⟩, Nat.min_le_left _ _⟩

/-- Settles O29: a natural difference below 0 is cut off where the ramp is clamped to `dmin` anyway. -/
theorem accelerationRampFallsFromMaxToMin : Obligations.AccelerationRampFallsFromMaxToMin := by
  unfold Obligations.AccelerationRampFallsFromMaxToMin
  refine fun p ordered => ⟨accelDelay_flat, fun hn =>
    ⟨fun k => ?_, ?_, accelDelay_of_le le_rfl, fun k => accelDelay_of_le, fun k => ?_⟩⟩
  · have drop : ((p.dmax - p.dmin) * k : Int) / p.n = ((p.dmax - p.dmin) * k / p.n : Nat) := by
      push_cast [Nat.cast_sub ordered]; rfl
    rw [accelDelay_of_ne hn, drop]
    generalize (p.dmax - p.dmin) * k / p.n = fallen
    omega
  · rw [accelDelay_of_ne hn, Nat.mul_zero, Nat.zero_div, Nat.sub_zero, Nat.max_eq_right ordered]
  · have := Nat.div_le_div_right (c := p.n) (Nat.mul_le_mul_left (p.dmax - p.dmin) (Nat.le_add_right k 1))
    rw [accelDelay_of_ne hn, accelDelay_of_ne hn]
    omega

/-- Settles O30: the rise of the ramp is at most the span of the profile, so its clamp does not act. -/
theorem decelerationRampRisesAsTheDistanceShrinks : Obligations.DecelerationRampRisesAsTheDistanceShrinks := by
  unfold Obligations.DecelerationRampRisesAsTheDistanceShrinks
  refine fun p ordered => ⟨decelDelay_flat, fun hn =>
    ⟨fun rem => decelDelay_of_le ordered, fun rem _ => ?_, fun rem => ?_, decelDelay_bounds ordered⟩⟩
  · have := ramp_le_span (Nat.sub_le p.n rem)
    rw [decelDelay_of_ne hn]
    generalize (p.dmax - p.dmin) * (p.n - rem) / p.n = risen at this ⊢
    omega
  · have := Nat.div_le_div_right (c := p.n)
      (Nat.mul_le_mul_left (p.dmax - p.dmin) (Nat.sub_le_sub_left (Nat.le_add_right rem 1) p.n))
    rw [decelDelay_of_ne hn, decelDelay_of_ne hn]
    omega

/-! ### What no service does (42_poll R140, R148, R151) -/

theorem countWord_toNat_of_le {n : Nat} {w : Word} (h : n ≤ w.toNat) : (countWord n).toNat = n :=
  Nat.mod_eq_of_lt (h.trans_lt w.isLt)

/-- Every per-step rule but that of a held run stores a value of `dmin .. dmax` (42_poll R148). -/
theorem stepRule_stepDelay {hold : Bool} {m m' : Motor} (h : stepRule hold m = .ok m') (active : m.state ≠ .idle)
    (ordered : m.minStepDelay.toNat ≤ m.maxStepDelay.toNat)
    (free : ¬ (m.state = .running ∧ hold = true ∧ (m.target = 0x7FFFFFFF ∨ m.target = 0x80000000))) :
    ∃ delay, m'.stepDelay = countWord delay ∧ m.minStepDelay.toNat ≤ delay ∧ delay ≤ m.maxStepDelay.toNat := by
  obtain ⟨-, ⟨-, -, rfl⟩ | ⟨running, rfl⟩ | ⟨-, -, rfl⟩ | ⟨idle, -⟩⟩ := stepRule_cases h
  · rw [accelStep_eq]
    exact ⟨_, rfl, accelDelay_bounds (p := m.numbers) ordered _⟩
  · rw [runStep_eq, if_neg fun held => free ⟨running, held⟩]
    exact ⟨_, (countWord_toNat _).symm, le_rfl, ordered⟩
  · exact ⟨_, rfl, decelDelay_bounds (p := m.numbers) ordered _⟩
  · exact absurd idle active

/-- Settles O31: the invariant orders the profile, and the rule's value fits the register because `dmax` does. -/
theorem stepDelayStaysInTheProfile : Obligations.StepDelayStaysInTheProfile := by
  unfold Obligations.StepDelayStaysInTheProfile
  intro a s t inv completes free h
  have rule := stepRule_of_exec_poll completes h
  obtain ⟨valid, -⟩ := stepRule_cases rule
  obtain ⟨axes, -⟩ := inv
  obtain ⟨-, -, ordered, -⟩ := axes a
  obtain ⟨⟨active, -⟩, -⟩ := completes
  obtain ⟨delay, stored, low, high⟩ := stepRule_stepDelay rule active (ordered valid) free
  have fits : (t.ax a).stepDelay.toNat = delay := by rw [stored]; exact countWord_toNat_of_le high
  rw [fits]
  exact ⟨low, high⟩

/-- What a service can do to the record of an axis: nothing, or what the handler does at the time it sees. -/
theorem service_ax {b : Axis} {i : Instr} {s t : State} (service : i = .poll b ∨ i = .pollall) (h : exec i s = .next t)
    (a : Axis) : t.ax a = s.ax a ∨ ∃ now w, pollWork s.params now ⟨s.ax a, []⟩ = .ok w ∧ t.ax a = w.motor := by
  obtain rfl | rfl := service
  · obtain ⟨w, work, rfl⟩ := commandOnAxis_eq_next.1 (exec_poll b s ▸ h)
    by_cases hab : a = b
    · subst hab; exact .inr ⟨_, w, work, afterCommand_ax_self ..⟩
    · exact .inl (afterCommand_ax_ne _ _ _ _ _ _ hab)
  · obtain ⟨-, ⟨-, kept⟩ | ⟨-, handled⟩⟩ := execPollall_ax h a
    · exact .inl kept
    · exact .inr handled

/-- A per-step rule keeps the phase of the motion or moves it on (42_poll R145 to R147). -/
theorem stepRule_state {hold : Bool} {m m' : Motor} (h : stepRule hold m = .ok m') :
    m'.state = m.state ∨ m'.state = .decelerating ∨ (m.state = .accelerating ∧ m'.state = .running) := by
  obtain ⟨-, ⟨accelerating, -, rfl⟩ | ⟨-, rfl⟩ | ⟨-, -, rfl⟩ | ⟨-, rfl⟩⟩ := stepRule_cases h
  · simp only [accelStep_eq]
    split_ifs <;> simp [accelerating]
  · simp only [runStep_eq]
    split_ifs <;> simp
  · exact .inl rfl
  · exact .inl rfl

/-- What the handler can do to the phase of an axis: keep it, stop an active axis, or move it on (42_poll R151). -/
theorem pollWork_state {p : Params} {t : Time} {m : Motor} {evs : List (PinRole × Level)} {w : Work}
    (h : pollWork p t ⟨m, evs⟩ = .ok w) :
    w.motor.state = m.state ∨ (m.state ≠ .idle ∧
      (w.motor.state = .idle ∨ w.motor.state = .decelerating ∨
        (m.state = .accelerating ∧ w.motor.state = .running))) := by
  obtain ⟨-, rfl⟩ | ⟨active, -, rfl⟩ | ⟨-, -, -, rfl⟩ | ⟨-, -, -, -, rfl⟩ | ⟨active, -, -, -, m', step, rfl⟩ :=
    pollWork_cases h
  · exact .inl rfl
  · refine .inr ⟨active, .inl ?_⟩
    unfold limitStop
    split <;> rfl
  · exact .inl rfl
  · exact .inl rfl
  · obtain ⟨-, ⟨-, rfl⟩ | ⟨-, rule⟩⟩ := completeStep_cases step
    · exact .inr ⟨active, .inl rfl⟩
    · exact (stepRule_state rule).imp_right fun moved => ⟨active, .inr moved⟩

/-- Settles O32: the handler keeps a phase, ends the motion, or moves on to a later phase. -/
theorem pollsNeverReturnToAnEarlierPhase : Obligations.PollsNeverReturnToAnEarlierPhase := by
  unfold Obligations.PollsNeverReturnToAnEarlierPhase
  intro a b i s t service h
  obtain kept | ⟨now, w, handled, left⟩ := service_ax service h a
  · rw [kept]
    exact ⟨id, .inl, .inl⟩
  · rw [left]
    have apart : Lifecycle.decelerating ≠ .accelerating := by decide
    obtain kept | ⟨active, stopped | slowed | ⟨accelerating, running⟩⟩ := pollWork_state handled
    · rw [kept]
      exact ⟨id, .inl, .inl⟩
    · exact ⟨fun _ => stopped, fun _ => .inr stopped, fun _ => .inr (.inr stopped)⟩
    · exact ⟨fun idle => absurd idle active, fun _ => .inl slowed, fun _ => .inr (.inl slowed)⟩
    · exact ⟨fun idle => absurd idle active, fun slow => absurd (slow.symm.trans accelerating) apart,
        fun _ => .inl running⟩

/-- A trace grown from another by PWM events alone. -/
def PwmGrowth (old new : List PinEvent) : Prop := ∃ evs, new = old ++ evs ∧ ∀ e ∈ evs, e.role = .pwm

theorem PwmGrowth.refl (trace : List PinEvent) : PwmGrowth trace trace := ⟨[], (List.append_nil _).symm, by simp⟩

theorem PwmGrowth.handler {old : List PinEvent} {a : Axis} {s : State} {now : Time} {w : Work}
    (grown : PwmGrowth old s.trace) (handled : pollWork s.params now ⟨s.ax a, []⟩ = .ok w) :
    PwmGrowth old (s.trace ++ w.events.map fun e => ⟨a, e.1, e.2⟩) := by
  obtain ⟨evs, trace, roles⟩ := grown
  obtain ⟨-, new, events, pwm⟩ := pollWork_frame handled
  refine ⟨evs ++ new.map fun e => ⟨a, e.1, e.2⟩, by rw [trace, events]; simp, fun e he => ?_⟩
  obtain he | he := List.mem_append.1 he
  · exact roles e he
  · obtain ⟨x, hx, rfl⟩ := List.mem_map.1 he
    exact pwm x hx

theorem service_trace {b : Axis} {i : Instr} {s t : State} (service : i = .poll b ∨ i = .pollall)
    (h : exec i s = .next t) : PwmGrowth s.trace t.trace := by
  obtain rfl | rfl := service
  · obtain ⟨w, work, rfl⟩ := commandOnAxis_eq_next.1 (exec_poll b s ▸ h)
    exact (PwmGrowth.refl _).handler work
  · obtain ⟨u, pass, rfl⟩ := execPollall_eq_next.1 h
    refine serviceAll_induct (P := fun u => PwmGrowth s.trace u.trace) (fun a u v grown polled => ?_) (fun u grown => ?_)
      _ { s with draws := s.draws + 1 } u (PwmGrowth.refl _) pass
    · obtain ⟨w, work, rfl⟩ := pollAxis_eq_next.1 polled
      exact grown.handler work
    · rw [gap_trace]; exact grown

/-- Settles O33: the handler writes neither the direction nor the DIR and EN latches, and its events are of PWM. -/
theorem pollsDriveOnlyPwm : Obligations.PollsDriveOnlyPwm := by
  unfold Obligations.PollsDriveOnlyPwm
  intro a b i s t service h
  have trace := service_trace service h
  obtain kept | ⟨now, w, handled, left⟩ := service_ax service h a
  · rw [kept]
    exact ⟨rfl, rfl, rfl, trace⟩
  · obtain ⟨frame, -⟩ := pollWork_frame handled
    rw [left, frame]
    exact ⟨rfl, rfl, rfl, trace⟩

/-! ### The course of a MOVE (42_poll R150)

A MOVE over a profile has one course: the state, the delay and the ramp counter after each number of completed steps. The
per-step rules follow it, so a run of edges does. -/

/-- The state after `k` completed steps of a MOVE of `steps` steps (42_poll R150). -/
def courseState (p : Profile) (steps k : Nat) : Lifecycle :=
  if 2 * p.n < steps then
    if k < max 1 p.n then .accelerating else if k < steps - p.n then .running else .decelerating
  else if k < max 1 (steps - p.n) then .running else .decelerating

/-- The step delay after `k` completed steps of a MOVE of `steps` steps (42_poll R150). -/
def courseDelay (p : Profile) (steps k : Nat) : Nat :=
  if 2 * p.n < steps then
    if k ≤ p.n then accelDelay p k else if k ≤ steps - p.n then p.dmin else decelDelay p (steps - k)
  else if k ≤ max 1 (steps - p.n) then p.dmin else decelDelay p (steps - k)

/-- The ramp counter after `k` completed steps of a MOVE of `steps` steps; a short move never accelerates (R150). -/
def courseCount (p : Profile) (steps k : Nat) : Nat := if 2 * p.n < steps then min k (max 1 p.n) else 0

/-- The record is where a MOVE of `steps` steps is after `k` of them. -/
structure Motor.OnCourse (p : Profile) (steps k : Nat) (m : Motor) : Prop where
  state : m.state = courseState p steps k
  delay : m.stepDelay = countWord (courseDelay p steps k)
  count : m.accelCount.toNat = courseCount p steps k

section course
variable {p : Profile} {steps k : Nat}

theorem courseState_eq_accelerating :
    courseState p steps k = .accelerating ↔ 2 * p.n < steps ∧ k < max 1 p.n := by
  unfold courseState
  split_ifs <;> simp_all

theorem courseState_eq_running :
    courseState p steps k = .running ↔
      (2 * p.n < steps ∧ max 1 p.n ≤ k ∧ k < steps - p.n) ∨ (steps ≤ 2 * p.n ∧ k < max 1 (steps - p.n)) := by
  unfold courseState
  split_ifs <;> simp <;> omega

theorem courseState_eq_decelerating :
    courseState p steps k = .decelerating ↔ max 1 (steps - p.n) ≤ k := by
  unfold courseState
  split_ifs <;> simp <;> omega

theorem courseState_ne_idle : courseState p steps k ≠ .idle := by
  unfold courseState
  split_ifs <;> simp

/-- Where an accelerating move goes next: past the ramp it runs, and a ramp of length 0 has one step. -/
theorem courseState_of_accelerating (h : courseState p steps k = .accelerating) (short : k + 1 < steps) :
    courseState p steps (k + 1) =
      if steps - (k + 1) ≤ p.n then .decelerating else if p.n ≤ k + 1 then .running else .accelerating := by
  obtain ⟨long, ramping⟩ := courseState_eq_accelerating.1 h
  split_ifs with slow ramped
  · exact courseState_eq_decelerating.2 (by omega)
  · exact courseState_eq_running.2 (by omega)
  · exact courseState_eq_accelerating.2 (by omega)

theorem courseState_of_running (h : courseState p steps k = .running) :
    courseState p steps (k + 1) = if steps - (k + 1) ≤ p.n then .decelerating else .running := by
  have now := courseState_eq_running.1 h
  split_ifs with slow
  · exact courseState_eq_decelerating.2 (by omega)
  · exact courseState_eq_running.2 (by omega)

theorem courseState_of_decelerating (h : courseState p steps k = .decelerating) :
    courseState p steps (k + 1) = .decelerating :=
  courseState_eq_decelerating.2 ((courseState_eq_decelerating.1 h).trans (Nat.le_succ k))

/-- The step an accelerating move completes has the ramp's delay, also where it ends the ramp. -/
theorem courseDelay_of_accelerating (h : courseState p steps k = .accelerating) (short : k + 1 < steps) :
    courseDelay p steps (k + 1) = accelDelay p (k + 1) := by
  obtain ⟨long, ramping⟩ := courseState_eq_accelerating.1 h
  rw [courseDelay, if_pos long]
  by_cases hk : k + 1 ≤ p.n
  · rw [if_pos hk]
  · rw [if_neg hk, if_pos (by omega), accelDelay_of_le (by omega)]

/-- An axis that runs has the cruising delay, and keeps it for the step it completes. -/
theorem courseDelay_of_running (h : courseState p steps k = .running) :
    courseDelay p steps k = p.dmin ∧ courseDelay p steps (k + 1) = p.dmin := by
  obtain ⟨long, ramped, cruising⟩ | ⟨short, cruising⟩ := courseState_eq_running.1 h
  · rw [courseDelay, courseDelay, if_pos long, if_pos long, if_neg (by omega : ¬ k + 1 ≤ p.n),
      if_pos (by omega : k + 1 ≤ steps - p.n), if_pos (by omega : k ≤ steps - p.n)]
    refine ⟨?_, rfl⟩
    split
    · exact accelDelay_of_le (by omega)
    · rfl
  · rw [courseDelay, courseDelay, if_neg (Nat.not_lt.2 short), if_neg (Nat.not_lt.2 short), if_pos cruising.le,
      if_pos (Nat.succ_le_of_lt cruising)]
    exact ⟨rfl, rfl⟩

theorem courseDelay_of_decelerating (h : courseState p steps k = .decelerating) :
    courseDelay p steps (k + 1) = decelDelay p (steps - (k + 1)) := by
  have slow := courseState_eq_decelerating.1 h
  unfold courseDelay
  split
  · rw [if_neg (by omega), if_neg (by omega)]
  · rw [if_neg (by omega)]

theorem courseCount_of_accelerating (h : courseState p steps k = .accelerating) :
    courseCount p steps k = k ∧ courseCount p steps (k + 1) = k + 1 := by
  obtain ⟨long, ramping⟩ := courseState_eq_accelerating.1 h
  rw [courseCount, courseCount, if_pos long, if_pos long]
  omega

/-- Only an accelerating step counts. -/
theorem courseCount_of_ne (h : courseState p steps k ≠ .accelerating) :
    courseCount p steps (k + 1) = courseCount p steps k := by
  have now := mt courseState_eq_accelerating.2 h
  unfold courseCount
  split <;> omega

end course

/-- The per-step rules follow the course of a MOVE (42_poll R145 to R147, R150). -/
theorem stepRule_onCourse {hold : Bool} {steps k : Nat} {m m' : Motor} (rule : stepRule hold m = .ok m')
    (on : m.OnCourse m.numbers steps k) (left : m.remaining = steps - (k + 1)) (short : k + 1 < steps) :
    m'.OnCourse m.numbers steps (k + 1) := by
  obtain ⟨state, delay, count⟩ := on
  obtain ⟨-, ⟨phase, -, rfl⟩ | ⟨phase, rfl⟩ | ⟨phase, -, rfl⟩ | ⟨phase, -⟩⟩ := stepRule_cases rule <;>
    rw [phase] at state <;> have state := state.symm
  · obtain ⟨counted, counts⟩ := courseCount_of_accelerating state
    obtain ⟨-, ramping⟩ := courseState_eq_accelerating.1 state
    have room : m.numbers.n < 2 ^ 32 := m.accelSteps.isLt
    have gained : (m.accelCount + 1).toNat = k + 1 := by rw [accelCount_succ_toNat (by omega), count, counted]
    rw [accelStep_eq, left, gained, phase]
    exact ⟨(courseState_of_accelerating state short).symm,
      congrArg countWord (courseDelay_of_accelerating state short).symm, gained.trans counts.symm⟩
  · obtain ⟨cruise, cruises⟩ := courseDelay_of_running state
    have dmin : m.minStepDelay = countWord m.numbers.dmin := (countWord_toNat _).symm
    rw [runStep_eq, left, phase]
    refine ⟨(courseState_of_running state).symm, ?_, count.trans (courseCount_of_ne (by simp [state])).symm⟩
    rw [delay, cruise, cruises, dmin]
    exact ite_self _
  · rw [decelStep, left]
    exact ⟨phase.trans (courseState_of_decelerating state).symm,
      congrArg countWord (courseDelay_of_decelerating state).symm,
      count.trans (courseCount_of_ne (by simp [state])).symm⟩
  · exact absurd state courseState_ne_idle

/-! ### Runs of edges -/

/-- The record after `n` phase edges of a MOVE of `steps` steps that started with the record `m0`: what no edge writes is
as in `m0`, every second edge counts a step, and the axis is on its course until it is Idle at the target. -/
structure Motor.OnMove (m0 : Motor) (steps n : Nat) (m : Motor) : Prop where
  frame : m = { m0 with
    position := m.position, accelCount := m.accelCount, stepDelay := m.stepDelay, state := m.state,
    pulseState := m.pulseState, lastStepTime := m.lastStepTime, pinPwm := m.pinPwm }
  pulse : m.pulseState = decide (n % 2 = 1)
  position : m.position.toInt = m0.position.toInt + sign m0.direction * (n / 2 : Nat)
  course : (n < 2 * steps ∧ m.OnCourse m0.numbers steps (n / 2)) ∨ (n = 2 * steps ∧ m.state = .idle)

/-- The target of a MOVE is its number of steps away from its start (41_motion R115). -/
def Motor.AimsAt (m0 : Motor) (steps : Nat) : Prop :=
  m0.target.toInt = m0.position.toInt + sign m0.direction * steps

section onMove
variable {m0 m m' : Motor} {steps n : Nat}

theorem Motor.OnMove.atLimit (on : m0.OnMove steps n m) : m.AtLimit ↔ m0.AtLimit := by
  rw [on.frame]

theorem Motor.OnMove.numbers (on : m0.OnMove steps n m) : m.numbers = m0.numbers := by
  rw [on.frame]; rfl

theorem natAbs_sign_mul (d : Direction) (x : Int) : (sign d * x).natAbs = x.natAbs := by
  cases d <;> simp [sign]

/-- The step of a MOVE now completing takes the axis one step closer to the target. -/
theorem Motor.OnMove.distanceLeft (on : m0.OnMove steps n m) (aim : m0.AimsAt steps) (more : n / 2 < steps) :
    m.distanceLeft = steps - (n / 2 + 1) := by
  have target : m.target = m0.target := by rw [on.frame]
  have direction : m.direction = m0.direction := by rw [on.frame]
  have offset : m.target.toInt - m.landing = sign m0.direction * (steps - (n / 2 + 1 : Nat)) := by
    rw [Motor.landing, target, direction, on.position, aim]
    push_cast
    ring
  rw [Motor.distanceLeft, offset, natAbs_sign_mul]
  omega

/-- A rising edge of a MOVE counts no step. -/
theorem Motor.OnMove.rise (on : m0.OnMove steps n m) (active : m.state ≠ .idle) (low : m.pulseState = false) (t : Time) :
    m0.OnMove steps (n + 1) { m with lastStepTime := t, pulseState := true, pinPwm := true } := by
  obtain ⟨more, state, delay, count⟩ := on.course.resolve_right fun ended => active ended.2
  have even : n % 2 = 0 := by simpa [low] using on.pulse
  have half : (n + 1) / 2 = n / 2 := by omega
  have odd : (n + 1) % 2 = 1 := by omega
  refine ⟨?_, (decide_eq_true odd).symm, half ▸ on.position, .inl ⟨by omega, half ▸ ⟨state, delay, count⟩⟩⟩
  rw [on.frame]

/-- A falling edge of a MOVE counts one step, and ends the move at the last. -/
theorem Motor.OnMove.fall {hold : Bool} {t : Time} (on : m0.OnMove steps n m) (aim : m0.AimsAt steps)
    (active : m.state ≠ .idle) (high : m.pulseState = true) (step : completeStep hold (m.lowered t) = .ok m') :
    m0.OnMove steps (n + 1) m' := by
  obtain ⟨more, course⟩ := on.course.resolve_right fun ended => active ended.2
  have odd : n % 2 = 1 := by simpa [high] using on.pulse
  have half : (n + 1) / 2 = n / 2 + 1 := by omega
  have left := on.distanceLeft aim (by omega)
  have kept := completeStep_frame step
  refine ⟨?_, ?_, ?_, ?_⟩
  · rw [kept, on.frame]; rfl
  · have even : (n + 1) % 2 ≠ 1 := by omega
    rw [kept]
    exact (decide_eq_false even).symm
  · have direction : m.direction = m0.direction := by rw [on.frame]
    rw [completeStep_position step, half]
    show m.position.toInt + sign m.direction = _
    rw [on.position, direction]
    push_cast
    ring
  · obtain ⟨fits, ⟨reached, rfl⟩ | ⟨short, rule⟩⟩ := completeStep_cases step
    · have arrived : m.distanceLeft = 0 := Int.natAbs_eq_zero.2 (sub_eq_zero.2 reached.symm)
      exact .inr ⟨by omega, rfl⟩
    · have notYet : m.distanceLeft ≠ 0 := fun arrived => short (sub_eq_zero.1 (Int.natAbs_eq_zero.1 arrived)).symm
      have distance : (m.stepped t).remaining = steps - (n / 2 + 1) := (remaining_stepped fits t).trans left
      have counted : (m.stepped t).OnCourse m.numbers steps (n / 2) := by
        obtain ⟨state, delay, count⟩ := course
        rw [on.numbers]
        exact ⟨state, delay, count⟩
      have next := stepRule_onCourse (m := m.stepped t) rule counted distance (by omega)
      rw [half, ← on.numbers]
      exact .inl ⟨by omega, next⟩

end onMove

/-- The edges of a run from a state on a MOVE that no limit stops keep it on that MOVE (42_poll R150, 70_reset R238). -/
theorem PollRun.onMove {a : Axis} {n j steps : Nat} {s t : State} {m0 : Motor} (run : PollRun a n s t)
    (aim : m0.AimsAt steps) (free : ¬ m0.AtLimit) (on : m0.OnMove steps j (s.ax a)) :
    m0.OnMove steps (j + n) (t.ax a) := by
  induction run generalizing j with
  | done => exact on
  | other record _ _ ih => exact ih (record ▸ on)
  | @edge n s s' t i service active run toggle _ ih =>
    rw [← Nat.add_assoc, Nat.add_right_comm]
    refine ih ?_
    obtain kept | ⟨now, w, handled, left⟩ := service_ax service run a
    · exact absurd (congrArg Motor.pulseState kept) toggle
    · rw [left] at toggle ⊢
      obtain ⟨-, rfl⟩ | ⟨-, ⟨low, rise⟩ | ⟨high, step⟩, -⟩ := pollWork_free handled (mt on.atLimit.1 free)
      · exact absurd rfl toggle
      · rw [rise]
        exact on.rise active low now
      · exact on.fall aim active high step

/-! ### The start of a MOVE -/

/-- The record of a started MOVE is at the head of its course (41_motion R115). -/
theorem started_onCourse (m : Motor) (steps : Nat) (d : Direction) (target : Word) (now : Time) :
    (m.started steps d target now).OnCourse m.numbers steps 0 := by
  by_cases long : 2 * m.numbers.n < steps
  · have state : courseState m.numbers steps 0 = .accelerating := courseState_eq_accelerating.2 ⟨long, by omega⟩
    have delay : courseDelay m.numbers steps 0 = accelDelay m.numbers 0 := by
      rw [courseDelay, if_pos long, if_pos (Nat.zero_le _)]
    refine ⟨(if_pos long).trans state.symm, ?_, (courseCount_of_accelerating state).1.symm⟩
    rw [delay, countWord_accelDelay_zero]
    exact if_congr (and_iff_right long) rfl rfl
  · have state : courseState m.numbers steps 0 = .running := courseState_eq_running.2 (by omega)
    obtain ⟨delay, -⟩ := courseDelay_of_running state
    refine ⟨(if_neg long).trans state.symm, ?_, (if_neg long).symm⟩
    rw [delay]
    exact (if_neg fun start => long start.1).trans (countWord_toNat _).symm

theorem started_onMove (m : Motor) {steps : Nat} (far : steps ≠ 0) (d : Direction) (target : Word) (now : Time) :
    (m.started steps d target now).OnMove steps 0 (m.started steps d target now) :=
  ⟨rfl, rfl, by simp, .inl ⟨by omega, started_onCourse m steps d target now⟩⟩

theorem exec_move_started {a : Axis} {d : Direction} {s t : State} (h : exec (.move a d) s = .next t)
    (far : s.arg0.toNat ≠ 0) :
    ∃ target : Word, t.ax a = (s.ax a).started s.arg0.toNat d target s.timeUs ∧
      target.toInt = (s.ax a).position.toInt + sign d * s.arg0.toNat := by
  obtain ⟨w, work, rfl⟩ := commandOnAxis_eq_next.1 (exec_move a d s ▸ h)
  rw [moveWork_eq, if_neg far] at work
  split_ifs at work with fits valid
  cases work
  exact ⟨_, afterCommand_ax_self .., positionWord_toInt fits⟩

/-- A MOVE after `k` completed steps short of its last: on its course, and `k` positions from its start. -/
theorem move_course {a : Axis} {d : Direction} {s s0 t : State} {k : Nat} (h : exec (.move a d) s = .next s0)
    (free : ¬ (s0.ax a).AtLimit) (run : PollRun a (2 * k) s0 t) (short : k < s.arg0.toNat) :
    (t.ax a).OnCourse (s.ax a).numbers s.arg0.toNat k ∧
      (t.ax a).position.toInt = (s.ax a).position.toInt + sign d * k := by
  have far : s.arg0.toNat ≠ 0 := by omega
  obtain ⟨target, started, aim⟩ := exec_move_started h far
  have on := run.onMove (m0 := s0.ax a) (started ▸ aim) free (started ▸ started_onMove _ far d target _)
  rw [started, Nat.zero_add] at on
  obtain ⟨-, -, position, ⟨-, course⟩ | ⟨ended, -⟩⟩ := on
  · rw [Nat.mul_div_cancel_left k (by decide)] at position course
    exact ⟨course, position⟩
  · omega

/-- Settles O56: the course of a MOVE whose profile's two ramps fit into its steps. -/
theorem longMoveFollowsTheTrapezoid : Obligations.LongMoveFollowsTheTrapezoid := by
  unfold Obligations.LongMoveFollowsTheTrapezoid
  intro a d s s0 t k h free run steps p long short
  obtain ⟨⟨state, delay, count⟩, position⟩ := move_course h free run short
  rw [courseState, if_pos long] at state
  rw [courseDelay, if_pos long] at delay
  rw [courseCount, if_pos long] at count
  exact ⟨state, delay, count, position⟩

/-- Settles O57: the course of a MOVE whose profile's two ramps do not fit into its steps. -/
theorem shortMoveStartsAtCruiseSpeed : Obligations.ShortMoveStartsAtCruiseSpeed := by
  unfold Obligations.ShortMoveStartsAtCruiseSpeed
  intro a d s s0 t k h free run steps p _ brief short
  obtain ⟨⟨state, delay, -⟩, -⟩ := move_course h free run short
  rw [courseState, if_neg (Nat.not_lt.2 brief)] at state
  rw [courseDelay, if_neg (Nat.not_lt.2 brief)] at delay
  exact ⟨state, delay⟩

end Sys2Proof.Machine

/-! The statements of 43_config: SETSPEED (R160 to R163), SETDIR and ENABLE (R166, R167), SETLIM and LIMEN (R169, R170), and
INIT (R171). Every command of the family is one piece of work on its axis, but for a SETSPEED that is rejected. -/

namespace Sys2Proof.Machine

/-! ### The profile SETSPEED computes -/

theorem speedsRejected_iff (maxSpeed startSpeed : Nat) :
    speedsRejected maxSpeed startSpeed = true ↔ maxSpeed = 0 ∨ startSpeed = 0 ∨ maxSpeed < startSpeed := by
  simp [speedsRejected, or_assoc]

/-- An acceleration, however steep, leaves a ramp of at least one step (43_config R162). -/
theorem one_le_profileLength (maxSpeed startSpeed : Nat) {accel : Nat} (ramp : 0 < accel) :
    1 ≤ profileLength maxSpeed startSpeed accel := by
  rw [profileLength, if_neg ramp.ne']
  exact le_max_left ..

/-! ### SETSPEED -/

/-- The writes of an accepted SETSPEED (43_config R160). -/
def Motor.withSpeeds (m : Motor) (maxSpeed startSpeed accel : Nat) : Motor :=
  { m with
    minStepDelay := countWord (1000000 / maxSpeed)
    maxStepDelay := countWord (1000000 / startSpeed)
    accelSteps := countWord (profileLength maxSpeed startSpeed accel)
    speedValid := true }

/-- The outcomes of a SETSPEED that is not rejected (43_config R162, R165). -/
theorem setSpeedWork_eq (maxSpeed startSpeed accel : Nat) (w : Work) :
    setSpeedWork maxSpeed startSpeed accel w =
      if profileLength maxSpeed startSpeed accel ≤ 2 ^ 32 - 1 then
        .ok ⟨w.motor.withSpeeds maxSpeed startSpeed accel, w.events⟩
      else .error .arithmeticDomain := rfl

/-- The outcomes of SETSPEED, in the order they are tested (43_config R161, 60_exceptions R197). -/
theorem exec_setspeed (a : Axis) (s : State) :
    exec (.setspeed a) s =
      if speedsRejected s.arg0.toNat s.arg1.toNat then .next (finish (.setspeed a) codeInvalidArg s)
      else commandOnAxis (.setspeed a) a (setSpeedWork s.arg0.toNat s.arg1.toNat s.arg2.toNat) s := rfl

/-- A SETSPEED that answers OK was not rejected, and its profile is in the arithmetic domain. -/
theorem exec_setspeed_accepted {a : Axis} {s t : State} (h : exec (.setspeed a) s = .next t) (ok : t.result.code = 0) :
    speedsRejected s.arg0.toNat s.arg1.toNat = false ∧
      profileLength s.arg0.toNat s.arg1.toNat s.arg2.toNat ≤ 2 ^ 32 - 1 ∧
      t.ax a = (s.ax a).withSpeeds s.arg0.toNat s.arg1.toNat s.arg2.toNat := by
  rw [exec_setspeed] at h
  split_ifs at h with rejected
  · cases h
    exact absurd (show codeInvalidArg = 0 from ok) (by decide)
  · obtain ⟨w, work, rfl⟩ := commandOnAxis_eq_next.1 h
    rw [setSpeedWork_eq] at work
    split_ifs at work with fits
    cases work
    exact ⟨Bool.eq_false_iff.2 rejected, fits, afterCommand_ax_self ..⟩

/-- Settles O34: the rejection test comes first, then the arithmetic domain of the profile. -/
theorem setspeedWritesTheProfileOrRejects : Obligations.SetspeedWritesTheProfileOrRejects := by
  unfold Obligations.SetspeedWritesTheProfileOrRejects
  intro a s maxSpeed startSpeed accel bad n
  have rejected : speedsRejected maxSpeed startSpeed = true ↔ bad := speedsRejected_iff ..
  have length : profileLength maxSpeed startSpeed accel = n := by rw [profileLength, sq]
  have work := setSpeedWork_eq maxSpeed startSpeed accel ⟨s.ax a, []⟩
  rw [exec_setspeed, ← length]
  refine ⟨fun refused => ?_, fun accepted overflow => ?_, fun accepted fits => ?_⟩
  · exact if_pos (rejected.2 refused)
  · rw [if_neg (mt rejected.1 accepted)]
    rw [if_neg (Nat.not_le.2 overflow)] at work
    exact commandOnAxis_of_error work
  · rw [if_neg (mt rejected.1 accepted)]
    rw [if_pos fits] at work
    exact commandOnAxis_of_ok work

/-- Settles O35: the speeds that were not rejected are ordered, and the length of the profile is stored exactly. -/
theorem acceptedSetspeedOrdersTheProfile : Obligations.AcceptedSetspeedOrdersTheProfile := by
  unfold Obligations.AcceptedSetspeedOrdersTheProfile
  intro a s t h ok
  obtain ⟨accepted, fits, profile⟩ := exec_setspeed_accepted h ok
  rw [profile]
  refine ⟨rfl, accepted_periods_ordered accepted, fun ramp => ?_⟩
  rw [Motor.withSpeeds, countWord_toNat_of_le (w := BitVec.allOnes 32) fits]
  exact one_le_profileLength _ _ ramp

/-! ### The commands that cannot fault -/

theorem exec_setdir (a : Axis) (d : Direction) (s : State) :
    exec (.setdir a d) s = commandOnAxis (.setdir a d) a (fun w => .ok (w.turned d)) s := rfl

theorem exec_enable (a : Axis) (on : Bool) (s : State) :
    exec (.enable a on) s = commandOnAxis (.enable a on) a (fun w => .ok (w.setPin .en on)) s := rfl

theorem exec_setlim (a : Axis) (cw ccw : Bool) (s : State) :
    exec (.setlim a cw ccw) s = commandOnAxis (.setlim a cw ccw) a
      (fun w => .ok (w.modify fun m => { m with cwLimit := cw, ccwLimit := ccw })) s := rfl

theorem exec_limen (a : Axis) (on : Bool) (s : State) :
    exec (.limen a on) s = commandOnAxis (.limen a on) a
      (fun w => .ok (w.modify fun m => { m with limitEnabled := on })) s := rfl

theorem exec_init (a : Axis) (s : State) :
    exec (.init a) s = commandOnAxis (.init a) a (fun w => .ok (initWork w)) s := rfl

/-- Work that cannot fault is committed, and the command ends with OK. -/
theorem commandOnAxis_ok (i : Instr) (a : Axis) (g : Work → Work) (s : State) :
    commandOnAxis i a (fun w => .ok (g w)) s =
      .next (s.afterCommand i a (g ⟨s.ax a, []⟩).motor (g ⟨s.ax a, []⟩).events 0) :=
  commandOnAxis_of_ok rfl

/-- INIT keeps the stored speed parameters and the DIR and EN latches, and resets the other fields (43_config R171). -/
theorem initWork_start (m : Motor) :
    initWork ⟨m, []⟩ =
      ⟨{ Motor.reset with
          minStepDelay := m.minStepDelay
          maxStepDelay := m.maxStepDelay
          accelSteps := m.accelSteps
          pinDir := m.pinDir
          pinEn := m.pinEn }, [(.pwm, false)]⟩ := rfl

/-- Settles O36: SETDIR turns the axis, and ENABLE drives a pin and does no other work. -/
theorem setdirAndEnableDriveTheirPins : Obligations.SetdirAndEnableDriveTheirPins := by
  unfold Obligations.SetdirAndEnableDriveTheirPins
  intro a d on s
  constructor
  · rw [exec_setdir, commandOnAxis_ok, Work.turned_start]
  · rw [exec_enable, commandOnAxis_ok, Work.setPin_motor, Motor.latch_en, Work.setPin_events, List.nil_append]

/-- Settles O37: the work of both commands is a change of flags, without a pin. -/
theorem setlimAndLimenWriteTheirFlags : Obligations.SetlimAndLimenWriteTheirFlags := by
  unfold Obligations.SetlimAndLimenWriteTheirFlags
  intro a cw ccw on s
  constructor
  · rw [exec_setlim, commandOnAxis_ok, Work.modify_motor, Work.modify_events]
  · rw [exec_limen, commandOnAxis_ok, Work.modify_motor, Work.modify_events]

/-- Settles O38: the three parameters that the rule leaves open are the stored ones. -/
theorem initReturnsTheAxisToReset : Obligations.InitReturnsTheAxisToReset := by
  unfold Obligations.InitReturnsTheAxisToReset
  intro a s
  refine ⟨(s.ax a).minStepDelay, (s.ax a).maxStepDelay, (s.ax a).accelSteps, ?_⟩
  rw [exec_init, commandOnAxis_ok, initWork_start]

end Sys2Proof.Machine

/-! The statements of 44_registry: ADD and REMOVE (R180, R181) and POLLALL (R183, R184, R186). A pass of POLLALL is followed
axis by axis: the handler of an axis touches that axis alone, and a gap lets TICKs pass and touches none, so each axis ends
as its one handler left it. The order of service matters nowhere but in the time that a handler sees. -/

namespace Sys2Proof.Machine

/-! ### ADD and REMOVE -/

theorem axisBit_getLsbD (a b : Axis) : (axisBit a).getLsbD b.val = decide (b = a) := by
  revert a b
  decide

theorem getLsbD_or_axisBit (r : BitVec 4) (a b : Axis) :
    (r ||| axisBit a).getLsbD b.val = (decide (b = a) || r.getLsbD b.val) := by
  rw [BitVec.getLsbD_or, axisBit_getLsbD, Bool.or_comm]

theorem getLsbD_and_not_axisBit (r : BitVec 4) (a b : Axis) :
    (r &&& ~~~axisBit a).getLsbD b.val = (!decide (b = a) && r.getLsbD b.val) := by
  rw [BitVec.getLsbD_and, BitVec.getLsbD_not, axisBit_getLsbD, decide_eq_true b.isLt, Bool.true_and, Bool.and_comm]

theorem exec_add (a : Axis) (s : State) :
    exec (.add a) s = .next (finish (.add a) codeOk { s with registered := s.registered ||| axisBit a }) := rfl

theorem exec_remove (a : Axis) (s : State) :
    exec (.remove a) s = .next (finish (.remove a) codeOk { s with registered := s.registered &&& ~~~axisBit a }) := rfl

/-- Settles O39: both commands write the registry and the result, and the registry bit by bit. -/
theorem addAndRemoveWriteOneRegistryBit : Obligations.AddAndRemoveWriteOneRegistryBit := by
  unfold Obligations.AddAndRemoveWriteOneRegistryBit
  intro a s
  constructor
  · exact ⟨_, exec_add a s, getLsbD_or_axisBit s.registered a, rfl⟩
  · exact ⟨_, exec_remove a s, getLsbD_and_not_axisBit s.registered a, rfl⟩

/-! ### The handler of a safe axis completes -/

theorem stepRule_completes (hold : Bool) {m : Motor} (defined : m.RuleDefined) : ∃ m', stepRule hold m = .ok m' := by
  obtain ⟨valid, domain⟩ := defined
  cases h : m.state with
  | accelerating => exact ⟨_, stepRule_accelerating_ok valid h domain⟩
  | running => exact ⟨_, stepRule_running valid h⟩
  | decelerating => exact ⟨_, stepRule_decelerating_ok valid h domain⟩
  | idle => exact ⟨m, by rw [stepRule, profile_of_valid valid, h]⟩

theorem completeStep_completes (hold : Bool) {m : Motor} (fits : Representable m.landing)
    (rule : m.landing = m.target.toInt ∨ m.RuleDefined) : ∃ m', completeStep hold m = .ok m' := by
  by_cases reached : m.landing = m.target.toInt
  · exact ⟨_, completeStep_reached reached⟩
  · rw [completeStep_rule fits reached]
    exact stepRule_completes hold (rule.resolve_left reached)

/-- At no time does a POLL of a safe axis fault (42_poll R130). -/
theorem pollWork_completes (p : Params) (t : Time) {m : Motor} (safe : m.PollSafe) :
    ∃ w, pollWork p t ⟨m, []⟩ = .ok w := by
  by_cases idle : m.state = .idle
  · exact ⟨_, pollWork_idle idle⟩
  cases limit : m.limitHit with
  | true => exact ⟨_, pollWork_limit idle limit⟩
  | false =>
    cases due : m.edgeDue p.timeWidth t with
    | false => exact ⟨_, pollWork_early idle limit due⟩
    | true =>
      cases pulse : m.pulseState with
      | false => exact ⟨_, pollWork_rise idle limit due pulse⟩
      | true =>
        have free : ¬ m.AtLimit := mt (limitHit_iff m).2 (Bool.eq_false_iff.1 limit)
        have high : m.pulseState ≠ false := by simp [pulse]
        obtain ⟨fits, rule⟩ := ((safe.resolve_left idle).resolve_left free).resolve_left high
        obtain ⟨m', step⟩ := completeStep_completes p.runspeedHold (m := m.lowered t) fits rule
        exact ⟨⟨m', _⟩, by rw [pollWork_fall idle limit due pulse, step]⟩

/-! ### A pass, one axis at a time -/

/-- What passes between the handler that has run and those of the axes still to come: a gap, if there is one to come. -/
def gapBefore : List Axis → State → State
  | [], s => s
  | _ :: _, s => gap s

theorem serviceAll_cons (a : Axis) (l : List Axis) (s : State) :
    serviceAll (a :: l) s = andThen (pollAxis a s) fun t => serviceAll l (gapBefore l t) := by
  cases l with
  | nil => rw [serviceAll]; cases pollAxis a s <;> rfl
  | cons b l => rfl

theorem serviceAll_cons_eq_next {a : Axis} {l : List Axis} {s t : State} :
    serviceAll (a :: l) s = .next t ↔
      ∃ w, pollWork s.params s.timeUs ⟨s.ax a, []⟩ = .ok w ∧ serviceAll l (gapBefore l (s.commit a w)) = .next t := by
  rw [serviceAll_cons, andThen_eq_next]
  constructor
  · rintro ⟨u, polled, rest⟩
    obtain ⟨w, work, rfl⟩ := pollAxis_eq_next.1 polled
    exact ⟨w, work, rest⟩
  · rintro ⟨w, work, rest⟩
    exact ⟨_, pollAxis_eq_next.2 ⟨w, work, rfl⟩, rest⟩

@[simp] theorem gapBefore_ax (l : List Axis) (s : State) (a : Axis) : (gapBefore l s).ax a = s.ax a := by
  cases l with
  | nil => rfl
  | cons => exact gap_ax s a

@[simp] theorem gapBefore_trace (l : List Axis) (s : State) : (gapBefore l s).trace = s.trace := by
  cases l with
  | nil => rfl
  | cons => exact gap_trace s

@[simp] theorem gapBefore_params (l : List Axis) (s : State) : (gapBefore l s).params = s.params := by
  cases l with
  | nil => rfl
  | cons => exact gap_params s

/-- A handler leaves the other axes of the pass as safe as they were, so the pass reaches its end. -/
theorem serviceAll_completes {l : List Axis} {s : State} (nodup : l.Nodup) (safe : ∀ a ∈ l, (s.ax a).PollSafe) :
    ∃ t, serviceAll l s = .next t := by
  induction l generalizing s with
  | nil => exact ⟨s, rfl⟩
  | cons a l ih =>
    obtain ⟨once, nodup⟩ := List.nodup_cons.1 nodup
    obtain ⟨w, work⟩ := pollWork_completes s.params s.timeUs (safe a List.mem_cons_self)
    obtain ⟨t, rest⟩ := ih (s := gapBefore l (s.commit a w)) nodup fun b hb => by
      rw [gapBefore_ax, State.commit_ax_ne _ _ (ne_of_mem_of_not_mem hb once)]
      exact safe b (List.mem_cons_of_mem a hb)
    exact ⟨t, serviceAll_cons_eq_next.2 ⟨w, work, rest⟩⟩

/-! ### The time in a pass -/

/-- A state with the fields that a pass writes apart from the time: the records, the trace, the schedule of gaps and the
draw counter. -/
def State.withPass (s : State) (x : Axes) (trace : List PinEvent) (gaps : List Nat) (draws : Nat) : State :=
  { s with axes := x, trace := trace, gapTicks := gaps, draws := draws }

/-- TICKs neither read nor write the fields of `withPass`. -/
theorem ticks_withPass (k : Nat) (s : State) (x : Axes) (trace : List PinEvent) (gaps : List Nat) (draws : Nat) :
    ticks k (s.withPass x trace gaps draws) = (ticks k s).withPass x trace gaps draws := by
  induction k generalizing s with
  | zero => rfl
  | succ k ih => exact ih (tick s)

/-- The state `u` in a POLLALL that began in `s`: `k` TICKs have passed, none of them if no gap is scheduled, and else only
the fields of a pass may differ. -/
structure State.PassAt (s : State) (k : Nat) (u : State) : Prop where
  frame : ∃ x trace gaps draws, u = (ticks k s).withPass x trace gaps draws
  silent : s.gapTicks = [] → k = 0 ∧ u.gapTicks = []

theorem State.passAt_start (s : State) (draws : Nat) : s.PassAt 0 { s with draws := draws } :=
  ⟨⟨s.axes, s.trace, s.gapTicks, draws, rfl⟩, fun h => ⟨rfl, h⟩⟩

theorem State.PassAt.commit {s u : State} {k : Nat} (h : s.PassAt k u) (a : Axis) (w : Work) :
    s.PassAt k (u.commit a w) := by
  obtain ⟨⟨x, trace, gaps, draws, rfl⟩, silent⟩ := h
  exact ⟨⟨_, _, gaps, draws, rfl⟩, silent⟩

theorem State.PassAt.afterGap {s u : State} {k : Nat} (h : s.PassAt k u) : ∃ j, s.PassAt j (gap u) := by
  obtain ⟨⟨x, trace, gaps, draws, rfl⟩, silent⟩ := h
  cases gaps with
  | nil => exact ⟨k, ⟨x, trace, [], draws, rfl⟩, silent⟩
  | cons n gaps =>
    have later : gap ((ticks k s).withPass x trace (n :: gaps) draws) =
        (ticks (k + n) s).withPass x trace gaps draws := by
      rw [ticks_add]
      exact ticks_withPass n (ticks k s) x trace gaps draws
    exact ⟨k + n, ⟨x, trace, gaps, draws, later⟩, fun unscheduled => nomatch (silent unscheduled).2⟩

theorem State.PassAt.beforeNext {s u : State} {k : Nat} (h : s.PassAt k u) (l : List Axis) :
    ∃ j, s.PassAt j (gapBefore l u) := by
  cases l with
  | nil => exact ⟨k, h⟩
  | cons => exact h.afterGap

theorem serviceAll_passAt {l : List Axis} {s u t : State} {k : Nat} (start : s.PassAt k u) (h : serviceAll l u = .next t) :
    ∃ j, s.PassAt j t := by
  refine serviceAll_induct (P := fun u => ∃ j, s.PassAt j u) (fun a u v hu polled => ?_) (fun u hu => ?_)
    l u t ⟨k, start⟩ h
  · obtain ⟨j, hj⟩ := hu
    obtain ⟨w, -, rfl⟩ := pollAxis_eq_next.1 polled
    exact ⟨j, hj.commit a w⟩
  · obtain ⟨j, hj⟩ := hu
    exact hj.afterGap

theorem State.PassAt.time {s u : State} {k : Nat} (h : s.PassAt k u) :
    u.timeUs = (ticks k s).timeUs ∧ u.msTick = (ticks k s).msTick ∧ u.usFrac = (ticks k s).usFrac := by
  obtain ⟨⟨x, trace, gaps, draws, rfl⟩, -⟩ := h
  exact ⟨rfl, rfl, rfl⟩

theorem State.PassAt.time_of_silent {s u : State} {k : Nat} (h : s.PassAt k u) (silent : s.gapTicks = []) :
    u.timeUs = s.timeUs ∧ u.msTick = s.msTick ∧ u.usFrac = s.usFrac := by
  obtain ⟨rfl, -⟩ := h.silent silent
  exact h.time

/-- What a pass does not write. -/
theorem State.PassAt.kept {s u : State} {k : Nat} (h : s.PassAt k u) :
    u.registered = s.registered ∧ u.arg0 = s.arg0 ∧ u.arg1 = s.arg1 ∧ u.arg2 = s.arg2 ∧
      u.timeHiLatch = s.timeHiLatch ∧ u.params = s.params ∧ u.reads = s.reads ∧ u.input = s.input := by
  obtain ⟨⟨x, trace, gaps, draws, rfl⟩, -⟩ := h
  exact ⟨ticks_registered k s, ticks_arg0 k s, ticks_arg1 k s, ticks_arg2 k s, ticks_timeHiLatch k s, ticks_params k s,
    ticks_reads k s, ticks_input k s⟩

/-! ### One axis in a pass -/

/-- From `s` to `t` the record of axis `a` is kept, and no event of it is added. -/
def AxisKept (a : Axis) (s t : State) : Prop := t.ax a = s.ax a ∧ eventsOf a t.trace = eventsOf a s.trace

/-- From `s` to `t` axis `a` has run its handler once, at the time `now`. -/
def AxisPolled (a : Axis) (now : Time) (s t : State) : Prop :=
  ∃ w, pollWork s.params now ⟨s.ax a, []⟩ = .ok w ∧ t.ax a = w.motor ∧
    eventsOf a t.trace = eventsOf a s.trace ++ w.events

theorem AxisKept.trans {a : Axis} {s u t : State} (h : AxisKept a s u) (g : AxisKept a u t) : AxisKept a s t :=
  ⟨g.1.trans h.1, g.2.trans h.2⟩

theorem AxisKept.polled {a : Axis} {now : Time} {s u t : State} (h : AxisKept a s u) (params : u.params = s.params)
    (g : AxisPolled a now u t) : AxisPolled a now s t := by
  obtain ⟨record, events⟩ := h
  rwa [AxisPolled, params, record, events] at g

theorem AxisPolled.kept {a : Axis} {now : Time} {s u t : State} (h : AxisPolled a now s u) (g : AxisKept a u t) :
    AxisPolled a now s t := by
  obtain ⟨w, work, record, events⟩ := h
  exact ⟨w, work, g.1.trans record, g.2.trans events⟩

/-- A handler and the gap after it keep every other axis. -/
theorem axisKept_service {a b : Axis} (other : b ≠ a) (l : List Axis) (s : State) (w : Work) :
    AxisKept b s (gapBefore l (s.commit a w)) :=
  ⟨by rw [gapBefore_ax, State.commit_ax_ne _ _ other], by rw [gapBefore_trace, eventsOf_commit_ne _ _ other]⟩

theorem axisPolled_service {a : Axis} {s : State} {w : Work} (work : pollWork s.params s.timeUs ⟨s.ax a, []⟩ = .ok w)
    (l : List Axis) : AxisPolled a s.timeUs s (gapBefore l (s.commit a w)) :=
  ⟨w, work, by rw [gapBefore_ax, State.commit_ax_self], by rw [gapBefore_trace, eventsOf_commit_self]⟩

/-- What is not in the list is kept. -/
theorem serviceAll_axisKept {l : List Axis} {s t : State} (h : serviceAll l s = .next t) {a : Axis} (ha : a ∉ l) :
    AxisKept a s t := by
  induction l generalizing s with
  | nil => cases h; exact ⟨rfl, rfl⟩
  | cons b l ih =>
    obtain ⟨other, ha⟩ := not_or.1 (mt List.mem_cons.2 ha)
    obtain ⟨w, -, rest⟩ := serviceAll_cons_eq_next.1 h
    exact (axisKept_service other l s w).trans (ih rest ha)

/-- Each axis of the list runs its handler once, at the time of some state of the pass (44_registry R183). -/
theorem serviceAll_axisPolled {l : List Axis} {s0 s t : State} {k : Nat} (start : s0.PassAt k s) (nodup : l.Nodup)
    (h : serviceAll l s = .next t) {a : Axis} (ha : a ∈ l) :
    ∃ j u, s0.PassAt j u ∧ AxisPolled a u.timeUs s t := by
  induction l generalizing s k with
  | nil => cases ha
  | cons b l ih =>
    obtain ⟨once, nodup⟩ := List.nodup_cons.1 nodup
    obtain ⟨w, work, rest⟩ := serviceAll_cons_eq_next.1 h
    obtain rfl | ha := List.mem_cons.1 ha
    · exact ⟨k, s, start, (axisPolled_service work l).kept (serviceAll_axisKept rest once)⟩
    · obtain ⟨i, next⟩ := (start.commit b w).beforeNext l
      obtain ⟨j, u, hu, polled⟩ := ih next nodup rest ha
      exact ⟨j, u, hu, (axisKept_service (ne_of_mem_of_not_mem ha once) l s w).polled (by simp) polled⟩

/-! ### POLLALL -/

theorem exec_pollall (s : State) : exec .pollall s = execPollall s := rfl

/-- A handler that answers at the time `now` is a POLL that answers at that time. -/
theorem exec_poll_at {a : Axis} {s : State} {now : Time} {w : Work} (work : pollWork s.params now ⟨s.ax a, []⟩ = .ok w) :
    exec (.poll a) { s with timeUs := now } =
      .next ({ s with timeUs := now }.afterCommand (.poll a) a w.motor w.events 0) :=
  commandOnAxis_of_ok work

/-- An axis that has run its handler once is as one POLL of it would leave it, with the events of that POLL. -/
theorem AxisPolled.exec_poll {a : Axis} {now : Time} {s t : State} (h : AxisPolled a now s t) :
    ∃ u, exec (.poll a) { s with timeUs := now } = .next u ∧ t.ax a = u.ax a ∧
      eventsOf a t.trace = eventsOf a u.trace := by
  obtain ⟨w, work, record, events⟩ := h
  refine ⟨_, exec_poll_at work, ?_, ?_⟩
  · rw [afterCommand_ax_self, record]
  · rw [afterCommand_trace, eventsOf_append, eventsOf_own, events]

/-- POLLALL completes when no registered axis can fault (44_registry R183). -/
theorem execPollall_completes {s : State} (safe : ∀ a, s.isRegistered a = true → (s.ax a).PollSafe) :
    ∃ t, execPollall s = .next t := by
  obtain ⟨u, pass⟩ := serviceAll_completes (s := { s with draws := s.draws + 1 }) (serviceOrder_nodup s s.draws)
    fun a ha => safe a (mem_serviceOrder.1 ha)
  exact ⟨_, execPollall_eq_next.2 ⟨u, pass, rfl⟩⟩

/-- What POLLALL does to each axis, and when: `u` is a state of the pass, before the result is written. -/
theorem execPollall_axis {s t : State} (h : execPollall s = .next t) (a : Axis) :
    ∃ k u, s.PassAt k u ∧ (s.isRegistered a = true → AxisPolled a u.timeUs s t) ∧
      (s.isRegistered a = false → AxisKept a s t) := by
  obtain ⟨v, pass, rfl⟩ := execPollall_eq_next.1 h
  have start := s.passAt_start (s.draws + 1)
  cases registered : s.isRegistered a with
  | true =>
    obtain ⟨k, u, hu, polled⟩ :=
      serviceAll_axisPolled start (serviceOrder_nodup s s.draws) pass (mem_serviceOrder.2 registered)
    exact ⟨k, u, hu, fun _ => polled, nofun⟩
  | false =>
    have absent := mt (mem_serviceOrder (d := s.draws)).1 (Bool.eq_false_iff.1 registered)
    exact ⟨0, _, start, nofun, fun _ => serviceAll_axisKept pass absent⟩

/-- What POLLALL leaves outside the axes: the time has passed as in its gaps, and the result is written. -/
theorem execPollall_passAt {s t : State} (h : execPollall s = .next t) :
    ∃ k u, s.PassAt k u ∧ t = finish .pollall codeOk u := by
  obtain ⟨u, pass, rfl⟩ := execPollall_eq_next.1 h
  obtain ⟨k, hu⟩ := serviceAll_passAt (s.passAt_start (s.draws + 1)) pass
  exact ⟨k, u, hu, rfl⟩

/-- Settles O40: a pass over safe axes completes, and is read off axis by axis; a pass that completes has run the handler
of every registered axis. -/
theorem pollallServicesEachRegisteredAxisOnce : Obligations.PollallServicesEachRegisteredAxisOnce := by
  unfold Obligations.PollallServicesEachRegisteredAxisOnce
  intro s
  constructor
  · intro safe
    obtain ⟨t, h⟩ := execPollall_completes safe
    choose ks us pass polled kept using execPollall_axis h
    obtain ⟨k, u, hu, rfl⟩ := execPollall_passAt h
    have silence (silent : s.gapTicks = []) :
        (∀ a, (us a).timeUs = s.timeUs) ∧ u.timeUs = s.timeUs ∧ u.msTick = s.msTick ∧ u.usFrac = s.usFrac :=
      ⟨fun a => ((pass a).time_of_silent silent).1, hu.time_of_silent silent⟩
    exact ⟨_, fun a => (us a).timeUs, (exec_pollall s).trans h, fun a registered => (polled a registered).exec_poll, kept,
      fun a => ⟨ks a, (pass a).time.1⟩, silence, ⟨k, hu.time⟩, rfl, hu.kept⟩
  · intro a registered faults t h
    obtain ⟨_, _, -, polled, -⟩ := execPollall_axis ((exec_pollall s).symm.trans h) a
    obtain ⟨u, answers, -⟩ := (polled registered).exec_poll
    exact faults _ u answers

end Sys2Proof.Machine

/-! The statement of 60_exceptions: which command records which result code (R191). -/

namespace Sys2Proof.Machine

/-- The result a command records is its own word with OK, or with INVALID_ARG from SETSPEED (60_exceptions R190, R191). -/
theorem exec_result {i : Instr} {s t : State} (h : exec i s = .next t) :
    ∃ c, t.result = ⟨c, (encode i).setWidth 14⟩ ∧ (c = codeOk ∨ (c = codeInvalidArg ∧ ∃ a, i = .setspeed a)) := by
  obtain ⟨a, m, evs, rfl⟩ | ⟨b, reg, -, rfl⟩ | ⟨a, speed, rfl⟩ | ⟨rfl, hall⟩ := exec_cases h
  · exact ⟨codeOk, afterCommand_result .., .inl rfl⟩
  · exact ⟨codeOk, finish_result .., .inl rfl⟩
  · exact ⟨codeInvalidArg, finish_result .., .inr ⟨rfl, a, speed⟩⟩
  · obtain ⟨u, -, rfl⟩ := execPollall_eq_next.1 hall
    exact ⟨codeOk, finish_result .., .inl rfl⟩

/-- Settles O53: a command's code by `exec_result`, an illegal word's by the step that writes it to CMD (30_encoding R86). -/
theorem eachCommandProducesOnlyItsResultCodes : Obligations.EachCommandProducesOnlyItsResultCodes := by
  unfold Obligations.EachCommandProducesOnlyItsResultCodes
  constructor
  · intro i s t h
    obtain ⟨c, result, code⟩ := exec_result h
    rw [result]
    exact ⟨rfl, code⟩
  · intro w e s t rest illegal h
    rw [(illegalWordsWriteOnlyTheResult w).2 s rest e illegal] at h
    cases h
    rfl

end Sys2Proof.Machine

/-! The statement of 70_reset_and_hazards on the progress of a MOVE (R238): its edges are counted by `PollRun.onMove`, and
on its course no POLL faults. -/

namespace Sys2Proof.Machine

/-! ### A POLL on the course of a MOVE completes -/

/-- The premise of R149 covers every ramp step on the course of a MOVE: no count there exceeds the profile's length. -/
theorem Motor.OnCourse.rampInDomain {m : Motor} {steps k : Nat} (on : m.OnCourse m.numbers steps k)
    (premise : (m.numbers.dmax - m.numbers.dmin) * m.numbers.n < 2 ^ 32) : m.RampInDomain := by
  refine ⟨fun accelerating => or_iff_not_imp_left.2 fun ramp => ?_, fun _ => premise⟩
  have state := on.state.symm.trans accelerating
  obtain ⟨-, ramping⟩ := courseState_eq_accelerating.1 state
  have someRamp : m.numbers.n ≠ 0 := mt (numbers_n_eq_zero m).1 ramp
  have room : m.numbers.n < 2 ^ 32 := m.accelSteps.isLt
  have count : m.accelCount.toNat = k := on.count.trans (courseCount_of_accelerating state).1
  have next : (m.accelCount + 1).toNat ≤ m.accelSteps.toNat := by
    rw [accelCount_succ_toNat (by omega), count]
    change k + 1 ≤ m.numbers.n
    omega
  rw [max_eq_left next]
  exact premise

theorem sign_eq_one_or_neg_one (d : Direction) : sign d = 1 ∨ sign d = -1 := by
  cases d
  · exact .inl rfl
  · exact .inr rfl

section onMove
variable {m0 m : Motor} {steps n : Nat}

/-- No step of a MOVE leaves the position range: it lands between the start and the target. -/
theorem Motor.OnMove.landing_representable (on : m0.OnMove steps n m) (aim : m0.AimsAt steps) (more : n / 2 < steps) :
    Representable m.landing := by
  have direction : m.direction = m0.direction := by rw [on.frame]
  have landing : m.landing = m0.position.toInt + sign m0.direction * (n / 2 : Nat) + sign m0.direction := by
    rw [Motor.landing, direction, on.position]
  have start := toInt_representable m0.position
  have target : Representable (m0.position.toInt + sign m0.direction * steps) := aim ▸ toInt_representable m0.target
  rw [landing]
  obtain forward | backward := sign_eq_one_or_neg_one m0.direction
  · rw [forward] at target ⊢
    omega
  · rw [backward] at target ⊢
    omega

/-- On a MOVE that is not over the axis is active. -/
theorem Motor.OnMove.active (on : m0.OnMove steps n m) (more : n < 2 * steps) : m.state ≠ .idle := by
  obtain ⟨-, course⟩ | ⟨ended, -⟩ := on.course
  · exact fun idle => courseState_ne_idle (course.state.symm.trans idle)
  · omega

/-- On a MOVE with a set profile no POLL faults under the premise of R149. -/
theorem Motor.OnMove.pollSafe (on : m0.OnMove steps n m) (aim : m0.AimsAt steps) (valid : m0.speedValid = true)
    (premise : (m0.numbers.dmax - m0.numbers.dmin) * m0.numbers.n < 2 ^ 32) : m.PollSafe := by
  obtain ⟨more, course⟩ | ⟨-, idle⟩ := on.course
  · have profiled : m.speedValid = true := by rw [on.frame]; exact valid
    rw [← on.numbers] at course premise
    exact .inr (.inr (.inr
      ⟨on.landing_representable aim (by omega), .inr ⟨profiled, course.rampInDomain premise⟩⟩))
  · exact .inl idle

/-- A MOVE is over at its target. -/
theorem Motor.OnMove.target_eq_position (on : m0.OnMove steps (2 * steps) m) (aim : m0.AimsAt steps) :
    m.target = m.position := by
  have target : m.target = m0.target := by rw [on.frame]
  rw [← BitVec.toInt_inj, target, on.position, Nat.mul_div_cancel_left steps (by decide)]
  exact aim

end onMove

/-- POLL completes when its axis cannot fault (42_poll R130). -/
theorem exec_poll_completes {a : Axis} {s : State} (safe : (s.ax a).PollSafe) : ∃ t, exec (.poll a) s = .next t := by
  obtain ⟨w, work⟩ := pollWork_completes s.params s.timeUs safe
  exact ⟨_, commandOnAxis_of_ok work⟩

/-! ### The whole MOVE -/

/-- A MOVE reads the profile, so one that starts has found it set (41_motion R111, R115). -/
theorem speedValid_of_exec_move {a : Axis} {d : Direction} {s t : State} (h : exec (.move a d) s = .next t)
    (far : s.arg0 ≠ 0) (fits : Representable ((s.ax a).position.toInt + sign d * s.arg0.toNat)) :
    (s.ax a).speedValid = true := by
  rw [← Bool.not_eq_false]
  intro unset
  obtain ⟨fault, -⟩ := unsetSpeedParametersFault a s unset
  rw [fault d far fits] at h
  cases h

/-- Settles O55: the run keeps the axis on its MOVE, which is active before its `2 * steps` edges and Idle at its target
with them; on the MOVE a POLL completes. -/
theorem moveCompletesAfterTwiceItsStepsInEdges : Obligations.MoveCompletesAfterTwiceItsStepsInEdges := by
  unfold Obligations.MoveCompletesAfterTwiceItsStepsInEdges
  intro a d s s0 t n h nonzero free run steps p
  have far : steps ≠ 0 := fun none => nonzero (BitVec.eq_of_toNat_eq none)
  obtain ⟨target, started, aim⟩ := exec_move_started h far
  have valid := speedValid_of_exec_move h nonzero (aim ▸ toInt_representable target)
  rw [started] at free
  have aims : ((s.ax a).started steps d target s.timeUs).AimsAt steps := aim
  have on := run.onMove aims free (by rw [started]; exact started_onMove _ far d target _)
  rw [Nat.zero_add] at on
  refine ⟨on.course.elim (·.1.le) (·.1.le), fun more => ⟨on.active more, fun premise => ?_⟩, ?_⟩
  · obtain ⟨t', poll⟩ := exec_poll_completes (on.pollSafe aims valid premise)
    refine ⟨t', poll, fun ⟨active, clear, due⟩ => ?_⟩
    obtain ⟨toggle, -⟩ := (pollMakesOneEdgeExactlyWhenDue a t active clear).2 due t' poll
    rw [toggle]
    exact Bool.not_ne_self _
  · rintro rfl
    obtain ⟨more, -⟩ | ⟨-, idle⟩ := on.course
    · exact absurd more (Nat.lt_irrefl _)
    · have position := on.position
      rw [Nat.mul_div_cancel_left steps (by decide)] at position
      exact ⟨idle, position, on.target_eq_position aims⟩

end Sys2Proof.Machine
